-- ==== Sys2Proof/Word.lean ====
section
/-! DEFINITION. The word types of the core (spec/00_scope.md R10, R14). -/

namespace Sys2Proof

/-- One byte: a V register, a timer, a memory entry, the immediate `kk` (R10, R73). -/
abbrev Byte := BitVec 8

/-- Sixteen bits: an instruction word, `pc`, `I`, a stack slot (R10, R24, R29, R30). -/
abbrev Word := BitVec 16

/-- The 12-bit immediate address `nnn` (R73). -/
abbrev Addr12 := BitVec 12

/-- The number of a V register, 0 to 15 (R20, R74). -/
abbrev Reg := Fin 16

/-- `VF`, the flag output (R21). -/
def vF : Reg := 15

end Sys2Proof
end

