-- ==== Sys2Proof/Config.lean ====
section
/-! DEFINITION. What is fixed for a run (the configuration, spec/00_scope.md R11, 10_state.md R43) and the free
values that stand for the answers of the core's environment (00_scope.md R13). -/

namespace Sys2Proof

/-- TIMER_AT_ZERO: what a timer does when it is decremented at 0 (R11, R217). -/
inductive TimerAtZero where
  | clamp
  | wrap
  deriving DecidableEq, Repr

/-- DECODE_MODE: the decoder of R76 (`doc`) or of R81 (`canonical`) (D26, log 12). -/
inductive DecodeMode where
  | doc
  | canonical
  deriving DecidableEq, Repr

/-- The default FONT, sixteen glyphs of five bytes (10_state.md R45). PRESUMED: the spec supplies these bytes from
general knowledge (log 10). -/
def Config.defaultFont : List Byte :=
  [0xF0, 0x90, 0x90, 0x90, 0xF0,  0x20, 0x60, 0x20, 0x20, 0x70,  0xF0, 0x10, 0xF0, 0x80, 0xF0,  0xF0, 0x10, 0xF0, 0x10, 0xF0] ++
  [0x90, 0x90, 0xF0, 0x10, 0x10,  0xF0, 0x80, 0xF0, 0x10, 0xF0,  0xF0, 0x80, 0xF0, 0x90, 0xF0,  0xF0, 0x10, 0x20, 0x40, 0x40] ++
  [0xF0, 0x90, 0xF0, 0x90, 0xF0,  0xF0, 0x90, 0xF0, 0x10, 0xF0,  0xF0, 0x90, 0xF0, 0x90, 0x90,  0xE0, 0x90, 0xE0, 0x90, 0xE0] ++
  [0xF0, 0x80, 0x80, 0x80, 0xF0,  0xE0, 0x90, 0x90, 0x90, 0xE0,  0xF0, 0x80, 0xF0, 0x80, 0xF0,  0xF0, 0x80, 0xF0, 0x80, 0x80]

/-- The configuration a run has (R11, R43). -/
structure Configuration where
  /-- STACK_CAP, the number of stack slots. -/
  stackCap : Nat
  /-- QUIRK_SHIFT_DEFAULT, loaded by reset. -/
  quirkShiftDefault : Bool
  /-- QUIRK_LOADSTORE_DEFAULT, loaded by reset. -/
  quirkLoadStoreDefault : Bool
  /-- FONT, the bytes reset seeds at 0x000. -/
  font : List Byte
  timerAtZero : TimerAtZero
  decodeMode : DecodeMode
  deriving DecidableEq, Repr

/-- The default configuration (R11, R244). -/
def Config.default : Configuration where
  stackCap := 16
  quirkShiftDefault := false
  quirkLoadStoreDefault := false
  font := Config.defaultFont
  timerAtZero := .clamp
  decodeMode := .doc

/-- What the caller hands to `initialize(config)` (R205, R242). A value of TIMER_AT_ZERO or DECODE_MODE that is none of the
named ones is `none` (log 8); a parameter left out takes its default. -/
structure ConfigRequest where
  stackCap : Nat := 16
  quirkShiftDefault : Bool := false
  quirkLoadStoreDefault : Bool := false
  font : List Byte := Config.defaultFont
  timerAtZero : Option TimerAtZero := some .clamp
  decodeMode : Option DecodeMode := some .doc
  deriving DecidableEq, Repr

/-- A parameter that UnsupportedConfiguration can name (R200, R205). -/
inductive ConfigParam where
  | stackCap
  | font
  | timerAtZero
  | decodeMode
  deriving DecidableEq, Repr

/-- The byte RND draws when no answer is queued: unconstrained (R13, R229; U4; log 3). Free value. -/
opaque Config.freeRandomByte : Nat → Byte

/-- The Keyboard's answer to `isKeyPressed` when none is queued: unconstrained (R13, R194; U5, U7; log 3). Free value. -/
opaque Config.freeKeyAnswer : Nat → Bool

/-- The Screen's collision answer to `togglePixel` when none is queued: unconstrained (R13, R123; U1, U6; log 3). Free value. -/
opaque Config.freeCollision : Nat → Bool

end Sys2Proof
end

