-- ==== Sys2Proof/Syntax.lean ====
section
/-! DEFINITION. The thirty-five instructions, one constructor per row of spec/opcode_table.json, in the order of the
dispatch index (spec/30_encoding.md R80). Operands as the fields of R72 and R73. -/

namespace Sys2Proof

/-- An instruction of the core (R80). -/
inductive Instr where
  | sys (nnn : Addr12)
  | cls
  | ret
  | jp (nnn : Addr12)
  | call (nnn : Addr12)
  | seXkk (x : Reg) (kk : Byte)
  | sneXkk (x : Reg) (kk : Byte)
  | seXy (x y : Reg)
  | ldXkk (x : Reg) (kk : Byte)
  | addXkk (x : Reg) (kk : Byte)
  | ldXy (x y : Reg)
  | orXy (x y : Reg)
  | andXy (x y : Reg)
  | xorXy (x y : Reg)
  | addXy (x y : Reg)
  | subXy (x y : Reg)
  | shrXy (x y : Reg)
  | subnXy (x y : Reg)
  | shlXy (x y : Reg)
  | sneXy (x y : Reg)
  | ldI (nnn : Addr12)
  | jpV0 (nnn : Addr12)
  | rnd (x : Reg) (kk : Byte)
  | drw (x y : Reg) (n : Fin 16)
  | skp (x : Reg)
  | sknp (x : Reg)
  | ldVxDt (x : Reg)
  | ldVxK (x : Reg)
  | ldDtVx (x : Reg)
  | ldStVx (x : Reg)
  | addIVx (x : Reg)
  | ldFVx (x : Reg)
  | ldBVx (x : Reg)
  | ldMemVx (x : Reg)
  | ldVxMem (x : Reg)
  deriving DecidableEq, Repr

end Sys2Proof
end

