-- ==== Sys2Proof/WellFormed.lean ====
section
/-! DEFINITION. Which instructions have an encoding of their own. Every operand field holds only legal values by its type
(spec/30_encoding.md R73, R74), so the one check is SYS: a family-0 word whose bits select CLS or RET is not a SYS. -/

namespace Sys2Proof

/-- The family-0 operand `nnn` selects CLS or RET under the decoder of the mode: by its bottom byte in `doc` (R76), by the
whole word in `canonical` (R81; log 27). -/
def sysTaken (m : DecodeMode) (nnn : Addr12) : Bool :=
  match m with
  | .doc => nnn.setWidth 8 == 0xE0#8 || nnn.setWidth 8 == 0xEE#8
  | .canonical => nnn == 0x0E0#12 || nnn == 0x0EE#12

/-- The instruction has an encoding under the mode (R76, R81, R102). -/
def Instr.wellFormed (m : DecodeMode) : Instr → Bool
  | .sys nnn => !sysTaken m nnn
  | .cls => true
  | .ret => true
  | .jp _ => true
  | .call _ => true
  | .seXkk _ _ => true
  | .sneXkk _ _ => true
  | .seXy _ _ => true
  | .ldXkk _ _ => true
  | .addXkk _ _ => true
  | .ldXy _ _ => true
  | .orXy _ _ => true
  | .andXy _ _ => true
  | .xorXy _ _ => true
  | .addXy _ _ => true
  | .subXy _ _ => true
  | .shrXy _ _ => true
  | .subnXy _ _ => true
  | .shlXy _ _ => true
  | .sneXy _ _ => true
  | .ldI _ => true
  | .jpV0 _ => true
  | .rnd _ _ => true
  | .drw _ _ _ => true
  | .skp _ => true
  | .sknp _ => true
  | .ldVxDt _ => true
  | .ldVxK _ => true
  | .ldDtVx _ => true
  | .ldStVx _ => true
  | .addIVx _ => true
  | .ldFVx _ => true
  | .ldBVx _ => true
  | .ldMemVx _ => true
  | .ldVxMem _ => true

end Sys2Proof
end

