-- ==== Sys2Proof/Decode.lean ====
section
/-! DEFINITION. Fields, the two decoders, the dispatch index, the encoder and the opcode table
(spec/30_encoding.md R70 to R89). Every family number and function value but 00E0 and Fx0A is the spec's general-knowledge
item G1 (D28), PRESUMED (log 11). -/

namespace Sys2Proof

/-! ### Fields (R72) -/

/-- The family, `w[15:12]` (R71, R75). -/
def fieldFamily (w : Word) : BitVec 4 := w.extractLsb 15 12

/-- `x = w[11:8]`. -/
def fieldX (w : Word) : Reg := (w.extractLsb 11 8).toFin

/-- `y = w[7:4]`. -/
def fieldY (w : Word) : Reg := (w.extractLsb 7 4).toFin

/-- `n = w[3:0]`. -/
def fieldN (w : Word) : Fin 16 := (w.extractLsb 3 0).toFin

/-- `kk = w[7:0]`. -/
def fieldKK (w : Word) : Byte := w.extractLsb 7 0

/-- `nnn = w[11:0]`. -/
def fieldNNN (w : Word) : Addr12 := w.extractLsb 11 0

/-! ### Decoders -/

/-- Family 8, selected by the bottom nibble (R77). -/
def decodeFamily8 (w : Word) : Option Instr :=
  let x := fieldX w
  let y := fieldY w
  match (fieldN w).val with
  | 0x0 => some (.ldXy x y)
  | 0x1 => some (.orXy x y)
  | 0x2 => some (.andXy x y)
  | 0x3 => some (.xorXy x y)
  | 0x4 => some (.addXy x y)
  | 0x5 => some (.subXy x y)
  | 0x6 => some (.shrXy x y)
  | 0x7 => some (.subnXy x y)
  | 0xE => some (.shlXy x y)
  | _ => none

/-- Family F, selected by the bottom byte (R79). -/
def decodeFamilyF (w : Word) : Option Instr :=
  let x := fieldX w
  match (fieldKK w).toNat with
  | 0x07 => some (.ldVxDt x)
  | 0x0A => some (.ldVxK x)
  | 0x15 => some (.ldDtVx x)
  | 0x18 => some (.ldStVx x)
  | 0x1E => some (.addIVx x)
  | 0x29 => some (.ldFVx x)
  | 0x33 => some (.ldBVx x)
  | 0x55 => some (.ldMemVx x)
  | 0x65 => some (.ldVxMem x)
  | _ => none

/-- The decoder in DECODE_MODE doc (R76); `none` is INVALID. -/
def decodeDoc (w : Word) : Option Instr :=
  let x := fieldX w
  let y := fieldY w
  let kk := fieldKK w
  let nnn := fieldNNN w
  match (fieldFamily w).toNat with
  | 0x0 => if kk = 0xE0 then some .cls else if kk = 0xEE then some .ret else some (.sys nnn)
  | 0x1 => some (.jp nnn)
  | 0x2 => some (.call nnn)
  | 0x3 => some (.seXkk x kk)
  | 0x4 => some (.sneXkk x kk)
  | 0x5 => some (.seXy x y)
  | 0x6 => some (.ldXkk x kk)
  | 0x7 => some (.addXkk x kk)
  | 0x8 => decodeFamily8 w
  | 0x9 => some (.sneXy x y)
  | 0xA => some (.ldI nnn)
  | 0xB => some (.jpV0 nnn)
  | 0xC => some (.rnd x kk)
  | 0xD => some (.drw x y (fieldN w))
  | 0xE =>
    match (fieldN w).val with
    | 0xE => some (.skp x)
    | 0x1 => some (.sknp x)
    | _ => none
  | _ => decodeFamilyF w

/-- The decoder in DECODE_MODE canonical (R81); `none` is INVALID. -/
def decodeCanonical (w : Word) : Option Instr :=
  match (fieldFamily w).toNat with
  | 0x0 => if w = 0x00E0 then some .cls else if w = 0x00EE then some .ret else some (.sys (fieldNNN w))
  | 0x5 => if fieldN w = 0 then some (.seXy (fieldX w) (fieldY w)) else none
  | 0x9 => if fieldN w = 0 then some (.sneXy (fieldX w) (fieldY w)) else none
  | 0xE =>
    if fieldKK w = 0x9E then some (.skp (fieldX w))
    else if fieldKK w = 0xA1 then some (.sknp (fieldX w))
    else none
  | _ => decodeDoc w

/-- The decoder of a mode, total on every word (R89); `none` is INVALID. -/
def decodeWord (m : DecodeMode) (w : Word) : Option Instr :=
  match m with
  | .doc => decodeDoc w
  | .canonical => decodeCanonical w

/-- What the decoder says of a run of bytes. -/
inductive Decoded where
  /-- An instruction, and the bytes after it. -/
  | instr (i : Instr) (rest : List Byte)
  /-- The word matches no instruction (INVALID, R82). -/
  | invalidOpcode (w : Word)
  /-- Fewer than two bytes: no whole instruction word (R70). -/
  | truncated
  deriving DecidableEq, Repr

/-- The instruction word of two consecutive bytes, big-endian (20_memory.md R53). -/
def wordOfBytes (hi lo : Byte) : Word := hi ++ lo

/-- The two bytes of a word as they stand in memory, the first at the lower address (20_memory.md R53). -/
def bytesOfWord (w : Word) : List Byte := [w.extractLsb 15 8, w.extractLsb 7 0]

/-- Decode the first instruction of a run of bytes: every instruction is two bytes (R70). -/
def decodeBytes (m : DecodeMode) : List Byte → Decoded
  | hi :: lo :: rest =>
    match decodeWord m (wordOfBytes hi lo) with
    | some i => .instr i rest
    | none => .invalidOpcode (wordOfBytes hi lo)
  | _ => .truncated

/-- The instruction of one row of the opcode table's numbering: one 16-bit word, the bits above `nbits` zero. -/
def decodeTableWord (nbits w : Nat) : Option Instr :=
  match decodeBytes .doc (bytesOfWord (BitVec.ofNat 16 (w % 2 ^ nbits))) with
  | .instr i _ => some i
  | .invalidOpcode _ => none
  | .truncated => none

/-! ### The opcode map (R80) -/

/-- The dispatch index of an instruction (R80). -/
def Instr.dispatchIndex : Instr → BitVec 6
  | .sys _ => 0
  | .cls => 1
  | .ret => 2
  | .jp _ => 3
  | .call _ => 4
  | .seXkk _ _ => 5
  | .sneXkk _ _ => 6
  | .seXy _ _ => 7
  | .ldXkk _ _ => 8
  | .addXkk _ _ => 9
  | .ldXy _ _ => 10
  | .orXy _ _ => 11
  | .andXy _ _ => 12
  | .xorXy _ _ => 13
  | .addXy _ _ => 14
  | .subXy _ _ => 15
  | .shrXy _ _ => 16
  | .subnXy _ _ => 17
  | .shlXy _ _ => 18
  | .sneXy _ _ => 19
  | .ldI _ => 20
  | .jpV0 _ => 21
  | .rnd _ _ => 22
  | .drw _ _ _ => 23
  | .skp _ => 24
  | .sknp _ => 25
  | .ldVxDt _ => 26
  | .ldVxK _ => 27
  | .ldDtVx _ => 28
  | .ldStVx _ => 29
  | .addIVx _ => 30
  | .ldFVx _ => 31
  | .ldBVx _ => 32
  | .ldMemVx _ => 33
  | .ldVxMem _ => 34

/-- The dispatcher's output for a word: the instruction's index, 63 for INVALID (R80). -/
def dispatchIndexOf (m : DecodeMode) (w : Word) : BitVec 6 :=
  match decodeWord m w with
  | some i => i.dispatchIndex
  | none => 63

/-! ### Encoder (R88) -/

/-- Format NNN: family and a 12-bit address (R71). -/
def wordNNN (family : BitVec 4) (nnn : Addr12) : Word :=
  BitVec.ofNat 16 (family.toNat * 0x1000 + nnn.toNat)

/-- Format XKK: family, x, an 8-bit immediate or function byte (R71). -/
def wordXKK (family : BitVec 4) (x : Reg) (kk : Byte) : Word :=
  BitVec.ofNat 16 (family.toNat * 0x1000 + x.val * 0x100 + kk.toNat)

/-- Formats XYN and XYF: family, x, y and a bottom nibble (R71). -/
def wordXYN (family : BitVec 4) (x y n : Fin 16) : Word :=
  BitVec.ofNat 16 (family.toNat * 0x1000 + x.val * 0x100 + y.val * 0x10 + n.val)

/-- The canonical spelling of an instruction, unused fields 0 (R88; the `encoding` of its opcode-table row). -/
def encode : Instr → Word
  | .sys nnn => wordNNN 0x0 nnn
  | .cls => 0x00E0
  | .ret => 0x00EE
  | .jp nnn => wordNNN 0x1 nnn
  | .call nnn => wordNNN 0x2 nnn
  | .seXkk x kk => wordXKK 0x3 x kk
  | .sneXkk x kk => wordXKK 0x4 x kk
  | .seXy x y => wordXYN 0x5 x y 0x0
  | .ldXkk x kk => wordXKK 0x6 x kk
  | .addXkk x kk => wordXKK 0x7 x kk
  | .ldXy x y => wordXYN 0x8 x y 0x0
  | .orXy x y => wordXYN 0x8 x y 0x1
  | .andXy x y => wordXYN 0x8 x y 0x2
  | .xorXy x y => wordXYN 0x8 x y 0x3
  | .addXy x y => wordXYN 0x8 x y 0x4
  | .subXy x y => wordXYN 0x8 x y 0x5
  | .shrXy x y => wordXYN 0x8 x y 0x6
  | .subnXy x y => wordXYN 0x8 x y 0x7
  | .shlXy x y => wordXYN 0x8 x y 0xE
  | .sneXy x y => wordXYN 0x9 x y 0x0
  | .ldI nnn => wordNNN 0xA nnn
  | .jpV0 nnn => wordNNN 0xB nnn
  | .rnd x kk => wordXKK 0xC x kk
  | .drw x y n => wordXYN 0xD x y n
  | .skp x => wordXKK 0xE x 0x9E
  | .sknp x => wordXKK 0xE x 0xA1
  | .ldVxDt x => wordXKK 0xF x 0x07
  | .ldVxK x => wordXKK 0xF x 0x0A
  | .ldDtVx x => wordXKK 0xF x 0x15
  | .ldStVx x => wordXKK 0xF x 0x18
  | .addIVx x => wordXKK 0xF x 0x1E
  | .ldFVx x => wordXKK 0xF x 0x29
  | .ldBVx x => wordXKK 0xF x 0x33
  | .ldMemVx x => wordXKK 0xF x 0x55
  | .ldVxMem x => wordXKK 0xF x 0x65

/-! ### The opcode table as data

The match and mask of every row of spec/opcode_table.json, written out from the table and not from the decoder, so that the
decoder can be held against it. -/

/-- One row: the dispatch index, and the pattern and mask of each mode. -/
structure OpcodeRow where
  idx : BitVec 6
  matchDoc : Word
  maskDoc : Word
  matchCanonical : Word
  maskCanonical : Word
  deriving DecidableEq, Repr

/-- A row whose pattern is the same in both modes. -/
def OpcodeRow.same (idx : BitVec 6) (pat mask : Word) : OpcodeRow := ⟨idx, pat, mask, pat, mask⟩

/-- The word matches the row under the mode. -/
def OpcodeRow.covers (m : DecodeMode) (r : OpcodeRow) (w : Word) : Bool :=
  match m with
  | .doc => w &&& r.maskDoc == r.matchDoc
  | .canonical => w &&& r.maskCanonical == r.matchCanonical

/-- Rows 1 to 9 of the table, CLS and RET first. -/
def opcodeRowsA : List OpcodeRow :=
  [⟨1, 0x00E0, 0xF0FF, 0x00E0, 0xFFFF⟩, ⟨2, 0x00EE, 0xF0FF, 0x00EE, 0xFFFF⟩, .same 3 0x1000 0xF000, .same 4 0x2000 0xF000,
   .same 5 0x3000 0xF000, .same 6 0x4000 0xF000, ⟨7, 0x5000, 0xF000, 0x5000, 0xF00F⟩, .same 8 0x6000 0xF000,
   .same 9 0x7000 0xF000]

/-- Rows 10 to 22. -/
def opcodeRowsB : List OpcodeRow :=
  [.same 10 0x8000 0xF00F, .same 11 0x8001 0xF00F, .same 12 0x8002 0xF00F, .same 13 0x8003 0xF00F, .same 14 0x8004 0xF00F,
   .same 15 0x8005 0xF00F, .same 16 0x8006 0xF00F, .same 17 0x8007 0xF00F, .same 18 0x800E 0xF00F,
   ⟨19, 0x9000, 0xF000, 0x9000, 0xF00F⟩, .same 20 0xA000 0xF000, .same 21 0xB000 0xF000, .same 22 0xC000 0xF000]

/-- Rows 23 to 34, and row 0 last: SYS is the catch-all of family 0 (the row's note). -/
def opcodeRowsC : List OpcodeRow :=
  [.same 23 0xD000 0xF000, ⟨24, 0xE00E, 0xF00F, 0xE09E, 0xF0FF⟩, ⟨25, 0xE001, 0xF00F, 0xE0A1, 0xF0FF⟩,
   .same 26 0xF007 0xF0FF, .same 27 0xF00A 0xF0FF, .same 28 0xF015 0xF0FF, .same 29 0xF018 0xF0FF, .same 30 0xF01E 0xF0FF,
   .same 31 0xF029 0xF0FF, .same 32 0xF033 0xF0FF, .same 33 0xF055 0xF0FF, .same 34 0xF065 0xF0FF, .same 0 0x0000 0xF000]

/-- The opcode table, first matching row wins (only SYS overlaps another row). -/
def opcodeTable : List OpcodeRow := opcodeRowsA ++ opcodeRowsB ++ opcodeRowsC

/-- The dispatch index the opcode table gives a word: that of the first row that covers it, 63 if none does. -/
def tableIndexOf (m : DecodeMode) (w : Word) : BitVec 6 :=
  match opcodeTable.find? (fun r => r.covers m w) with
  | some r => r.idx
  | none => 63

end Sys2Proof
end

