-- ==== Sys2Proof/Machine/State.lean ====
section
/-! DEFINITION. The state of the machine (spec/10_state.md R20 to R49), the host commands it takes, the requests it sends,
and the state after reset. -/

namespace Sys2Proof.Machine

/-- The run loop's state (R38). -/
inductive RunState where
  | stopped
  | running
  deriving DecidableEq, Repr

/-- The kinds a fault record holds (R39, 60_exceptions.md R200). -/
inductive FaultKind where
  | invalidOpcode
  | addressOverflow
  deriving DecidableEq, Repr

/-- The fault record (R39). `info` is the instruction word or the out-of-range address. -/
structure FaultRecord where
  kind : FaultKind
  pc : Word
  info : Word
  deriving DecidableEq, Repr

/-- A request the core sends to an agent outside it (60_exceptions.md R222, R223, R225 to R229). -/
inductive Request where
  /-- `Screen.clear()` (R225). -/
  | screenClear
  /-- `Screen.togglePixel(x, y)`, the coordinates unreduced (R226, 41_display.md R122). -/
  | togglePixel (x y : Nat)
  /-- `Keyboard.isKeyPressed(key)` with the whole byte of Vx (R227, 46_input.md R194). -/
  | isKeyPressed (key : Byte)
  /-- A key-down passed through to the Keyboard (R222). -/
  | keyDown (key : Reg)
  /-- A key-up passed through to the Keyboard (R223). -/
  | keyUp (key : Reg)
  /-- `Audio.play()` (R228). -/
  | audioPlay
  /-- `Audio.stop()` (R228). -/
  | audioStop
  /-- `RandomByte()` (R229). -/
  | randomByte
  deriving DecidableEq, Repr

/-- A host command (60_exceptions.md R221), or a tick of the scheduler (R215). -/
inductive Command where
  /-- `initialize(config)` (70_reset_and_hazards.md R242). -/
  | configure (request : ConfigRequest)
  /-- `run()` (R210). -/
  | run
  /-- `stop()` (R211). -/
  | stop
  /-- `halt()` (R212). -/
  | halt
  /-- `resume()` (R213). -/
  | resume
  /-- `reset()` (R214, R240). -/
  | reset
  /-- `loadToMemory(bytes)` (R243). -/
  | loadToMemory (bytes : List Byte)
  /-- `step()` (R216). -/
  | step
  /-- The periodic tick falls due (R215). -/
  | tick
  /-- `updateTimers()` (R219). -/
  | updateTimers
  /-- `keyDown(k)` (R222). -/
  | keyDown (k : Nat)
  /-- `keyUp(k)` (R223). -/
  | keyUp (k : Nat)
  /-- `ackRepaint()` (R224). -/
  | ackRepaint
  deriving DecidableEq, Repr

/-- Why a command is turned away with no effect. -/
inductive CommandError where
  /-- `loadToMemory` with more bytes than fit (R243); error code 2. -/
  | addressOverflow
  /-- `initialize` with an illegal configuration (R205); error code 3. -/
  | unsupportedConfiguration (param : ConfigParam)
  /-- `run()` while a fault is recorded (R210). -/
  | faultRecorded
  /-- `keyDown` or `keyUp` with a key outside 0..15 (R222, R223). -/
  | keyOutOfRange
  /-- A tick that falls due while Stopped: it does not occur (R215, R221; log 2). -/
  | notRunning
  deriving DecidableEq, Repr

/-- What a command returns to its caller (30_encoding.md R91, 60_exceptions.md R201, R215). -/
inductive Reply where
  /-- A command other than `step()` and the tick took effect. -/
  | done
  /-- The cycle completed one instruction. -/
  | executed
  /-- The key-wait is pending; nothing executed. -/
  | waiting
  /-- A fault is recorded, by this cycle or an earlier one. -/
  | faulted (f : FaultRecord)
  /-- A tick while paused ran no cycle. -/
  | skipped
  /-- The command was turned away; nothing changed. -/
  | refused (e : CommandError)
  deriving DecidableEq, Repr

/-- The machine's state: R46's elements, then the model's own fields for the environment (log 1, log 3, log 4, log 5, log 6). The
Screen's pixels, the Keyboard's key map and the Audio oscillator are no state of the core (R48; log 26). -/
structure State where
  /-- V0..VF (R20). -/
  v : Vector Byte 16
  /-- The index register I (R29). -/
  index : Word
  /-- The program counter (R24). -/
  pc : Word
  /-- The stack pointer, the next free slot (R31). -/
  sp : Nat
  /-- The stack slots S[0..STACK_CAP-1] (R30). -/
  stack : List Word
  /-- The delay timer (R33). -/
  dt : Byte
  /-- The sound timer (R33). -/
  st : Byte
  /-- Memory, as the entries that differ from its reset contents, addresses rising (20_memory.md R50; log 18). -/
  mem : List Host.Cell
  /-- quirk_shift (R34). -/
  quirkShift : Bool
  /-- quirk_loadStore (R34). -/
  quirkLoadStore : Bool
  /-- repaint (R35). -/
  repaint : Bool
  /-- The key-wait continuation: `some r` is await(r) (R36; log 16). -/
  kw : Option Reg
  /-- paused (R37). -/
  paused : Bool
  /-- run_state (R38). -/
  runState : RunState
  /-- The fault record (R39). -/
  fault : Option FaultRecord
  /-- sound_on (R40). -/
  soundOn : Bool
  /-- The configuration (R43; log 6). -/
  config : Configuration
  /-- Model's own: the host's commands yet to come, first one next (R221; log 1). -/
  commands : List Command
  /-- Model's own: what the last command returned (log 5). -/
  reply : Reply
  /-- Model's own: the requests sent so far, oldest first (log 4). -/
  requests : List Request
  /-- Model's own: the random source's answers yet to come (00_scope.md R13; log 3). -/
  randomBytes : List Byte
  /-- Model's own: the Keyboard's answers yet to come (R13; log 3). -/
  keyAnswers : List Bool
  /-- Model's own: the Screen's collision answers yet to come (R13; log 3). -/
  collisions : List Bool
  /-- Model's own: how many answers were taken, the index of the next free value (log 3). -/
  draws : Nat
  deriving DecidableEq, Repr

/-- Reasons the step function could stop without a next state. There are none: a fault of the core is an effect the spec
describes (60_exceptions.md R201), so the model takes it as a next state that holds the fault record (log 13). Safe. -/
inductive Fault where
  deriving DecidableEq, Repr

/-- Refusals of the model. -/
inductive Refusal where
  /-- Raised only by an arm of Dispatch whose instruction has no meaning yet. Safe: nothing is claimed of it. No arm raises
  it: every instruction has its meaning. -/
  | notModelled (mnemonic : String)
  deriving DecidableEq, Repr

/-- What an instruction or a command gives. -/
abbrev Result := Host.Outcome State Fault Refusal

/-- The state right after power-on: the reset state of the default configuration (R46, R49; 70_reset_and_hazards.md R240,
R244). The numeric values are the spec's decision D9 (log 9); the model's own fields are log 1, 3, 4 and 5. -/
def State.reset : State where
  v := Vector.replicate 16 0
  index := 0x000
  pc := 0x200
  sp := 0
  stack := List.replicate 16 0x000
  dt := 0
  st := 0
  mem := []
  quirkShift := false
  quirkLoadStore := false
  repaint := false
  kw := none
  paused := false
  runState := .stopped
  fault := none
  soundOn := false
  config := Config.default
  commands := []
  reply := .done
  requests := [.audioStop]
  randomBytes := []
  keyAnswers := []
  collisions := []
  draws := 0

end Sys2Proof.Machine
end

