-- ==== Sys2Proof/Machine/Ops.lean ====
section
/-! DEFINITION. The named operations over memory, registers, the stack, the environment and the fault record. Every access of
an instruction goes through one of them. -/

namespace Sys2Proof.Machine

/-! ### Memory (spec/20_memory.md) -/

/-- The first address outside memory (R50). -/
def memSize : Nat := 0x1000

/-- What an address that the list does not hold reads as: the reset contents, FONT from 0x000 and 0x00 elsewhere
(10_state.md R45, R46; D9, log 9). -/
def Memory.unlisted (font : List Byte) (a : Nat) : Byte := if a < 80 then font.getD a 0 else 0

/-- The byte at an address. -/
def Memory.read (font : List Byte) : List Host.Cell → Nat → Byte
  | [], a => Memory.unlisted font a
  | (k, b) :: rest, a => if k = a then b else Memory.read font rest a

/-- The list without an entry for the address. -/
def Memory.drop : List Host.Cell → Nat → List Host.Cell
  | [], _ => []
  | (k, b) :: rest, a => if k = a then rest else (k, b) :: Memory.drop rest a

/-- The list with the entry for the address set, in order. -/
def Memory.put : List Host.Cell → Nat → Byte → List Host.Cell
  | [], a, b => [(a, b)]
  | (k, c) :: rest, a, b =>
    if a < k then (a, b) :: (k, c) :: rest
    else if a = k then (a, b) :: rest
    else (k, c) :: Memory.put rest a b

/-- Store a byte, keeping the canonical form: the value an unlisted address reads as is not listed (log 18). -/
def Memory.write (font : List Byte) (m : List Host.Cell) (a : Nat) (b : Byte) : List Host.Cell :=
  if b = Memory.unlisted font a then Memory.drop m a else Memory.put m a b

/-- Store consecutive bytes from an address, in increasing order (R62). -/
def Memory.writeAll (font : List Byte) : List Host.Cell → Nat → List Byte → List Host.Cell
  | m, _, [] => m
  | m, a, b :: bs => Memory.writeAll font (Memory.write font m a b) (a + 1) bs

/-- The canonical form: addresses strictly rising, no entry equal to what the unlisted address reads as. -/
abbrev Memory.wf (font : List Byte) (m : List Host.Cell) : Prop :=
  (m.map Prod.fst).Pairwise (· < ·) ∧ ∀ c ∈ m, c.2 ≠ Memory.unlisted font c.1

/-- `MemRead(addr, 1)` (00_scope.md R15). -/
def State.readByte (s : State) (a : Nat) : Byte := Memory.read s.config.font s.mem a

/-- `MemRead` of `count` consecutive bytes. -/
def State.readBytes (s : State) (a count : Nat) : List Byte := (List.range count).map (fun k => s.readByte (a + k))

/-- `MemWrite` of consecutive bytes (00_scope.md R15, 20_memory.md R55). -/
def State.writeBytes (s : State) (a : Nat) (bs : List Byte) : State :=
  { s with mem := Memory.writeAll s.config.font s.mem a bs }

/-- The accesses to `count` bytes from I all lie in memory: what `check_range(count)` tests (R56). -/
def State.inRange (s : State) (count : Nat) : Bool := count == 0 || s.index.toNat + count - 1 ≤ 0xFFF

/-! ### Registers (10_state.md R20 to R29, 00_scope.md R15) -/

/-- `V[x]`. -/
def State.reg (s : State) (x : Reg) : Byte := s.v[x]

/-- `V[x] <- b`. -/
def State.setReg (s : State) (x : Reg) (b : Byte) : State := { s with v := s.v.set x.val b x.isLt }

/-- `V[0..x] <- bs`, the registers above Vx unchanged (44_memory_index.md R166). -/
def State.setRegsUpTo (s : State) (x : Reg) (bs : List Byte) : State :=
  { s with v := Vector.ofFn (fun j : Reg => if j ≤ x then bs.getD j.val 0 else s.v[j]) }

/-- The mask of `pc` and `I`: bits 15:12 are always 0 (R24, R29). -/
def maskAddr (a : Word) : Word := a &&& 0x0FFF

/-- `pc <- target` (R24). -/
def State.setPc (s : State) (target : Word) : State := { s with pc := maskAddr target }

/-- `adv(k)`: `pc <- (pc + k) & 0xFFF` (00_scope.md R15). -/
def State.adv (s : State) (k : Word) : State := { s with pc := maskAddr (s.pc + k) }

/-- The skip rule: `if c then adv(4) else adv(2)` (40_control_flow.md R100). -/
def State.skipIf (s : State) (c : Bool) : State := s.adv (if c then 4 else 2)

/-- `I <- v` (R29). -/
def State.setIndex (s : State) (a : Word) : State := { s with index := maskAddr a }

/-- `dt <- b` (R33). -/
def State.setDt (s : State) (b : Byte) : State := { s with dt := b }

/-- `st <- b` (R33). -/
def State.setSt (s : State) (b : Byte) : State := { s with st := b }

/-- `repaint <- b` (R35). -/
def State.setRepaint (s : State) (b : Bool) : State := { s with repaint := b }

/-- `kw <- k` (R36). -/
def State.setKw (s : State) (k : Option Reg) : State := { s with kw := k }

/-- `paused <- b` (R37). -/
def State.setPaused (s : State) (b : Bool) : State := { s with paused := b }

/-- `run_state <- r` (R38). -/
def State.setRunState (s : State) (r : RunState) : State := { s with runState := r }

/-! ### The return-address ring (R30 to R32) -/

/-- `(sp + 1) & (STACK_CAP - 1)` (R31). -/
def State.spUp (s : State) : Nat := (s.sp + 1) &&& (s.config.stackCap - 1)

/-- `(sp - 1) & (STACK_CAP - 1)` (R31): the subtraction is taken modulo STACK_CAP, which the mask of a power of two does. -/
def State.spDown (s : State) : Nat := (s.sp + s.config.stackCap - 1) &&& (s.config.stackCap - 1)

/-- `S[j]` (00_scope.md R15; an index past the slots, which no reachable state has, reads 0: log 17). -/
def State.slot (s : State) (j : Nat) : Word := s.stack.getD j 0

/-- `push(a)` (R31). -/
def State.push (s : State) (a : Word) : State := { s with stack := s.stack.set s.sp a, sp := s.spUp }

/-- `pop()`'s move of `sp`; the value popped is the slot then pointed at, and the slot keeps it (R31, R32, R107). -/
def State.pop (s : State) : State := { s with sp := s.spDown }

/-! ### Requests and answers (00_scope.md R13; 60_exceptions.md R225 to R229) -/

/-- Send requests, in order (log 4). -/
def State.send (s : State) (rs : List Request) : State := { s with requests := s.requests ++ rs }

/-- The random source's next answer: the queued one, or a free value (log 3). -/
def State.randomAnswer (s : State) : Byte := s.randomBytes.head?.getD (Config.freeRandomByte s.draws)

/-- Take one random answer. -/
def State.takeRandom (s : State) : State := { s with randomBytes := s.randomBytes.tail, draws := s.draws + 1 }

/-- The Keyboard's next answer: the queued one, or a free value (log 3). -/
def State.keyAnswer (s : State) : Bool := s.keyAnswers.head?.getD (Config.freeKeyAnswer s.draws)

/-- Take one Keyboard answer. -/
def State.takeKey (s : State) : State := { s with keyAnswers := s.keyAnswers.tail, draws := s.draws + 1 }

/-- The Screen's answer to the `k`-th of the toggles sent from here: the queued one, or a free value (log 3). -/
def State.collisionAnswer (s : State) (k : Nat) : Bool := (s.collisions[k]?).getD (Config.freeCollision (s.draws + k))

/-- Some of `count` toggles collided: the OR of their answers (41_display.md R121, R123). -/
def State.anyCollision (s : State) (count : Nat) : Bool := (List.range count).any s.collisionAnswer

/-- Take the Screen's answers to `count` toggles. -/
def State.takeCollisions (s : State) (count : Nat) : State :=
  { s with collisions := s.collisions.drop count, draws := s.draws + count }

/-! ### Faults and reset (60_exceptions.md R200, R201; 70_reset_and_hazards.md R240) -/

/-- The code of a recorded fault's kind (R200). -/
def FaultKind.code : FaultKind → Nat
  | .invalidOpcode => 1
  | .addressOverflow => 2

/-- The code of an error returned to a command's caller, for the kinds R200 numbers. -/
def CommandError.code : CommandError → Option Nat
  | .addressOverflow => some 2
  | .unsupportedConfiguration _ => some 3
  | .faultRecorded => none
  | .keyOutOfRange => none
  | .notRunning => none

/-- `raise K(info)`: TAKING A FAULT. Record it with the pc of the faulting instruction, stop the run loop, change nothing
else (R201; D7, log 13). There is no handler and no return from one; only reset leaves the faulted state (R209). -/
def State.raise (s : State) (kind : FaultKind) (info : Word) : State :=
  { s with fault := some { kind := kind, pc := s.pc, info := info }, runState := .stopped }

/-- `raise AddressOverflow(0x1000)`, the smallest address outside memory (R54, R56). -/
def State.raiseAddressOverflow (s : State) : State := s.raise .addressOverflow 0x1000

/-- `reset()`: the one way out of a faulted state (R240, R241). The configuration stays, `Audio.stop()` is sent, and the
environment's own fields go on (log 4). -/
def State.performReset (s : State) : State :=
  { s with
    v := Vector.replicate 16 0
    index := 0x000
    pc := 0x200
    sp := 0
    stack := List.replicate s.config.stackCap 0x000
    dt := 0
    st := 0
    mem := []
    quirkShift := s.config.quirkShiftDefault
    quirkLoadStore := s.config.quirkLoadStoreDefault
    repaint := false
    kw := none
    paused := false
    runState := .stopped
    fault := none
    soundOn := false
    requests := s.requests ++ [.audioStop] }

/-- The commands yet to come (log 1). -/
def State.setCommands (s : State) (cs : List Command) : State := { s with commands := cs }

/-- What a command returns to its caller (log 5). -/
def State.setReply (s : State) (r : Reply) : State := { s with reply := r }

end Sys2Proof.Machine
end

