-- ==== Sys2Proof/Machine/Flags.lean ====
section
/-! DEFINITION. The flag results that go to VF (spec/10_state.md R21, R42; 42_alu.md R140). -/

namespace Sys2Proof.Machine

/-- A flag as VF holds it: 1 or 0. -/
def flagByte (c : Bool) : Byte := if c then 1 else 0

/-- Carry of ADD Vx,Vy: the true sum exceeds 255 (42_alu.md R135). -/
def carryOut (a b : Byte) : Bool := a.toNat + b.toNat > 255

/-- Not-borrow of `a - b`: a ≥ b (R136, R138). -/
def notBorrow (a b : Byte) : Bool := a.toNat ≥ b.toNat

/-- The bit SHR shifts out: bit 0 (R137). -/
def shiftedOutRight (a : Byte) : Bool := a.getLsbD 0

/-- The bit SHL shifts out: bit 7 (R139). -/
def shiftedOutLeft (a : Byte) : Bool := a.getLsbD 7

/-- Write a result to Vx and then the flag to VF, so that with x = F the flag stays (10_state.md R42; D3, log 14). -/
def State.setRegFlag (s : State) (x : Reg) (b : Byte) (c : Bool) : State := (s.setReg x b).setReg vF (flagByte c)

end Sys2Proof.Machine
end

