-- ==== Sys2Proof/Machine/Operands.lean ====
section
/-! DEFINITION. The operand forms of the instructions: immediates, the shift source, effective addresses, BCD digits and
sprite pixels (spec/30_encoding.md R72 to R74, 44_memory_index.md R160). -/

namespace Sys2Proof.Machine

/-- `nnn`, zero-extended to an address (R73). -/
def addrOfNNN (nnn : Addr12) : Word := nnn.setWidth 16

/-- A byte zero-extended to 16 bits, for a sum with `nnn` or `I` (R73). -/
def wordOfByte (b : Byte) : Word := b.setWidth 16

/-- The source register of SHR and SHL: Vy, or Vx under quirk `shift` (42_alu.md R137, R139). -/
def State.shiftSource (s : State) (x y : Reg) : Byte := if s.quirkShift then s.reg x else s.reg y

/-- The glyph address of a byte: five times it (44_memory_index.md R163). -/
def glyphAddr (b : Byte) : Word := wordOfByte b * 5

/-- The three BCD digit bytes, hundreds first (44_memory_index.md R164). -/
def bcdDigits (b : Byte) : List Byte := [b / 100, (b / 10) % 10, b % 10]

/-- `V0..Vx`, the registers a block store moves (44_memory_index.md R165). -/
def State.regsUpTo (s : State) (x : Reg) : List Byte := s.v.toList.take (x.val + 1)

/-- `I` after a block transfer of `V0..Vx`: advanced by x+1, or unchanged under quirk `loadStore` (R165, R166). -/
def indexAfterBlock (keep : Bool) (i : Word) (x : Reg) : Word :=
  if keep then i else maskAddr (i + BitVec.ofNat 16 (x.val + 1))

/-- The update of `I` that ends a block transfer. -/
def State.advanceIndex (s : State) (x : Reg) : State := { s with index := indexAfterBlock s.quirkLoadStore s.index x }

/-- The pixels one sprite byte toggles, columns left to right, MSB first (41_display.md R121, R122). -/
def rowPixels (cx cy : Nat) (row : Byte) : List (Nat × Nat) :=
  (List.range 8).filterMap (fun c => if row.getLsbD (7 - c) then some (cx + c, cy) else none)

/-- The pixels a sprite toggles, rows top to bottom, the coordinates unreduced (R121, R122; D19, log 22). -/
def spritePixels (cx : Nat) : Nat → List Byte → List (Nat × Nat)
  | _, [] => []
  | cy, row :: rows => rowPixels cx cy row ++ spritePixels cx (cy + 1) rows

/-- The pixels DRW Vx,Vy,n toggles from this state, in the order of the requests. -/
def State.drawPixels (s : State) (x y : Reg) (n : Nat) : List (Nat × Nat) :=
  spritePixels (s.reg x).toNat (s.reg y).toNat (s.readBytes s.index.toNat n)

end Sys2Proof.Machine
end

