-- ==== Sys2Proof/Machine/Alu.lean ====
section
/-! DEFINITION. Register-register arithmetic and logic (spec/42_alu.md). Every source is read from the state before the
instruction (10_state.md R41; D2, log 14). -/

namespace Sys2Proof.Machine

/-- LD Vx,Vy (R131). -/
def execLdXy (x y : Reg) (s : State) : Result := .next ((s.setReg x (s.reg y)).adv 2)

/-- OR Vx,Vy: no flag (R132). -/
def execOrXy (x y : Reg) (s : State) : Result := .next ((s.setReg x (s.reg x ||| s.reg y)).adv 2)

/-- AND Vx,Vy: no flag (R133). -/
def execAndXy (x y : Reg) (s : State) : Result := .next ((s.setReg x (s.reg x &&& s.reg y)).adv 2)

/-- XOR Vx,Vy: no flag (R134). -/
def execXorXy (x y : Reg) (s : State) : Result := .next ((s.setReg x (s.reg x ^^^ s.reg y)).adv 2)

/-- ADD Vx,Vy: VF = carry (R135). -/
def execAddXy (x y : Reg) (s : State) : Result :=
  .next ((s.setRegFlag x (s.reg x + s.reg y) (carryOut (s.reg x) (s.reg y))).adv 2)

/-- SUB Vx,Vy: VF = not-borrow of Vx - Vy (R136). -/
def execSubXy (x y : Reg) (s : State) : Result :=
  .next ((s.setRegFlag x (s.reg x - s.reg y) (notBorrow (s.reg x) (s.reg y))).adv 2)

/-- SHR Vx,Vy: VF = the bit shifted out (R137). -/
def execShrXy (x y : Reg) (s : State) : Result :=
  .next ((s.setRegFlag x (s.shiftSource x y >>> 1) (shiftedOutRight (s.shiftSource x y))).adv 2)

/-- SUBN Vx,Vy: VF = not-borrow of Vy - Vx (R138). -/
def execSubnXy (x y : Reg) (s : State) : Result :=
  .next ((s.setRegFlag x (s.reg y - s.reg x) (notBorrow (s.reg y) (s.reg x))).adv 2)

/-- SHL Vx,Vy: VF = the bit shifted out (R139). -/
def execShlXy (x y : Reg) (s : State) : Result :=
  .next ((s.setRegFlag x (s.shiftSource x y <<< 1) (shiftedOutLeft (s.shiftSource x y))).adv 2)

end Sys2Proof.Machine
end

