-- ==== Sys2Proof/Machine/ControlFlow.lean ====
section
/-! DEFINITION. Control flow instructions (spec/40_control_flow.md). -/

namespace Sys2Proof.Machine

/-- SYS nnn: a no-op that advances pc; nnn is ignored (R102; D34, log 24). -/
def execSys (_nnn : Addr12) (s : State) : Result := .next (s.adv 2)

/-- JP nnn (R103). -/
def execJp (nnn : Addr12) (s : State) : Result := .next (s.setPc (addrOfNNN nnn))

/-- JP V0,nnn: `(nnn + V0) & 0xFFF` (R104). -/
def execJpV0 (nnn : Addr12) (s : State) : Result := .next (s.setPc (addrOfNNN nnn + wordOfByte (s.reg 0)))

/-- CALL nnn: push the call-site pc, not the call-site + 2 (R105, R106). -/
def execCall (nnn : Addr12) (s : State) : Result := .next ((s.push s.pc).setPc (addrOfNNN nnn))

/-- RET: decrement sp, then pc is the popped slot + 2 (R107). -/
def execRet (s : State) : Result := .next (s.pop.setPc (s.slot s.spDown + 2))

/-- SE Vx,Vy (R108). -/
def execSeXy (x y : Reg) (s : State) : Result := .next (s.skipIf (s.reg x == s.reg y))

/-- SNE Vx,Vy (R109). -/
def execSneXy (x y : Reg) (s : State) : Result := .next (s.skipIf (s.reg x != s.reg y))

end Sys2Proof.Machine
end

