-- ==== Sys2Proof/Machine/Display.lean ====
section
/-! DEFINITION. Display instructions (spec/41_display.md). -/

namespace Sys2Proof.Machine

/-- CLS: `Screen.clear()`, and the display contents changed (R120). -/
def execCls (s : State) : Result := .next (((s.send [.screenClear]).setRepaint true).adv 2)

/-- DRW once its range check passed: one toggle per set sprite bit, VF the OR of the answers (R121 to R123). -/
def State.draw (s : State) (x y : Reg) (n : Nat) : State :=
  let pixels := s.drawPixels x y n
  let sent := (s.send (pixels.map (fun p => .togglePixel p.1 p.2))).takeCollisions pixels.length
  ((sent.setReg vF (flagByte (s.anyCollision pixels.length))).setRepaint true).adv 2

/-- DRW Vx,Vy,n (R121). -/
def execDrw (x y : Reg) (n : Fin 16) (s : State) : Result :=
  if s.inRange n.val then .next (s.draw x y n.val) else .next s.raiseAddressOverflow

end Sys2Proof.Machine
end

