-- ==== Sys2Proof/Machine/Immediate.lean ====
section
/-! DEFINITION. Immediate operations (spec/43_immediate.md). -/

namespace Sys2Proof.Machine

/-- LD Vx,kk (R150). -/
def execLdXkk (x : Reg) (kk : Byte) (s : State) : Result := .next ((s.setReg x kk).adv 2)

/-- ADD Vx,kk: truncated, no flag (R151). -/
def execAddXkk (x : Reg) (kk : Byte) (s : State) : Result := .next ((s.setReg x (s.reg x + kk)).adv 2)

/-- SE Vx,kk (R152). -/
def execSeXkk (x : Reg) (kk : Byte) (s : State) : Result := .next (s.skipIf (s.reg x == kk))

/-- SNE Vx,kk (R153). -/
def execSneXkk (x : Reg) (kk : Byte) (s : State) : Result := .next (s.skipIf (s.reg x != kk))

/-- RND Vx,kk: one fresh random byte, masked (R154, 60_exceptions.md R229). -/
def execRnd (x : Reg) (kk : Byte) (s : State) : Result :=
  .next ((((s.send [.randomByte]).takeRandom).setReg x (s.randomAnswer &&& kk)).adv 2)

end Sys2Proof.Machine
end

