-- ==== Sys2Proof/Machine/Input.lean ====
section
/-! DEFINITION. Input instructions and the key-wait resumption (spec/46_input.md). -/

namespace Sys2Proof.Machine

/-- LD Vx,K: enter the key-wait; pc and Vx stay until the resumption (R190; D38, log 16). -/
def execLdVxK (x : Reg) (s : State) : Result := .next (s.setKw (some x))

/-- SKP Vx: skip if the Keyboard answers that key Vx is pressed (R192, R194; D18, log 23). -/
def execSkp (x : Reg) (s : State) : Result :=
  .next (((s.send [.isKeyPressed (s.reg x)]).takeKey).skipIf s.keyAnswer)

/-- SKNP Vx: skip if the Keyboard answers that key Vx is not pressed (R193, R194; D18, log 23). -/
def execSknp (x : Reg) (s : State) : Result :=
  .next (((s.send [.isKeyPressed (s.reg x)]).takeKey).skipIf (!s.keyAnswer))

/-- The resumption by a key-down of key `k`: one atomic step, consumed once; nothing when no wait is pending (R191, R222). -/
def State.resumeKeyWait (s : State) (k : Reg) : State :=
  match s.kw with
  | some r => ((s.setReg r (BitVec.ofNat 8 k.val)).adv 2).setKw none
  | none => s

end Sys2Proof.Machine
end

