-- ==== Sys2Proof/Machine/MemoryIndex.lean ====
section
/-! DEFINITION. Memory and index instructions (spec/44_memory_index.md). -/

namespace Sys2Proof.Machine

/-- LD I,nnn (R161). -/
def execLdI (nnn : Addr12) (s : State) : Result := .next ((s.setIndex (addrOfNNN nnn)).adv 2)

/-- ADD I,Vx: no flag (R162). -/
def execAddIVx (x : Reg) (s : State) : Result := .next ((s.setIndex (s.index + wordOfByte (s.reg x))).adv 2)

/-- LD F,Vx: five times Vx, not masked to a nibble (R163; D41, log 24). -/
def execLdFVx (x : Reg) (s : State) : Result := .next ((s.setIndex (glyphAddr (s.reg x))).adv 2)

/-- LD B,Vx: three digit bytes at I, I unchanged (R164; D40, log 24). -/
def execLdBVx (x : Reg) (s : State) : Result :=
  if s.inRange 3 then .next ((s.writeBytes s.index.toNat (bcdDigits (s.reg x))).adv 2) else .next s.raiseAddressOverflow

/-- LD [I],Vx: store V0..Vx (R165). -/
def execLdMemVx (x : Reg) (s : State) : Result :=
  if s.inRange (x.val + 1) then .next (((s.writeBytes s.index.toNat (s.regsUpTo x)).advanceIndex x).adv 2)
  else .next s.raiseAddressOverflow

/-- LD Vx,[I]: load V0..Vx, every byte read before any register is written (R166). -/
def execLdVxMem (x : Reg) (s : State) : Result :=
  if s.inRange (x.val + 1) then
    .next (((s.setRegsUpTo x (s.readBytes s.index.toNat (x.val + 1))).advanceIndex x).adv 2)
  else .next s.raiseAddressOverflow

end Sys2Proof.Machine
end

