-- ==== Sys2Proof/Machine/Timers.lean ====
section
/-! DEFINITION. Timer instructions (spec/45_timers.md) and the timer update (60_exceptions.md R217, R218). -/

namespace Sys2Proof.Machine

/-- LD Vx,DT (R180). -/
def execLdVxDt (x : Reg) (s : State) : Result := .next ((s.setReg x s.dt).adv 2)

/-- LD DT,Vx (R181). -/
def execLdDtVx (x : Reg) (s : State) : Result := .next ((s.setDt (s.reg x)).adv 2)

/-- LD ST,Vx: Audio hears of it at the next timer update only (R182). -/
def execLdStVx (x : Reg) (s : State) : Result := .next ((s.setSt (s.reg x)).adv 2)

/-- `dec(v)`: one decrement of a timer under TIMER_AT_ZERO (R217). -/
def decTimer (m : TimerAtZero) (b : Byte) : Byte :=
  match m with
  | .clamp => if b.toNat > 0 then b - 1 else 0
  | .wrap => b - 1

/-- What the sound drive asks of Audio: play while st > 0, else stop (R218; D13, log 15). -/
def soundRequest (b : Byte) : Request := if b.toNat > 0 then .audioPlay else .audioStop

/-- `sound_drive()`, tested before the decrement (R218). -/
def State.soundDrive (s : State) : State := { s.send [soundRequest s.st] with soundOn := decide (s.st.toNat > 0) }

/-- `timer_update()`: the sound drive, then both decrements (R217). -/
def State.timerUpdate (s : State) : State :=
  { s.soundDrive with dt := decTimer s.config.timerAtZero s.dt, st := decTimer s.config.timerAtZero s.st }

end Sys2Proof.Machine
end

