-- ==== Sys2Proof/Machine/Dispatch.lean ====
section
/-! DEFINITION. One arm per instruction: the handler its dispatch index selects (spec/30_encoding.md R80, R90; log 21). -/

namespace Sys2Proof.Machine

def exec (i : Instr) (s : State) : Host.Outcome State Fault Refusal :=
  match i with
  | .sys nnn => Sys2Proof.Machine.execSys nnn s
  | .cls => Sys2Proof.Machine.execCls s
  | .ret => Sys2Proof.Machine.execRet s
  | .jp nnn => Sys2Proof.Machine.execJp nnn s
  | .call nnn => Sys2Proof.Machine.execCall nnn s
  | .seXkk x kk => Sys2Proof.Machine.execSeXkk x kk s
  | .sneXkk x kk => Sys2Proof.Machine.execSneXkk x kk s
  | .seXy x y => Sys2Proof.Machine.execSeXy x y s
  | .ldXkk x kk => Sys2Proof.Machine.execLdXkk x kk s
  | .addXkk x kk => Sys2Proof.Machine.execAddXkk x kk s
  | .ldXy x y => Sys2Proof.Machine.execLdXy x y s
  | .orXy x y => Sys2Proof.Machine.execOrXy x y s
  | .andXy x y => Sys2Proof.Machine.execAndXy x y s
  | .xorXy x y => Sys2Proof.Machine.execXorXy x y s
  | .addXy x y => Sys2Proof.Machine.execAddXy x y s
  | .subXy x y => Sys2Proof.Machine.execSubXy x y s
  | .shrXy x y => Sys2Proof.Machine.execShrXy x y s
  | .subnXy x y => Sys2Proof.Machine.execSubnXy x y s
  | .shlXy x y => Sys2Proof.Machine.execShlXy x y s
  | .sneXy x y => Sys2Proof.Machine.execSneXy x y s
  | .ldI nnn => Sys2Proof.Machine.execLdI nnn s
  | .jpV0 nnn => Sys2Proof.Machine.execJpV0 nnn s
  | .rnd x kk => Sys2Proof.Machine.execRnd x kk s
  | .drw x y n => Sys2Proof.Machine.execDrw x y n s
  | .skp x => Sys2Proof.Machine.execSkp x s
  | .sknp x => Sys2Proof.Machine.execSknp x s
  | .ldVxDt x => Sys2Proof.Machine.execLdVxDt x s
  | .ldVxK x => Sys2Proof.Machine.execLdVxK x s
  | .ldDtVx x => Sys2Proof.Machine.execLdDtVx x s
  | .ldStVx x => Sys2Proof.Machine.execLdStVx x s
  | .addIVx x => Sys2Proof.Machine.execAddIVx x s
  | .ldFVx x => Sys2Proof.Machine.execLdFVx x s
  | .ldBVx x => Sys2Proof.Machine.execLdBVx x s
  | .ldMemVx x => Sys2Proof.Machine.execLdMemVx x s
  | .ldVxMem x => Sys2Proof.Machine.execLdVxMem x s

end Sys2Proof.Machine
end

