-- ==== Sys2Proof/Machine/HostCommands.lean ====
section
/-! DEFINITION. The host commands that run no cycle (spec/60_exceptions.md R210 to R214, R219, R221 to R224;
70_reset_and_hazards.md R240 to R243; log 25). Each answers a state whose `reply` is what its caller receives. -/

namespace Sys2Proof.Machine

/-- A command turned away: nothing but the reply changes. -/
def State.refuse (s : State) (e : CommandError) : State := s.setReply (.refused e)

/-- STACK_CAP is 1, 2, 4, ... (R205; D25). -/
def isPowerOfTwo (n : Nat) : Bool := 2 ^ n.log2 == n

/-- The legal configuration a request asks for, or the parameter that is illegal, the first in the order of R11 (R205; log 7). -/
def checkConfig (r : ConfigRequest) : Configuration ⊕ ConfigParam :=
  if !isPowerOfTwo r.stackCap then .inr .stackCap
  else if r.font.length ≠ 80 then .inr .font
  else match r.timerAtZero, r.decodeMode with
    | none, _ => .inr .timerAtZero
    | some _, none => .inr .decodeMode
    | some t, some d =>
      .inl { stackCap := r.stackCap, quirkShiftDefault := r.quirkShiftDefault,
             quirkLoadStoreDefault := r.quirkLoadStoreDefault, font := r.font, timerAtZero := t, decodeMode := d }

/-- `initialize(config)`: store a legal configuration and reset; turn an illegal one away (R205, R242). -/
def State.hostConfigure (s : State) (r : ConfigRequest) : State :=
  match checkConfig r with
  | .inl c => ({ s with config := c }.performReset).setReply .done
  | .inr p => s.refuse (.unsupportedConfiguration p)

/-- `run()` (R210). -/
def State.hostRun (s : State) : State :=
  match s.fault with
  | some _ => s.refuse .faultRecorded
  | none => (s.setRunState .running).setReply .done

/-- `stop()` (R211). -/
def State.hostStop (s : State) : State := (s.setRunState .stopped).setReply .done

/-- `halt()` (R212). -/
def State.hostHalt (s : State) : State := (s.setPaused true).setReply .done

/-- `resume()` (R213). -/
def State.hostResume (s : State) : State := (s.setPaused false).setReply .done

/-- `reset()` (R214, R240). -/
def State.hostReset (s : State) : State := s.performReset.setReply .done

/-- `loadToMemory(bytes)`: at most 3584 bytes, from 0x200 (R243). -/
def State.hostLoad (s : State) (bs : List Byte) : State :=
  if bs.length > 3584 then s.refuse .addressOverflow
  else ((s.writeBytes 0x200 bs).setPc 0x200).setReply .done

/-- `updateTimers()` (R219). -/
def State.hostUpdateTimers (s : State) : State := s.timerUpdate.setReply .done

/-- `keyDown(k)`: pass the press on, and resume a pending key-wait (R222). -/
def State.hostKeyDown (s : State) (k : Nat) : State :=
  if h : k < 16 then ((s.send [.keyDown ⟨k, h⟩]).resumeKeyWait ⟨k, h⟩).setReply .done else s.refuse .keyOutOfRange

/-- `keyUp(k)`: pass the release on (R223). -/
def State.hostKeyUp (s : State) (k : Nat) : State :=
  if h : k < 16 then (s.send [.keyUp ⟨k, h⟩]).setReply .done else s.refuse .keyOutOfRange

/-- `ackRepaint()` (R224). -/
def State.hostAckRepaint (s : State) : State := (s.setRepaint false).setReply .done

end Sys2Proof.Machine
end

