-- ==== Sys2Proof/Machine/Engine.lean ====
section
/-! DEFINITION. The fetch-decode-execute cycle (spec/30_encoding.md R90, R91), the tick and the step
(60_exceptions.md R215, R216), and the obeying of a host command (R221). -/

namespace Sys2Proof.Machine

/-- `Fetch16(pc)`, big-endian (20_memory.md R53). -/
def State.fetchWord (s : State) : Word := wordOfBytes (s.readByte s.pc.toNat) (s.readByte (s.pc.toNat + 1))

/-- Apply a function to the next state of a result. -/
def mapNext (f : State → State) : Result → Result
  | .next t => .next (f t)
  | .fault r => .fault r
  | .refused r => .refused r

/-- The outcome the caller of a cycle receives once it ran: Faulted if it raised a fault, else Executed (R91). -/
def State.reportCycle (s : State) : State :=
  match s.fault with
  | some f => s.setReply (.faulted f)
  | none => s.setReply .executed

/-- `cycle()`: at most one instruction, its checks in the order of 60_exceptions.md R207 (R90). -/
def cycle (s : State) : Result :=
  match s.fault, s.kw with
  | some f, _ => .next (s.setReply (.faulted f))
  | none, some _ => .next (s.setReply .waiting)
  | none, none =>
    if s.pc.toNat > 0xFFE then .next s.raiseAddressOverflow.reportCycle
    else
      match decodeWord s.config.decodeMode s.fetchWord with
      | some i => mapNext State.reportCycle (exec i s)
      | none => .next (s.raise .invalidOpcode s.fetchWord).reportCycle

/-- The rest of a tick after its cycle: the timer update, left out when this cycle raised a fault (R215; D27). -/
def State.finishTick (before after : State) : State :=
  if before.fault.isNone && after.fault.isSome then after else after.timerUpdate

/-- The periodic tick: a cycle unless paused, then the timer update (R215). While Stopped it does not occur (R221; log 2). -/
def tick (s : State) : Result :=
  match s.runState with
  | .stopped => .next (s.refuse .notRunning)
  | .running =>
    if s.paused then .next (s.setReply .skipped).timerUpdate
    else mapNext s.finishTick (cycle s)

/-- Obey one command (R221). -/
def obey (c : Command) (s : State) : Result :=
  match c with
  | .configure r => .next (s.hostConfigure r)
  | .run => .next s.hostRun
  | .stop => .next s.hostStop
  | .halt => .next s.hostHalt
  | .resume => .next s.hostResume
  | .reset => .next s.hostReset
  | .loadToMemory bs => .next (s.hostLoad bs)
  | .step => cycle s
  | .tick => tick s
  | .updateTimers => .next s.hostUpdateTimers
  | .keyDown k => .next (s.hostKeyDown k)
  | .keyUp k => .next (s.hostKeyUp k)
  | .ackRepaint => .next s.hostAckRepaint

/-- One transition: the next queued command, or with none queued the host's `step()` (log 1). -/
def transition (s : State) : Result :=
  match s.commands with
  | [] => cycle s
  | c :: rest => obey c (s.setCommands rest)

/-- Where the next instruction is fetched once `withFetchWord` prepared the state: pc, or the program start when pc is at an
address no word can be fetched from (log 20). -/
def State.fetchAddr (s : State) : Word := if s.pc.toNat > 0xFFE then 0x200 else s.pc

/-- The state with a word at its fetch address and nothing that would keep the next transition from running it: no command
queued, no fault recorded, no key-wait pending (log 20). -/
def State.placeWord (s : State) (w : Word) : State :=
  { s.writeBytes s.fetchAddr.toNat (bytesOfWord w) with pc := s.fetchAddr, commands := [], fault := none, kw := none }

end Sys2Proof.Machine
end

