-- ==== Sys2Proof/Machine/Step.lean ====
section
/-! DEFINITION. The step of the machine and the placing of a word where it fetches. -/

namespace Sys2Proof.Machine

/-- One step: the next host command, or with none queued one `step()`, that is, one cycle (spec/60_exceptions.md R216,
R221; log 1). -/
def step (s : State) : Host.Outcome State Fault Refusal := transition s

/-- The state with an instruction of `nbits` bits, numbered as the opcode table numbers them, where the next step fetches
(log 20). -/
def State.withFetchWord (s : State) (nbits w : Nat) : State := s.placeWord (BitVec.ofNat 16 (w % 2 ^ nbits))

end Sys2Proof.Machine
end

