-- ==== Sys2Proof/Safety.lean ====
section
/-! DEFINITION. What claims are stated in: the machine's invariant, the kinds of state of a run, and what an instruction
leaves unchanged (spec/10_state.md R44, 60_exceptions.md R235). -/

namespace Sys2Proof.Machine

/-- A legal configuration: STACK_CAP a power of two, FONT eighty bytes (60_exceptions.md R205). -/
abbrev LegalConfig (c : Configuration) : Prop := isPowerOfTwo c.stackCap = true ∧ c.font.length = 80

/-- The invariant of every reachable state (10_state.md R44). Values of eight bits are so by their type. -/
structure State.Inv (s : State) : Prop where
  /-- pc lies in 0x000..0xFFF (R24). -/
  pcRange : s.pc.toNat < 0x1000
  /-- I lies in 0x000..0xFFF (R29). -/
  indexRange : s.index.toNat < 0x1000
  /-- The configuration is a legal one (R43, R205). -/
  configLegal : LegalConfig s.config
  /-- The stack has STACK_CAP slots (R30). -/
  stackLength : s.stack.length = s.config.stackCap
  /-- sp is the number of a slot (R31). -/
  spRange : s.sp < s.config.stackCap
  /-- Every slot holds an address of memory (R30). -/
  slotRange : ∀ a ∈ s.stack, a.toNat < 0x1000
  /-- Memory is in its canonical form. -/
  memCanonical : Memory.wf s.config.font s.mem
  /-- No entry lies outside the address space (20_memory.md R50). -/
  memRange : ∀ c ∈ s.mem, c.1 < memSize
  /-- A faulted state is Stopped and waits for no key (R44). -/
  faultStops : s.fault ≠ none → s.runState = .stopped ∧ s.kw = none

/-- The source's flag `halted` (R36). -/
def State.halted (s : State) : Bool := s.kw.isSome

/-- The source's engine state "Halted" (R38, conflict C3). -/
def State.engineHalted (s : State) : Bool := s.runState == .running && (s.paused || s.halted)

/-- The four kinds of state of a run (60_exceptions.md R235). -/
inductive RunKind where
  | faulted
  | waiting
  | stopped
  | running
  deriving DecidableEq, Repr

/-- The kind of a state (R235). Where R235's kinds overlap (a faulted state is Stopped, and a key-wait lasts through `stop()`) it
names no precedence; that the fault is asked first, then the key-wait, then Stopped is the model's DESIGN CHOICE (log 28). -/
def State.kind (s : State) : RunKind :=
  if s.fault.isSome then .faulted
  else if s.halted then .waiting
  else if s.runState == .stopped then .stopped
  else .running

/-- The next instruction can be fetched and decoded: no fault, no key-wait, a whole word at pc that is an instruction
(30_encoding.md R90). -/
def State.Ready (s : State) (i : Instr) : Prop :=
  s.fault = none ∧ s.kw = none ∧ s.pc.toNat ≤ 0xFFE ∧ decodeWord s.config.decodeMode s.fetchWord = some i

/-! ### Frames -/

/-- The parts of the state a frame speaks of, pc aside: R46's elements and the model's own fields, each in one part. -/
inductive Part where
  | regs
  | index
  | memory
  | stack
  | timers
  | repaint
  | keyWait
  | pause
  | quirks
  | sound
  | config
  | faultState
  | requests
  | answers
  | hostSide
  deriving DecidableEq, Repr

/-- The part holds in `t` what it held in `s`; memory byte by byte. -/
def Part.Kept (s t : State) : Part → Prop
  | .regs => ∀ j, t.reg j = s.reg j
  | .index => t.index = s.index
  | .memory => ∀ a, t.readByte a = s.readByte a
  | .stack => t.sp = s.sp ∧ t.stack = s.stack
  | .timers => t.dt = s.dt ∧ t.st = s.st
  | .repaint => t.repaint = s.repaint
  | .keyWait => t.kw = s.kw
  | .pause => t.paused = s.paused
  | .quirks => t.quirkShift = s.quirkShift ∧ t.quirkLoadStore = s.quirkLoadStore
  | .sound => t.soundOn = s.soundOn
  | .config => t.config = s.config
  | .faultState => t.fault = s.fault ∧ t.runState = s.runState
  | .requests => t.requests = s.requests
  | .answers =>
    t.randomBytes = s.randomBytes ∧ t.keyAnswers = s.keyAnswers ∧ t.collisions = s.collisions ∧ t.draws = s.draws
  | .hostSide => t.commands = s.commands ∧ t.reply = s.reply

/-- Every part outside the list is kept. The frame says nothing of pc. -/
def KeptExcept (ps : List Part) (s t : State) : Prop := ∀ p, p ∉ ps → Part.Kept s t p

/-- Every V register outside the list keeps its value. -/
def RegsKeptExcept (ds : List Reg) (s t : State) : Prop := ∀ j, j ∉ ds → t.reg j = s.reg j

/-- Every byte of memory outside `count` bytes from `base` keeps its value. -/
def MemoryKeptOutside (base count : Nat) (s t : State) : Prop :=
  ∀ a, (a < base ∨ base + count ≤ a) → t.readByte a = s.readByte a

/-- pc moved on by `k` bytes, modulo the 4096 of memory (00_scope.md R15, 10_state.md R24). -/
def AdvancesBy (k : Nat) (s t : State) : Prop := t.pc.toNat = (s.pc.toNat + k) % 0x1000

/-- What is left of a timer value after one decrement (60_exceptions.md R217). -/
def decremented (m : TimerAtZero) (v : Nat) : Nat :=
  match m with
  | .clamp => v - 1
  | .wrap => (v + 255) % 256

/-- The `j`-th decimal digit of a value below 1000, hundreds first (44_memory_index.md R164). -/
def decimalDigit (v j : Nat) : Nat := v / 10 ^ (2 - j) % 10

/-- An access of the instruction passes 0xFFF (the conditions of 60_exceptions.md R202). -/
def Overflows (s : State) : Instr → Prop
  | .drw _ _ n => 0 < n.val ∧ s.index.toNat + n.val - 1 > 0xFFF
  | .ldBVx _ => s.index.toNat + 2 > 0xFFF
  | .ldMemVx x => s.index.toNat + x.val > 0xFFF
  | .ldVxMem x => s.index.toNat + x.val > 0xFFF
  | _ => False

/-- The state a raised AddressOverflow leaves (60_exceptions.md R201). -/
def State.overflowed (s : State) : State :=
  { s with fault := some { kind := .addressOverflow, pc := s.pc, info := 0x1000 }, runState := .stopped }

/-- The state a raised InvalidOpcode leaves (R201, R203). -/
def State.invalidated (s : State) : State :=
  { s with fault := some { kind := .invalidOpcode, pc := s.pc, info := s.fetchWord }, runState := .stopped }

/-- The instruction skips: the condition of SE, SNE, SKP or SKNP holds (40_control_flow.md R100). -/
def Skips (s : State) : Instr → Prop
  | .seXkk x kk => s.reg x = kk
  | .sneXkk x kk => s.reg x ≠ kk
  | .seXy x y => s.reg x = s.reg y
  | .sneXy x y => s.reg x ≠ s.reg y
  | .skp _ => s.keyAnswer = true
  | .sknp _ => s.keyAnswer = false
  | _ => False

/-- The instruction is one of the six that may skip (R100). -/
def isSkip : Instr → Bool
  | .seXkk _ _ => true
  | .sneXkk _ _ => true
  | .seXy _ _ => true
  | .sneXy _ _ => true
  | .skp _ => true
  | .sknp _ => true
  | _ => false

/-- All that an instruction can read (10_state.md R22, R29, R31, R33, R34; 00_scope.md R13): the two states agree on it. -/
def SameProgramView (s s' : State) : Prop :=
  s'.v = s.v ∧ s'.index = s.index ∧ s'.pc = s.pc ∧ s'.sp = s.sp ∧ s'.stack = s.stack ∧ s'.dt = s.dt ∧ s'.mem = s.mem ∧
    s'.quirkShift = s.quirkShift ∧ s'.quirkLoadStore = s.quirkLoadStore ∧ s'.config = s.config ∧
    s'.randomBytes = s.randomBytes ∧ s'.keyAnswers = s.keyAnswers ∧ s'.collisions = s.collisions ∧ s'.draws = s.draws

/-- The instructions one after another, each from the state the one before left. -/
def execAll : List Instr → State → Result
  | [], s => .next s
  | i :: is, s =>
    match exec i s with
    | .next t => execAll is t
    | .fault r => .fault r
    | .refused r => .refused r

end Sys2Proof.Machine
end

