-- ==== Sys2Proof/Certificates/Slice0/Obligations.lean ====
section
/-! DEFINITION. The statements for the provers. Each names the rule of spec/ it formalises. Where a clause rests on a
decision of spec/92_eei_decisions.md (D<n>), on the spec's general-knowledge items or on a choice of the model (log <n>), the
docstring says so. -/

open Sys2Proof Sys2Proof.Machine

/-! ### Encoding and decoding (30_encoding.md) -/

/-- Decoding the canonical spelling of a well-formed instruction gives it back, with every operand, in both modes (R88, R76,
R81). The opcode values rest on the general-knowledge item G1 (D28, log 11). -/
def Obligations.DecodingAnEncodedInstructionGivesItBack : Prop :=
  ∀ (m : DecodeMode) (i : Instr), i.wellFormed m = true → decodeWord m (encode i) = some i

/-- In DECODE_MODE canonical a word that decodes is the one spelling of its instruction, so decoding and encoding are inverse
to each other (R81, R88). -/
def Obligations.CanonicalWordIsTheSpellingOfItsInstruction : Prop :=
  ∀ (w : Word) (i : Instr), decodeWord .canonical w = some i → encode i = w ∧ i.wellFormed .canonical = true

/-- Whatever a word decodes to has an encoding of its own (R89; which SYS is well-formed in each mode is log 27). -/
def Obligations.DecodedInstructionsAreWellFormed : Prop :=
  ∀ (m : DecodeMode) (w : Word) (i : Instr), decodeWord m w = some i → i.wellFormed m = true

/-- The decoder written from the pseudocode of R76 and R81 gives every word the dispatch index that the match and mask columns
of opcode_table.json give it, in both modes. The opcode values of both are the spec's general-knowledge item G1 (D28, log 11). -/
def Obligations.DecodersAgreeWithTheOpcodeTable : Prop :=
  ∀ (m : DecodeMode) (w : Word), dispatchIndexOf m w = tableIndexOf m w

/-- The INVALID words of each mode (R82). The families, nibbles and bytes it lists are PRESUMED: the spec's general-knowledge items
G1 (D28, log 11) and, for mode canonical, G2 (D26, log 12). -/
def Obligations.InvalidWordsOfEachMode : Prop :=
  ∀ w : Word,
    (decodeWord .doc w = none ↔
      (fieldFamily w = 0x8 ∧ (fieldN w).val ∉ [0x0, 0x1, 0x2, 0x3, 0x4, 0x5, 0x6, 0x7, 0xE]) ∨
      (fieldFamily w = 0xE ∧ (fieldN w).val ∉ [0xE, 0x1]) ∨
      (fieldFamily w = 0xF ∧ (fieldKK w).toNat ∉ [0x07, 0x0A, 0x15, 0x18, 0x1E, 0x29, 0x33, 0x55, 0x65])) ∧
    (decodeWord .canonical w = none ↔
      (fieldFamily w = 0x8 ∧ (fieldN w).val ∉ [0x0, 0x1, 0x2, 0x3, 0x4, 0x5, 0x6, 0x7, 0xE]) ∨
      ((fieldFamily w = 0x5 ∨ fieldFamily w = 0x9) ∧ (fieldN w).val ≠ 0) ∨
      (fieldFamily w = 0xE ∧ (fieldKK w).toNat ∉ [0x9E, 0xA1]) ∨
      (fieldFamily w = 0xF ∧ (fieldKK w).toNat ∉ [0x07, 0x0A, 0x15, 0x18, 0x1E, 0x29, 0x33, 0x55, 0x65]))

/-- The two modes disagree exactly on the words of conflict C10: 5xyn and 9xyn with n not 0, family-E words whose bottom byte
is not 9E or A1 but whose bottom nibble is E or 1, and family-0 words 0xE0 and 0xEE with x not 0 (decision D26, log 12; the opcode
values are PRESUMED, the general-knowledge items G1 and G2: D28, log 11). -/
def Obligations.ModesDisagreeExactlyOnTheWordsOfConflictC10 : Prop :=
  ∀ w : Word, decodeWord .doc w ≠ decodeWord .canonical w ↔
    ((fieldFamily w = 0x5 ∨ fieldFamily w = 0x9) ∧ (fieldN w).val ≠ 0) ∨
    (fieldFamily w = 0xE ∧ (fieldN w).val ∈ [0xE, 0x1] ∧ (fieldKK w).toNat ∉ [0x9E, 0xA1]) ∨
    (fieldFamily w = 0x0 ∧ (fieldKK w).toNat ∈ [0xE0, 0xEE] ∧ (fieldX w).val ≠ 0)

/-- The dispatcher's output is 0 to 34, or 63 exactly for an INVALID word; 35 to 62 are never produced (R80; the numbering is
decision D1). -/
def Obligations.DispatchIndexNamesAnInstructionOrInvalid : Prop :=
  ∀ (m : DecodeMode) (w : Word),
    ((dispatchIndexOf m w).toNat ≤ 34 ∧ decodeWord m w ≠ none) ∨ (dispatchIndexOf m w = 63 ∧ decodeWord m w = none)

/-- Seven words the spec writes out decode to the instructions it names (R88's examples, R120, R190), and 0x8128 is INVALID (R77,
R82). But for 00E0 and Fx0A the opcode values are the spec's general-knowledge item G1 (D28, log 11). -/
def Obligations.WordsTheSpecWritesOutDecode : Prop :=
  decodeWord .doc 0x632A = some (.ldXkk 3 0x2A) ∧ decodeWord .doc 0x8124 = some (.addXy 1 2) ∧
  decodeWord .doc 0xD015 = some (.drw 0 1 5) ∧ decodeWord .doc 0xFA33 = some (.ldBVx 10) ∧
  decodeWord .doc 0x1204 = some (.jp 0x204) ∧ decodeWord .doc 0x00E0 = some .cls ∧
  decodeWord .doc 0xF30A = some (.ldVxK 3) ∧ decodeWord .doc 0x8128 = none

/-! ### The cycle (30_encoding.md R90; 60_exceptions.md R200 to R207) -/

/-- Fetch is big-endian: `w[15:8] = mem[pc]` and `w[7:0] = mem[pc+1]`, in every state, so nothing switches it (R53). -/
def Obligations.FetchIsBigEndian : Prop :=
  ∀ s : State, s.fetchWord.extractLsb 15 8 = s.readByte s.pc.toNat ∧ s.fetchWord.extractLsb 7 0 = s.readByte (s.pc.toNat + 1)

/-- When the word at pc decodes to an instruction and nothing holds the cycle back, a step is exec of it, with the outcome
the caller receives beside it: with no command queued, and for a queued `step()` (R90, R91, R216). That a step with no
command queued is a `step()` is the model's choice (log 1). -/
def Obligations.StepRunsTheDecodedInstruction : Prop :=
  ∀ (s : State) (i : Instr),
    (∀ t, s.commands = [] → s.Ready i → exec i s = .next t →
      step s = .next (t.setReply (match t.fault with | some f => .faulted f | none => .executed))) ∧
    (∀ rest t, s.commands = .step :: rest → (s.setCommands rest).Ready i →
      exec i (s.setCommands rest) = .next t →
      step s = .next (t.setReply (match t.fault with | some f => .faulted f | none => .executed)))

/-- A word placed by `withFetchWord` is what the next step runs (the model's own placing, log 20). -/
def Obligations.PlacedWordIsTheNextInstruction : Prop :=
  ∀ (s : State) (w : Nat) (i : Instr), s.Inv → w < 0x10000 → decodeWord s.config.decodeMode (BitVec.ofNat 16 w) = some i →
    (s.withFetchWord 16 w).Ready i ∧ (s.withFetchWord 16 w).commands = [] ∧ (s.withFetchWord 16 w).v = s.v ∧
      (s.withFetchWord 16 w).index = s.index

/-- A cycle checks in this order: a recorded fault, a pending key-wait, a fetch at 0xFFF, an INVALID word (R207, R90); the
fetch fault and its address are decision D4, what raising a fault leaves is decision D7 (log 13). -/
def Obligations.CycleChecksInOrder : Prop :=
  ∀ s : State,
    (∀ f, s.fault = some f → cycle s = .next { s with reply := .faulted f }) ∧
    (s.fault = none → s.kw ≠ none → cycle s = .next { s with reply := .waiting }) ∧
    (s.fault = none → s.kw = none → s.pc.toNat > 0xFFE →
      cycle s = .next { s.overflowed with reply := .faulted ⟨.addressOverflow, s.pc, 0x1000⟩ }) ∧
    (s.fault = none → s.kw = none → s.pc.toNat ≤ 0xFFE → decodeWord s.config.decodeMode s.fetchWord = none →
      cycle s = .next { s.invalidated with reply := .faulted ⟨.invalidOpcode, s.pc, s.fetchWord⟩ })

/-- InvalidOpcode is raised by the cycle when the word decodes to INVALID; it records the pc and the word (R203). What raising does
beside the record, and that it is a next state, are R201, decision D7 and log 13; that an empty queue is one `step()` is log 1. -/
def Obligations.InvalidWordRaisesInvalidOpcode : Prop :=
  ∀ s : State, s.commands = [] → s.fault = none → s.kw = none → s.pc.toNat ≤ 0xFFE →
    decodeWord s.config.decodeMode s.fetchWord = none →
    ∃ t, step s = .next t ∧ t.fault = some { kind := .invalidOpcode, pc := s.pc, info := s.fetchWord } ∧
      t.runState = .stopped ∧ t.pc = s.pc ∧ KeptExcept [.faultState, .hostSide] s t

/-- Exactly the four instructions of R202's table fault, under its conditions, and precisely: nothing changes but the fault
record and the run state (R201, R202; decisions D5 and D7, log 13). -/
def Obligations.InstructionsFaultExactlyWhereTheTableSays : Prop :=
  ∀ (i : Instr) (s : State),
    (Overflows s i → exec i s = .next s.overflowed) ∧
    (¬ Overflows s i → ∃ t, exec i s = .next t ∧ t.fault = s.fault ∧ t.runState = s.runState)

/-- Every instruction and every step answers a next state: nothing of the core stops the model (R206; the model takes the
spec's faults as next states, log 13). -/
def Obligations.EveryStepAnswersANextState : Prop :=
  (∀ (i : Instr) (s : State), ∃ t, exec i s = .next t) ∧ ∀ s : State, ∃ t, step s = .next t

/-! ### Invariants (10_state.md R44) -/

/-- The state after reset meets the invariant (R44, R46; the numeric reset values are decision D9, log 9). -/
def Obligations.ResetMeetsTheInvariant : Prop := State.reset.Inv

/-- Every step keeps the invariant: addresses stay in the 4096 bytes, sp and the slots stay legal, memory stays canonical, a
faulted state stays Stopped with no key-wait (R24, R29, R30, R31, R44; the canonical form of memory is the model's own, log 18). -/
def Obligations.EveryStepKeepsTheInvariant : Prop :=
  ∀ s t : State, s.Inv → step s = .next t → t.Inv

/-- pc lies in 0x000..0xFFF after any update, and its bits 15:12 are always 0: the range of R24, in every step and after reset
(the value reset gives is decision D9, log 9). That an update past the range wraps is stated by `PcAfterEachInstruction`. -/
def Obligations.ProgramCounterIsAlwaysMasked : Prop :=
  (∀ (i : Instr) (s t : State), exec i s = .next t → t.pc = s.pc ∨ t.pc.toNat < 0x1000) ∧
  State.reset.pc.extractLsb 15 12 = 0 ∧
  ∀ s t : State, s.pc.extractLsb 15 12 = 0 → step s = .next t → t.pc.toNat ≤ 0xFFF ∧ t.pc.extractLsb 15 12 = 0

/-- While a fault is recorded no instruction executes, until a reset or a reconfiguration, which resets: the record, the run state,
V, I, the stack, the key-wait, the quirks, the configuration and the environment's answers stay, and every other part changes only
by the host command that is about it (R201, R210, R241; decision D7, log 13; the edges of the commands are log 25). -/
def Obligations.FaultIsStickyUntilReset : Prop :=
  ∀ (s t : State) (f : FaultRecord), s.Inv → s.fault = some f → step s = .next t →
    (∀ rest, s.commands ≠ .reset :: rest) →
    (∀ r rest c, s.commands = .configure r :: rest → checkConfig r ≠ .inl c) →
    t.fault = some f ∧ t.runState = .stopped ∧ t.kw = none ∧
    Part.Kept s t .regs ∧ Part.Kept s t .index ∧ Part.Kept s t .stack ∧ Part.Kept s t .quirks ∧ Part.Kept s t .config ∧
    Part.Kept s t .answers ∧
    ((∀ bs rest, s.commands ≠ .loadToMemory bs :: rest) → t.pc = s.pc ∧ Part.Kept s t .memory) ∧
    ((∀ rest, s.commands ≠ .ackRepaint :: rest) → Part.Kept s t .repaint) ∧
    ((∀ rest, s.commands ≠ .halt :: rest) → (∀ rest, s.commands ≠ .resume :: rest) → Part.Kept s t .pause) ∧
    ((∀ rest, s.commands ≠ .updateTimers :: rest) → Part.Kept s t .timers ∧ Part.Kept s t .sound ∧
      ((∀ k rest, s.commands ≠ .keyDown k :: rest) → (∀ k rest, s.commands ≠ .keyUp k :: rest) → Part.Kept s t .requests))

/-- While a key-wait is pending nothing executes, until a key-down or a reset ends it: the wait, V, I, the stack, the quirks, the
configuration and the environment's answers stay, no fault is raised, and every other part changes only by the host command that
is about it, the timers and the sound also by a tick (R36, R215, R232; decisions D14 and D16, log 15 and log 16; the edges of the
commands are log 25). -/
def Obligations.KeyWaitEndsOnlyByKeyDownOrReset : Prop :=
  ∀ (s t : State) (r : Reg), s.Inv → s.kw = some r → step s = .next t →
    (∀ rest, s.commands ≠ .reset :: rest) →
    (∀ q rest c, s.commands = .configure q :: rest → checkConfig q ≠ .inl c) →
    (∀ k rest, s.commands = .keyDown k :: rest → 16 ≤ k) →
    t.kw = some r ∧ t.fault = none ∧
    Part.Kept s t .regs ∧ Part.Kept s t .index ∧ Part.Kept s t .stack ∧ Part.Kept s t .quirks ∧ Part.Kept s t .config ∧
    Part.Kept s t .answers ∧
    ((∀ bs rest, s.commands ≠ .loadToMemory bs :: rest) → t.pc = s.pc ∧ Part.Kept s t .memory) ∧
    ((∀ rest, s.commands ≠ .ackRepaint :: rest) → Part.Kept s t .repaint) ∧
    ((∀ rest, s.commands ≠ .halt :: rest) → (∀ rest, s.commands ≠ .resume :: rest) → Part.Kept s t .pause) ∧
    ((∀ rest, s.commands ≠ .run :: rest) → (∀ rest, s.commands ≠ .stop :: rest) → t.runState = s.runState) ∧
    ((∀ rest, s.commands ≠ .updateTimers :: rest) → (∀ rest, s.commands ≠ .tick :: rest) →
      Part.Kept s t .timers ∧ Part.Kept s t .sound ∧
      ((∀ k rest, s.commands ≠ .keyUp k :: rest) → Part.Kept s t .requests))

/-- No instruction changes the configuration or the quirks. A step that changes either is a reset, after which the configuration is
the one before and the quirks are its defaults, or an accepted reconfiguration, after which the configuration is the one asked for
and the quirks are its defaults (R34, R43, R240, R242; that reset keeps the configuration is decision D32, log 9). That a reset
and an accepted reconfiguration do set these values is stated by `ResetGivesTheResetValues` and `ConfigureValidatesThenResets`. -/
def Obligations.OnlyResetAndReconfigurationSetTheQuirks : Prop :=
  (∀ (i : Instr) (s t : State), exec i s = .next t → Part.Kept s t .quirks ∧ Part.Kept s t .config) ∧
  ∀ s t : State, step s = .next t →
    (Part.Kept s t .quirks ∧ Part.Kept s t .config) ∨
    (∃ rest, s.commands = .reset :: rest ∧ t.config = s.config ∧ t.quirkShift = s.config.quirkShiftDefault ∧
      t.quirkLoadStore = s.config.quirkLoadStoreDefault) ∨
    (∃ r rest c, s.commands = .configure r :: rest ∧ checkConfig r = .inl c ∧ t.config = c ∧
      t.quirkShift = c.quirkShiftDefault ∧ t.quirkLoadStore = c.quirkLoadStoreDefault)

/-- Only run(), stop(), reset, a reconfiguration (which resets) and a fault change run_state (R38; the commands' edges
are decisions D24 and D36, log 25, the fault's stop D7, log 13). -/
def Obligations.RunStateChangesOnlyByCommandOrFault : Prop :=
  ∀ s t : State, step s = .next t → t.runState ≠ s.runState →
    (∃ rest, s.commands = .run :: rest ∧ t.runState = .running ∧ s.fault = none) ∨
    (t.runState = .stopped ∧
      ((∃ rest, s.commands = .stop :: rest) ∨ (∃ rest, s.commands = .reset :: rest) ∨
        (∃ r rest, s.commands = .configure r :: rest) ∨ (s.fault = none ∧ t.fault ≠ none)))

/-! ### Control flow (40_control_flow.md) -/

/-- SYS nnn advances pc by 2 and does nothing else, whatever nnn is (R102; decision D34, log 24). -/
def Obligations.SysOnlyAdvances : Prop :=
  ∀ (nnn : Addr12) (s : State), ∃ t, exec (.sys nnn) s = .next t ∧ AdvancesBy 2 s t ∧ KeptExcept [] s t

/-- JP nnn sets pc to nnn; JP V0,nnn sets it to the sum modulo 4096; nothing else changes (R103, R104). -/
def Obligations.JumpsSetOnlyThePc : Prop :=
  ∀ (nnn : Addr12) (s : State),
    (∃ t, exec (.jp nnn) s = .next t ∧ t.pc.toNat = nnn.toNat ∧ KeptExcept [] s t) ∧
    (∃ t, exec (.jpV0 nnn) s = .next t ∧ t.pc.toNat = (nnn.toNat + (s.reg 0).toNat) % 0x1000 ∧ KeptExcept [] s t)

/-- CALL pushes the call-site pc, not the call-site + 2, and jumps; every other slot keeps its value (R105, R106). -/
def Obligations.CallPushesTheCallSite : Prop :=
  ∀ (nnn : Addr12) (s : State), s.Inv →
    ∃ t, exec (.call nnn) s = .next t ∧ t.pc.toNat = nnn.toNat ∧ t.slot s.sp = s.pc ∧ (∀ j, j ≠ s.sp → t.slot j = s.slot j) ∧
      t.sp = (s.sp + 1) % s.config.stackCap ∧ t.stack.length = s.stack.length ∧ KeptExcept [.stack] s t

/-- RET decrements sp around the ring and returns to the slot there plus 2, whatever it holds; the slot keeps it (R107). -/
def Obligations.ReturnGoesPastTheCallSite : Prop :=
  ∀ s : State, s.Inv →
    ∃ t, exec .ret s = .next t ∧ t.sp = (s.sp + s.config.stackCap - 1) % s.config.stackCap ∧
      t.pc.toNat = ((s.slot t.sp).toNat + 2) % 0x1000 ∧ t.stack = s.stack ∧ KeptExcept [.stack] s t

/-- Calls nested up to STACK_CAP deep, each run on arrival at its target, and as many returns, come back behind the first
call with sp as before it (R110). -/
def Obligations.NestedCallsReturnBehindTheFirst : Prop :=
  ∀ (s : State) (targets : List Addr12), s.Inv → targets ≠ [] → targets.length ≤ s.config.stackCap →
    ∃ t, execAll (targets.map .call ++ List.replicate targets.length .ret) s = .next t ∧
      t.pc.toNat = (s.pc.toNat + 2) % 0x1000 ∧ t.sp = s.sp ∧ KeptExcept [.stack] s t

/-- The ring wraps and never faults: after STACK_CAP pushes every slot holds one of them and the next push overwrites the
oldest; a return with nothing pushed takes the slot below sp, whatever it holds (R31, R32). -/
def Obligations.StackRingWrapsWithoutFault : Prop :=
  ∀ s : State, s.Inv →
    (∀ as : List Word, as.length = s.config.stackCap →
      (as.foldl State.push s).sp = s.sp ∧
      (∀ k, k < s.config.stackCap → (as.foldl State.push s).slot ((s.sp + k) % s.config.stackCap) = as.getD k 0) ∧
      ∀ a, ((as.foldl State.push s).push a).slot s.sp = a ∧
        ∀ k, 0 < k → k < s.config.stackCap →
          ((as.foldl State.push s).push a).slot ((s.sp + k) % s.config.stackCap) = as.getD k 0) ∧
    (∀ nnn, ∃ t, exec (.call nnn) s = .next t ∧ t.fault = s.fault ∧ t.stack = (s.push s.pc).stack ∧ t.sp = (s.push s.pc).sp) ∧
    ∃ t, exec .ret s = .next t ∧ t.fault = s.fault ∧
      t.pc.toNat = ((s.slot ((s.sp + s.config.stackCap - 1) % s.config.stackCap)).toNat + 2) % 0x1000

/-- The skip rule: each of the six instructions advances pc by 4 if its condition holds and by 2 if not, modulo 4096, and the
skipped word is not read: with any other memory the instruction does the same (R100, the conditions R108, R109, R152, R153, R192,
R193). The operand form Vx,Vy of SE and SNE is PRESUMED, the spec's general-knowledge item G4 (log 11), and the Keyboard's answer
that SKP and SKNP test is the queued one or a free value (log 3). -/
def Obligations.SkipAdvancesByFourOrTwo : Prop :=
  ∀ (i : Instr) (s : State), isSkip i = true →
    ∃ t, exec i s = .next t ∧ t.fault = s.fault ∧ (Skips s i → AdvancesBy 4 s t) ∧ (¬ Skips s i → AdvancesBy 2 s t) ∧
      ∀ m, exec i { s with mem := m } = .next { t with mem := m }

/-- SE and SNE, against an immediate or a register, change nothing but pc (R108, R109, R152, R153). The operand form Vx,Vy of SE
and SNE is PRESUMED: the spec's general-knowledge item G4 (log 11). -/
def Obligations.CompareSkipsChangeOnlyThePc : Prop :=
  ∀ (x y : Reg) (kk : Byte) (s : State),
    ∀ i ∈ [Instr.seXkk x kk, .sneXkk x kk, .seXy x y, .sneXy x y],
      ∃ t, exec i s = .next t ∧ (AdvancesBy 4 s t ↔ Skips s i) ∧ (AdvancesBy 2 s t ↔ ¬ Skips s i) ∧ KeptExcept [] s t

/-- SKP and SKNP ask the Keyboard once for the whole byte of Vx and skip by its answer; they change nothing else (R192, R193,
R194; D18). With an answer queued it is that answer; with none it is free (log 3). -/
def Obligations.KeySkipsFollowTheKeyboardsAnswer : Prop :=
  ∀ (x : Reg) (s : State),
    ∀ i ∈ [Instr.skp x, .sknp x],
      ∃ t, exec i s = .next t ∧ (Skips s i → AdvancesBy 4 s t) ∧ (¬ Skips s i → AdvancesBy 2 s t) ∧
        (∀ b bs, s.keyAnswers = b :: bs → t.keyAnswers = bs ∧ (AdvancesBy 4 s t ↔ (b = true ↔ i = Instr.skp x))) ∧
        t.requests = s.requests ++ [.isKeyPressed (s.reg x)] ∧ t.draws = s.draws + 1 ∧ t.randomBytes = s.randomBytes ∧
        t.collisions = s.collisions ∧ KeptExcept [.requests, .answers] s t

/-! ### Display (41_display.md) -/

/-- CLS asks the Screen once to clear, sets repaint and advances; VF and all else stay (R120). -/
def Obligations.ClearRequestsTheScreenOnce : Prop :=
  ∀ s : State, ∃ t, exec .cls s = .next t ∧ t.requests = s.requests ++ [.screenClear] ∧ t.repaint = true ∧
    AdvancesBy 2 s t ∧ KeptExcept [.requests, .repaint] s t

/-- DRW with its n bytes in memory toggles exactly one pixel per set sprite bit, at (Vx + column, Vy + row) unreduced, rows
first and MSB first, and leaves VF = 1 exactly when some answer was a collision; n = 0 and x or y = F included (R121 to R123;
order and sampling are decisions D19 and D2, log 22 and log 14). The answer to a toggle is the queued one in the order of the
requests, and with none queued it is free (log 3). -/
def Obligations.DrawTogglesEachSetBitOnce : Prop :=
  ∀ (x y : Reg) (n : Fin 16) (s : State), n.val = 0 ∨ s.index.toNat + n.val - 1 ≤ 0xFFF →
    ∃ (t : State) (ps : List (Nat × Nat)), exec (.drw x y n) s = .next t ∧
      t.requests = s.requests ++ ps.map (fun p => .togglePixel p.1 p.2) ∧
      (∀ px py, (px, py) ∈ ps ↔ ∃ r c, r < n.val ∧ c < 8 ∧ (s.readByte (s.index.toNat + r)).getLsbD (7 - c) = true ∧
        px = (s.reg x).toNat + c ∧ py = (s.reg y).toNat + r) ∧
      ps.Pairwise (fun p q => p.2 < q.2 ∨ (p.2 = q.2 ∧ p.1 < q.1)) ∧
      (∀ k b, s.collisions[k]? = some b → s.collisionAnswer k = b) ∧
      ((∃ k, k < ps.length ∧ s.collisionAnswer k = true) → t.reg vF = 1) ∧
      ((∀ k, k < ps.length → s.collisionAnswer k = false) → t.reg vF = 0) ∧
      t.collisions = s.collisions.drop ps.length ∧ t.draws = s.draws + ps.length ∧ t.randomBytes = s.randomBytes ∧
      t.keyAnswers = s.keyAnswers ∧ t.repaint = true ∧ AdvancesBy 2 s t ∧ RegsKeptExcept [vF] s t ∧
      KeptExcept [.regs, .repaint, .requests, .answers] s t

/-! ### Register-register arithmetic and logic (42_alu.md) -/

/-- LD Vx,Vy copies; OR, AND and XOR work bit by bit; no flag is written, and only Vx and pc change (R131
to R134). LD Vx,Vy and its meaning are PRESUMED: the spec's general-knowledge item G3 (log 11). -/
def Obligations.CopyAndLogicWriteOnlyVx : Prop :=
  ∀ (x y : Reg) (s : State),
    (∃ t, exec (.ldXy x y) s = .next t ∧ t.reg x = s.reg y ∧ AdvancesBy 2 s t ∧ RegsKeptExcept [x] s t ∧
      KeptExcept [.regs] s t) ∧
    (∃ t, exec (.orXy x y) s = .next t ∧
      (∀ k, (t.reg x).getLsbD k = ((s.reg x).getLsbD k || (s.reg y).getLsbD k)) ∧ AdvancesBy 2 s t ∧
      RegsKeptExcept [x] s t ∧ KeptExcept [.regs] s t) ∧
    (∃ t, exec (.andXy x y) s = .next t ∧
      (∀ k, (t.reg x).getLsbD k = ((s.reg x).getLsbD k && (s.reg y).getLsbD k)) ∧ AdvancesBy 2 s t ∧
      RegsKeptExcept [x] s t ∧ KeptExcept [.regs] s t) ∧
    (∃ t, exec (.xorXy x y) s = .next t ∧
      (∀ k, (t.reg x).getLsbD k = ((s.reg x).getLsbD k ^^ (s.reg y).getLsbD k)) ∧ AdvancesBy 2 s t ∧
      RegsKeptExcept [x] s t ∧ KeptExcept [.regs] s t)

/-- ADD Vx,Vy: VF = 1 iff the true sum exceeds 255, Vx holds the sum mod 256; with x = F the flag stays (R135; the write order
is decision D3, the sampling D2). -/
def Obligations.AddSetsCarry : Prop :=
  ∀ (x y : Reg) (s : State), ∃ t, exec (.addXy x y) s = .next t ∧
    (x ≠ vF → (t.reg x).toNat = ((s.reg x).toNat + (s.reg y).toNat) % 256) ∧
    t.reg vF = (if (s.reg x).toNat + (s.reg y).toNat > 255 then 1 else 0) ∧
    AdvancesBy 2 s t ∧ RegsKeptExcept [x, vF] s t ∧ KeptExcept [.regs] s t

/-- SUB and SUBN: VF = 1 iff there is no borrow, Vx holds the difference mod 256; with x = F the flag stays (R136, R138; D2,
D3). -/
def Obligations.SubtractSetsNotBorrow : Prop :=
  ∀ (x y : Reg) (s : State),
    (∃ t, exec (.subXy x y) s = .next t ∧
      (x ≠ vF → (t.reg x).toNat = ((s.reg x).toNat + 256 - (s.reg y).toNat) % 256) ∧
      t.reg vF = (if (s.reg x).toNat ≥ (s.reg y).toNat then 1 else 0) ∧
      AdvancesBy 2 s t ∧ RegsKeptExcept [x, vF] s t ∧ KeptExcept [.regs] s t) ∧
    (∃ t, exec (.subnXy x y) s = .next t ∧
      (x ≠ vF → (t.reg x).toNat = ((s.reg y).toNat + 256 - (s.reg x).toNat) % 256) ∧
      t.reg vF = (if (s.reg y).toNat ≥ (s.reg x).toNat then 1 else 0) ∧
      AdvancesBy 2 s t ∧ RegsKeptExcept [x, vF] s t ∧ KeptExcept [.regs] s t)

/-- SHR and SHL shift Vy, or Vx under quirk `shift`, by one into Vx; VF is the bit shifted out; with x = F the flag stays
(R137, R139; D2, D3). -/
def Obligations.ShiftsMoveTheBitOutIntoVF : Prop :=
  ∀ (x y : Reg) (s : State) (src : Nat), src = (if s.quirkShift = true then (s.reg x).toNat else (s.reg y).toNat) →
    (∃ t, exec (.shrXy x y) s = .next t ∧ (x ≠ vF → (t.reg x).toNat = src / 2) ∧ (t.reg vF).toNat = src % 2 ∧
      AdvancesBy 2 s t ∧ RegsKeptExcept [x, vF] s t ∧ KeptExcept [.regs] s t) ∧
    (∃ t, exec (.shlXy x y) s = .next t ∧ (x ≠ vF → (t.reg x).toNat = src * 2 % 256) ∧ (t.reg vF).toNat = src / 128 ∧
      AdvancesBy 2 s t ∧ RegsKeptExcept [x, vF] s t ∧ KeptExcept [.regs] s t)

/-! ### Immediate operations (43_immediate.md) -/

/-- LD Vx,kk loads, ADD Vx,kk adds mod 256 with no flag; only Vx and pc change (R150, R151). -/
def Obligations.ImmediatesWriteOnlyVx : Prop :=
  ∀ (x : Reg) (kk : Byte) (s : State),
    (∃ t, exec (.ldXkk x kk) s = .next t ∧ t.reg x = kk ∧ AdvancesBy 2 s t ∧ RegsKeptExcept [x] s t ∧
      KeptExcept [.regs] s t) ∧
    (∃ t, exec (.addXkk x kk) s = .next t ∧ (t.reg x).toNat = ((s.reg x).toNat + kk.toNat) % 256 ∧ AdvancesBy 2 s t ∧
      RegsKeptExcept [x] s t ∧ KeptExcept [.regs] s t)

/-- RND takes one fresh byte and stores it masked: bits of Vx where kk is 0 are 0, the others are the byte's. With a byte
queued it is that byte; with none it is free (R154, R229; D22, log 3). -/
def Obligations.RandomByteIsMaskedByTheImmediate : Prop :=
  ∀ (x : Reg) (kk : Byte) (s : State),
    ∃ t, exec (.rnd x kk) s = .next t ∧
      (∀ k, (t.reg x).getLsbD k = (s.randomAnswer.getLsbD k && kk.getLsbD k)) ∧
      (∀ b bs, s.randomBytes = b :: bs → s.randomAnswer = b ∧ t.randomBytes = bs) ∧ t.draws = s.draws + 1 ∧
      t.keyAnswers = s.keyAnswers ∧ t.collisions = s.collisions ∧ t.requests = s.requests ++ [.randomByte] ∧
      AdvancesBy 2 s t ∧ RegsKeptExcept [x] s t ∧ KeptExcept [.regs, .requests, .answers] s t

/-! ### Memory and index (44_memory_index.md) -/

/-- LD I,nnn, ADD I,Vx and LD F,Vx write I modulo 4096 and nothing else but pc (R161, R162, R163; no nibble mask in LD F is
decision D41). -/
def Obligations.IndexWritesKeepAllElse : Prop :=
  ∀ (nnn : Addr12) (x : Reg) (s : State),
    (∃ t, exec (.ldI nnn) s = .next t ∧ t.index.toNat = nnn.toNat ∧ AdvancesBy 2 s t ∧ KeptExcept [.index] s t) ∧
    (∃ t, exec (.addIVx x) s = .next t ∧ t.index.toNat = (s.index.toNat + (s.reg x).toNat) % 0x1000 ∧ AdvancesBy 2 s t ∧
      KeptExcept [.index] s t) ∧
    (∃ t, exec (.ldFVx x) s = .next t ∧ t.index.toNat = 5 * (s.reg x).toNat ∧ AdvancesBy 2 s t ∧ KeptExcept [.index] s t)

/-- LD B,Vx stores the three decimal digits of Vx at I, I+1 and I+2 and changes no other byte; I stays (R164; I unchanged is
decision D40). -/
def Obligations.BcdStoresThreeDigits : Prop :=
  ∀ (x : Reg) (s : State), s.Inv → s.index.toNat + 2 ≤ 0xFFF →
    ∃ t, exec (.ldBVx x) s = .next t ∧
      (t.readByte s.index.toNat).toNat = (s.reg x).toNat / 100 ∧
      (t.readByte (s.index.toNat + 1)).toNat = (s.reg x).toNat / 10 % 10 ∧
      (t.readByte (s.index.toNat + 2)).toNat = (s.reg x).toNat % 10 ∧
      MemoryKeptOutside s.index.toNat 3 s t ∧ AdvancesBy 2 s t ∧ KeptExcept [.memory] s t

/-- LD [I],Vx stores V0..Vx at I onward and changes no other byte; I advances by x+1 modulo 4096, or stays under quirk
`loadStore` (R165). -/
def Obligations.BlockStoreWritesRegistersUpToVx : Prop :=
  ∀ (x : Reg) (s : State), s.Inv → s.index.toNat + x.val ≤ 0xFFF →
    ∃ t, exec (.ldMemVx x) s = .next t ∧ (∀ j : Reg, j ≤ x → t.readByte (s.index.toNat + j.val) = s.reg j) ∧
      MemoryKeptOutside s.index.toNat (x.val + 1) s t ∧
      t.index.toNat = (if s.quirkLoadStore = true then s.index.toNat else (s.index.toNat + x.val + 1) % 0x1000) ∧
      AdvancesBy 2 s t ∧ KeptExcept [.memory, .index] s t

/-- LD Vx,[I] loads V0..Vx from I onward and no register above; I as for the store (R166; that every byte
is read before any register is written is decision D2, log 14). -/
def Obligations.BlockLoadReadsRegistersUpToVx : Prop :=
  ∀ (x : Reg) (s : State), s.index.toNat + x.val ≤ 0xFFF →
    ∃ t, exec (.ldVxMem x) s = .next t ∧ (∀ j : Reg, j ≤ x → t.reg j = s.readByte (s.index.toNat + j.val)) ∧
      (∀ j : Reg, x < j → t.reg j = s.reg j) ∧
      t.index.toNat = (if s.quirkLoadStore = true then s.index.toNat else (s.index.toNat + x.val + 1) % 0x1000) ∧
      AdvancesBy 2 s t ∧ KeptExcept [.regs, .index] s t

/-- A block store and a later block load at the same I, with the bytes still in memory, give V0..Vx back, whatever happened
to the registers between (R62, R165, R166). -/
def Obligations.BlockLoadGivesBackWhatWasStored : Prop :=
  ∀ (x : Reg) (s t u : State), s.Inv → s.index.toNat + x.val ≤ 0xFFF → exec (.ldMemVx x) s = .next t →
    u.index = s.index → KeptExcept [.regs, .index, .timers, .stack, .answers, .requests] t u →
    ∃ w, exec (.ldVxMem x) u = .next w ∧ ∀ j : Reg, j ≤ x → w.reg j = s.reg j

/-- A store is seen by the next fetch: after LD [I],Vx or LD B,Vx, wherever I points, each byte of the word that the next fetch
reads is the byte stored there, or the old one where nothing was stored (R66, R248; a store into the font is one like any other by
decision D35, log 24). -/
def Obligations.StoreIsSeenByTheNextFetch : Prop :=
  ∀ (x : Reg) (s : State), s.Inv →
    (s.index.toNat + x.val ≤ 0xFFF → ∃ t, exec (.ldMemVx x) s = .next t ∧ AdvancesBy 2 s t ∧
      (∀ j : Reg, j ≤ x → s.index.toNat + j.val = t.pc.toNat → t.fetchWord.extractLsb 15 8 = s.reg j) ∧
      (∀ j : Reg, j ≤ x → s.index.toNat + j.val = t.pc.toNat + 1 → t.fetchWord.extractLsb 7 0 = s.reg j) ∧
      (t.pc.toNat < s.index.toNat ∨ s.index.toNat + x.val < t.pc.toNat →
        t.fetchWord.extractLsb 15 8 = s.readByte t.pc.toNat) ∧
      (t.pc.toNat + 1 < s.index.toNat ∨ s.index.toNat + x.val < t.pc.toNat + 1 →
        t.fetchWord.extractLsb 7 0 = s.readByte (t.pc.toNat + 1))) ∧
    (s.index.toNat + 2 ≤ 0xFFF → ∃ t, exec (.ldBVx x) s = .next t ∧ AdvancesBy 2 s t ∧
      (∀ j, j < 3 → s.index.toNat + j = t.pc.toNat →
        (t.fetchWord.extractLsb 15 8).toNat = decimalDigit (s.reg x).toNat j) ∧
      (∀ j, j < 3 → s.index.toNat + j = t.pc.toNat + 1 →
        (t.fetchWord.extractLsb 7 0).toNat = decimalDigit (s.reg x).toNat j) ∧
      (t.pc.toNat < s.index.toNat ∨ s.index.toNat + 2 < t.pc.toNat →
        t.fetchWord.extractLsb 15 8 = s.readByte t.pc.toNat) ∧
      (t.pc.toNat + 1 < s.index.toNat ∨ s.index.toNat + 2 < t.pc.toNat + 1 →
        t.fetchWord.extractLsb 7 0 = s.readByte (t.pc.toNat + 1)))

/-! ### Timers (45_timers.md, 60_exceptions.md R217 to R219) -/

/-- LD Vx,DT reads dt; LD DT,Vx and LD ST,Vx write one timer; no Audio request, no flag (R180, R181, R182). -/
def Obligations.TimerMovesKeepAllElse : Prop :=
  ∀ (x : Reg) (s : State),
    (∃ t, exec (.ldVxDt x) s = .next t ∧ t.reg x = s.dt ∧ AdvancesBy 2 s t ∧ RegsKeptExcept [x] s t ∧
      KeptExcept [.regs] s t) ∧
    (∃ t, exec (.ldDtVx x) s = .next t ∧ t.dt = s.reg x ∧ t.st = s.st ∧ AdvancesBy 2 s t ∧ KeptExcept [.timers] s t) ∧
    (∃ t, exec (.ldStVx x) s = .next t ∧ t.st = s.reg x ∧ t.dt = s.dt ∧ AdvancesBy 2 s t ∧ KeptExcept [.timers] s t)

/-- updateTimers() in any state decrements both timers once and tells Audio to play exactly when st was above 0 before it
(R217, R218, R219; the clamp at 0 is decision D12, the sound rule D13). -/
def Obligations.TimerUpdateDecrementsBothAndDrivesTheSound : Prop :=
  ∀ (s : State) (rest : List Command), s.commands = .updateTimers :: rest →
    ∃ t, step s = .next t ∧ t.dt.toNat = decremented s.config.timerAtZero s.dt.toNat ∧
      t.st.toNat = decremented s.config.timerAtZero s.st.toNat ∧ t.soundOn = decide (0 < s.st.toNat) ∧
      t.requests = s.requests ++ [if 0 < s.st.toNat then .audioPlay else .audioStop] ∧ t.pc = s.pc ∧ t.commands = rest ∧
      KeptExcept [.timers, .sound, .requests, .hostSide] s t

/-- One tick while Running and not paused is one cycle and then one timer update, which a cycle that raised a fault leaves
out; while paused or waiting for a key only the timers and the sound drive run, and the tick reports Skipped or Waiting; while
Stopped there is no tick (R215, R217, R218, R250, R251; D13, D14, D27, log 15; the dropped tick is log 2, the reply log 5). -/
def Obligations.TickRunsOneCycleThenTheTimers : Prop :=
  ∀ (s : State) (rest : List Command), s.commands = .tick :: rest →
    (s.runState = .running → s.paused = false → ∀ u, cycle (s.setCommands rest) = .next u →
      (s.fault = none → u.fault ≠ none → step s = .next u) ∧ (u.fault = none → step s = .next u.timerUpdate)) ∧
    (s.runState = .running → s.fault = none → (s.paused = true ∨ s.kw ≠ none) → ∃ t, step s = .next t ∧
      t.dt.toNat = decremented s.config.timerAtZero s.dt.toNat ∧ t.st.toNat = decremented s.config.timerAtZero s.st.toNat ∧
      t.soundOn = decide (0 < s.st.toNat) ∧
      t.requests = s.requests ++ [if 0 < s.st.toNat then .audioPlay else .audioStop] ∧
      t.reply = (if s.paused = true then .skipped else .waiting) ∧ t.commands = rest ∧
      t.pc = s.pc ∧ KeptExcept [.timers, .sound, .requests, .hostSide] s t) ∧
    (s.runState = .stopped → ∃ t, step s = .next t ∧ t.pc = s.pc ∧ KeptExcept [.hostSide] s t)

/-- A value written to dt by the instruction of one tick has been decremented once when the next tick's cycle reads it; by
two `step()`s it has not (R183, R216; D15, log 15). -/
def Obligations.DelayWrittenInATickIsReadDecremented : Prop :=
  ∀ (x y : Reg) (s : State), s.Inv → s.Ready (.ldDtVx x) → s.pc.toNat ≤ 0xFFC →
    decodeWord s.config.decodeMode (wordOfBytes (s.readByte (s.pc.toNat + 2)) (s.readByte (s.pc.toNat + 3))) = some (.ldVxDt y) →
    (s.runState = .running → s.paused = false → s.commands = [.tick, .tick] →
      ∃ t u, step s = .next t ∧ step t = .next u ∧
        (u.reg y).toNat = decremented s.config.timerAtZero (s.reg x).toNat) ∧
    (s.commands = [.step, .step] → ∃ t u, step s = .next t ∧ step t = .next u ∧ u.reg y = s.reg x)

/-! ### Input (46_input.md) -/

/-- LD Vx,K enters the key-wait: pc and every register stay (R190; pc staying is decision D38). -/
def Obligations.KeyWaitIsEnteredInPlace : Prop :=
  ∀ (x : Reg) (s : State), ∃ t, exec (.ldVxK x) s = .next t ∧ t.kw = some x ∧ t.pc = s.pc ∧ KeptExcept [.keyWait] s t

/-- keyDown(k): with a wait pending Vr gets k, pc advances by 2 and the wait is consumed, in one step and whatever the run
state and the pause; with none pending only the Keyboard hears of it; a key above 15 is refused (R191, R222; D16, D17, D37). -/
def Obligations.KeyDownResumesAPendingWait : Prop :=
  ∀ (s : State) (k : Nat) (rest : List Command), s.commands = .keyDown k :: rest →
    (∀ (r key : Reg), s.kw = some r → key.val = k → ∃ t, step s = .next t ∧ (t.reg r).toNat = k ∧ AdvancesBy 2 s t ∧
      t.kw = none ∧ t.requests = s.requests ++ [.keyDown key] ∧ t.reply = .done ∧ RegsKeptExcept [r] s t ∧
      KeptExcept [.regs, .keyWait, .requests, .hostSide] s t) ∧
    (∀ key : Reg, s.kw = none → key.val = k → ∃ t, step s = .next t ∧ t.requests = s.requests ++ [.keyDown key] ∧
      t.pc = s.pc ∧ KeptExcept [.requests, .hostSide] s t) ∧
    (16 ≤ k → ∃ t, step s = .next t ∧ t.reply = .refused .keyOutOfRange ∧ t.pc = s.pc ∧ KeptExcept [.hostSide] s t)

/-! ### Host commands (60_exceptions.md R210 to R224; 70_reset_and_hazards.md R240 to R243) -/

/-- run(), stop(), halt() and resume(): run() is refused while a fault is recorded and else makes the engine Running; stop()
makes it Stopped; halt() and resume() set and clear the pause; each changes nothing else (R210 to R213; D24, D36). -/
def Obligations.RunStopHaltAndResumeTouchOneSwitch : Prop :=
  ∀ (s : State) (rest : List Command),
    (s.commands = .run :: rest → ∃ t, step s = .next t ∧ t.pc = s.pc ∧ t.fault = s.fault ∧
      (s.fault = none → t.runState = .running) ∧ (s.fault ≠ none → t.runState = s.runState ∧ t.reply = .refused .faultRecorded) ∧
      KeptExcept [.faultState, .hostSide] s t) ∧
    (s.commands = .stop :: rest → ∃ t, step s = .next t ∧ t.pc = s.pc ∧ t.fault = s.fault ∧ t.runState = .stopped ∧
      KeptExcept [.faultState, .hostSide] s t) ∧
    (s.commands = .halt :: rest → ∃ t, step s = .next t ∧ t.pc = s.pc ∧ t.paused = true ∧ KeptExcept [.pause, .hostSide] s t) ∧
    (s.commands = .resume :: rest → ∃ t, step s = .next t ∧ t.pc = s.pc ∧ t.paused = false ∧ KeptExcept [.pause, .hostSide] s t)

/-- reset() from any state: the values of R46 under the configuration, which stays; Audio.stop() is sent (R240, R241; the
numeric values are decision D9, the rest D32). -/
def Obligations.ResetGivesTheResetValues : Prop :=
  ∀ (s : State) (rest : List Command), s.commands = .reset :: rest →
    ∃ t, step s = .next t ∧ (∀ j, t.reg j = 0) ∧ t.index = 0 ∧ t.pc = 0x200 ∧ t.sp = 0 ∧
      t.stack.length = s.config.stackCap ∧ (∀ j, t.slot j = 0) ∧ t.dt = 0 ∧ t.st = 0 ∧
      (∀ a, a < 80 → t.readByte a = s.config.font.getD a 0) ∧ (∀ a, 80 ≤ a → t.readByte a = 0) ∧
      t.quirkShift = s.config.quirkShiftDefault ∧ t.quirkLoadStore = s.config.quirkLoadStoreDefault ∧
      t.repaint = false ∧ t.kw = none ∧ t.paused = false ∧ t.runState = .stopped ∧ t.fault = none ∧ t.soundOn = false ∧
      t.config = s.config ∧ t.requests = s.requests ++ [.audioStop] ∧ t.commands = rest

/-- initialize(config): accepted exactly when STACK_CAP is a power of two, FONT has eighty bytes and both modes are known; then
the configuration is stored and the machine reset, with the whole list of R46's values under the new configuration, and
Audio.stop() is sent; otherwise nothing changes and the error names a parameter (R205, R242, R46; D25; the numeric values are D9
and log 9, the rest D32; that the environment's answers stay is log 4; which parameter is named first is log 7). -/
def Obligations.ConfigureValidatesThenResets : Prop :=
  ∀ (s : State) (r : ConfigRequest) (rest : List Command), s.commands = .configure r :: rest →
    (∀ (k : Nat) (z : TimerAtZero) (d : DecodeMode), r.stackCap = 2 ^ k → r.font.length = 80 → r.timerAtZero = some z →
      r.decodeMode = some d → ∃ t, step s = .next t ∧
        t.config = ⟨r.stackCap, r.quirkShiftDefault, r.quirkLoadStoreDefault, r.font, z, d⟩ ∧
        (∀ j, t.reg j = 0) ∧ t.index = 0 ∧ t.pc = 0x200 ∧ t.sp = 0 ∧ t.stack = List.replicate r.stackCap 0 ∧
        t.dt = 0 ∧ t.st = 0 ∧ t.mem = [] ∧ (∀ a, a < 80 → t.readByte a = r.font.getD a 0) ∧ (∀ a, 80 ≤ a → t.readByte a = 0) ∧
        t.quirkShift = r.quirkShiftDefault ∧ t.quirkLoadStore = r.quirkLoadStoreDefault ∧
        t.repaint = false ∧ t.kw = none ∧ t.paused = false ∧ t.runState = .stopped ∧ t.fault = none ∧ t.soundOn = false ∧
        t.requests = s.requests ++ [.audioStop] ∧ Part.Kept s t .answers ∧ t.commands = rest ∧ t.reply = .done) ∧
    ((∀ k, r.stackCap ≠ 2 ^ k) ∨ r.font.length ≠ 80 ∨ r.timerAtZero = none ∨ r.decodeMode = none →
      ∃ t p, step s = .next t ∧ t.reply = .refused (.unsupportedConfiguration p) ∧ t.pc = s.pc ∧ KeptExcept [.hostSide] s t)

/-- loadToMemory(b): up to 3584 bytes go to 0x200 onward, pc becomes 0x200, no other byte and nothing else changes; a longer
sequence is refused with nothing written (R243; D23). -/
def Obligations.LoadWritesTheProgramAndSetsThePc : Prop :=
  ∀ (s : State) (bs : List Byte) (rest : List Command), s.Inv → s.commands = .loadToMemory bs :: rest →
    (bs.length ≤ 3584 → ∃ t, step s = .next t ∧ (∀ k, k < bs.length → t.readByte (0x200 + k) = bs.getD k 0) ∧
      MemoryKeptOutside 0x200 bs.length s t ∧ t.pc = 0x200 ∧ KeptExcept [.memory, .hostSide] s t) ∧
    (3584 < bs.length → ∃ t, step s = .next t ∧ t.reply = .refused .addressOverflow ∧ t.pc = s.pc ∧ KeptExcept [.hostSide] s t)

/-- ackRepaint() clears repaint; keyUp(k) only tells the Keyboard, and is refused above 15 (R223, R224; D17, D33). -/
def Obligations.AcknowledgeAndKeyUpChangeOneThing : Prop :=
  ∀ (s : State) (rest : List Command),
    (s.commands = .ackRepaint :: rest → ∃ t, step s = .next t ∧ t.repaint = false ∧ t.pc = s.pc ∧
      KeptExcept [.repaint, .hostSide] s t) ∧
    (∀ key : Reg, s.commands = .keyUp key.val :: rest → ∃ t, step s = .next t ∧ t.requests = s.requests ++ [.keyUp key] ∧
      t.pc = s.pc ∧ KeptExcept [.requests, .hostSide] s t) ∧
    (∀ k, 16 ≤ k → s.commands = .keyUp k :: rest → ∃ t, step s = .next t ∧ t.reply = .refused .keyOutOfRange ∧ t.pc = s.pc ∧
      KeptExcept [.hostSide] s t)

/-! ### Whole-machine rules -/

/-- The table of how each instruction changes pc: a faulting one leaves it, LD Vx,K leaves it until the key-down that resumes
it, the transfers and skips set it as said, every other advances it by 2, all modulo 4096 (R26). Where an instruction faults and
that it leaves pc are decisions D5 and D7 (log 13); that LD Vx,K leaves pc and that a key-down resumes it in any run state are
decisions D38 and D16 (log 16). -/
def Obligations.PcAfterEachInstruction : Prop :=
  (∀ (i : Instr) (s t : State), s.Inv → exec i s = .next t →
    (Overflows s i → t.pc = s.pc) ∧
    (¬ Overflows s i →
      match i with
      | .jp nnn => t.pc.toNat = nnn.toNat
      | .jpV0 nnn => t.pc.toNat = (nnn.toNat + (s.reg 0).toNat) % 0x1000
      | .call nnn => t.pc.toNat = nnn.toNat
      | .ret => t.pc.toNat = ((s.slot ((s.sp + s.config.stackCap - 1) % s.config.stackCap)).toNat + 2) % 0x1000
      | .ldVxK _ => t.pc = s.pc
      | _ => if isSkip i = true then (Skips s i → AdvancesBy 4 s t) ∧ (¬ Skips s i → AdvancesBy 2 s t) else AdvancesBy 2 s t)) ∧
  ∀ (s t : State) (r k : Reg) (rest : List Command), s.kw = some r → s.commands = .keyDown k.val :: rest → step s = .next t →
    AdvancesBy 2 s t

/-- VF as a flag is written by ADD, SUB, SUBN, SHR, SHL and DRW only; every other instruction leaves it unless its destination
Vx is VF (R21; that OR, AND, XOR and RND with x = F count among those is log 19). -/
def Obligations.OnlySixInstructionsWriteVFAsAFlag : Prop :=
  ∀ (i : Instr) (s t : State), exec i s = .next t → t.reg vF ≠ s.reg vF →
    match i with
    | .addXy _ _ => True
    | .subXy _ _ => True
    | .subnXy _ _ => True
    | .shrXy _ _ => True
    | .shlXy _ _ => True
    | .drw _ _ _ => True
    | .ldXkk x _ => x = vF
    | .addXkk x _ => x = vF
    | .ldXy x _ => x = vF
    | .orXy x _ => x = vF
    | .andXy x _ => x = vF
    | .xorXy x _ => x = vF
    | .rnd x _ => x = vF
    | .ldVxDt x => x = vF
    | .ldVxMem x => x = vF
    | _ => False

/-- Which instructions write I, the stack, the timers, memory, repaint and the key-wait: only the ones the spec names (R29, R31,
R33, R35, R36, R47, R52). -/
def Obligations.EachElementIsWrittenOnlyByItsInstructions : Prop :=
  ∀ (i : Instr) (s t : State), exec i s = .next t →
    (t.index ≠ s.index → match i with
      | .ldI _ => True
      | .addIVx _ => True
      | .ldFVx _ => True
      | .ldMemVx _ => s.quirkLoadStore = false
      | .ldVxMem _ => s.quirkLoadStore = false
      | _ => False) ∧
    (¬ Part.Kept s t .stack → match i with
      | .call _ => True
      | .ret => True
      | _ => False) ∧
    (t.dt ≠ s.dt → ∃ x, i = .ldDtVx x) ∧ (t.st ≠ s.st → ∃ x, i = .ldStVx x) ∧
    (¬ Part.Kept s t .memory → match i with
      | .ldBVx _ => True
      | .ldMemVx _ => True
      | _ => False) ∧
    (t.repaint ≠ s.repaint → t.repaint = true ∧ (i = .cls ∨ ∃ x y n, i = .drw x y n)) ∧
    (t.kw ≠ s.kw → ∃ x, i = .ldVxK x) ∧ Part.Kept s t .pause ∧ Part.Kept s t .sound ∧ Part.Kept s t .hostSide

/-- One instruction's effect on what instructions can read does not depend on st, repaint, the key-wait, the pause, the run
state, the fault record, the sound mirror, the requests sent or the host's side: executed in two states that agree on all that an
instruction reads, it leaves two states that agree on it (R33, R35, R37, R40, R47). It speaks of exec alone, not of a run, where the
cycle tests the fault record and the key-wait and the host's commands come between (log 21). -/
def Obligations.InstructionsDoNotReadTheControlState : Prop :=
  ∀ (i : Instr) (s s' t : State), SameProgramView s s' → exec i s = .next t →
    ∃ t', exec i s' = .next t' ∧ SameProgramView t t'
end

