-- ==== Sys2Proof/Laws/Decode.lean ====
section
/-! SUPPORT. The fields of a word assembled in each format (spec/30_encoding.md R71, R72, R88). -/

namespace Sys2Proof

/-! ### Fields as numbers -/

theorem fieldFamily_toNat (w : Word) : (fieldFamily w).toNat = w.toNat / 0x1000 := by
  have := w.isLt
  simp only [fieldFamily, BitVec.extractLsb, BitVec.extractLsb'_toNat, Nat.shiftRight_eq_div_pow]; omega

theorem fieldX_val (w : Word) : (fieldX w).val = w.toNat / 0x100 % 16 := by
  simp [fieldX, BitVec.extractLsb, Nat.shiftRight_eq_div_pow]

theorem fieldY_val (w : Word) : (fieldY w).val = w.toNat / 0x10 % 16 := by
  simp [fieldY, BitVec.extractLsb, Nat.shiftRight_eq_div_pow]

theorem fieldN_val (w : Word) : (fieldN w).val = w.toNat % 16 := by
  simp [fieldN, BitVec.extractLsb]

theorem fieldKK_toNat (w : Word) : (fieldKK w).toNat = w.toNat % 0x100 := by
  simp [fieldKK, BitVec.extractLsb]

theorem fieldNNN_toNat (w : Word) : (fieldNNN w).toNat = w.toNat % 0x1000 := by
  simp [fieldNNN, BitVec.extractLsb]

/-! ### Assembled words as numbers -/

theorem wordNNN_toNat (f : BitVec 4) (nnn : Addr12) : (wordNNN f nnn).toNat = f.toNat * 0x1000 + nnn.toNat := by
  have := f.isLt; have := nnn.isLt
  simp only [wordNNN, BitVec.toNat_ofNat]; omega

theorem wordXKK_toNat (f : BitVec 4) (x : Reg) (kk : Byte) :
    (wordXKK f x kk).toNat = f.toNat * 0x1000 + x.val * 0x100 + kk.toNat := by
  have := f.isLt; have := kk.isLt
  simp only [wordXKK, BitVec.toNat_ofNat]; omega

theorem wordXYN_toNat (f : BitVec 4) (x y n : Fin 16) :
    (wordXYN f x y n).toNat = f.toNat * 0x1000 + x.val * 0x100 + y.val * 0x10 + n.val := by
  have := f.isLt
  simp only [wordXYN, BitVec.toNat_ofNat]; omega

/-! ### Fields of assembled words -/

@[simp] theorem fieldFamily_wordNNN (f : BitVec 4) (nnn : Addr12) : fieldFamily (wordNNN f nnn) = f := by
  apply BitVec.eq_of_toNat_eq; rw [fieldFamily_toNat, wordNNN_toNat]; omega

@[simp] theorem fieldNNN_wordNNN (f : BitVec 4) (nnn : Addr12) : fieldNNN (wordNNN f nnn) = nnn := by
  apply BitVec.eq_of_toNat_eq; rw [fieldNNN_toNat, wordNNN_toNat]; omega

@[simp] theorem fieldFamily_wordXKK (f : BitVec 4) (x : Reg) (kk : Byte) : fieldFamily (wordXKK f x kk) = f := by
  apply BitVec.eq_of_toNat_eq; rw [fieldFamily_toNat, wordXKK_toNat]; omega

@[simp] theorem fieldX_wordXKK (f : BitVec 4) (x : Reg) (kk : Byte) : fieldX (wordXKK f x kk) = x := by
  apply Fin.ext; rw [fieldX_val, wordXKK_toNat]; omega

@[simp] theorem fieldKK_wordXKK (f : BitVec 4) (x : Reg) (kk : Byte) : fieldKK (wordXKK f x kk) = kk := by
  apply BitVec.eq_of_toNat_eq; rw [fieldKK_toNat, wordXKK_toNat]; omega

theorem fieldN_wordXKK (f : BitVec 4) (x : Reg) (kk : Byte) : (fieldN (wordXKK f x kk)).val = kk.toNat % 16 := by
  rw [fieldN_val, wordXKK_toNat]; omega

@[simp] theorem fieldFamily_wordXYN (f : BitVec 4) (x y n : Fin 16) : fieldFamily (wordXYN f x y n) = f := by
  apply BitVec.eq_of_toNat_eq; rw [fieldFamily_toNat, wordXYN_toNat]; omega

@[simp] theorem fieldX_wordXYN (f : BitVec 4) (x y n : Fin 16) : fieldX (wordXYN f x y n) = x := by
  apply Fin.ext; rw [fieldX_val, wordXYN_toNat]; omega

@[simp] theorem fieldY_wordXYN (f : BitVec 4) (x y n : Fin 16) : fieldY (wordXYN f x y n) = y := by
  apply Fin.ext; rw [fieldY_val, wordXYN_toNat]; omega

@[simp] theorem fieldN_wordXYN (f : BitVec 4) (x y n : Fin 16) : fieldN (wordXYN f x y n) = n := by
  apply Fin.ext; rw [fieldN_val, wordXYN_toNat]; omega

/-- Two words with the same fields are the same word. -/
theorem word_ext_fields {v w : Word} (hf : fieldFamily v = fieldFamily w) (hn : fieldNNN v = fieldNNN w) : v = w := by
  have h1 := fieldFamily_toNat v
  have h2 := fieldFamily_toNat w
  have h3 := fieldNNN_toNat v
  have h4 := fieldNNN_toNat w
  rw [hf] at h1; rw [hn] at h3
  apply BitVec.eq_of_toNat_eq; omega

/-! ### Words and bytes (20_memory.md R53) -/

theorem wordOfBytes_toNat (hi lo : Byte) : (wordOfBytes hi lo).toNat = hi.toNat * 0x100 + lo.toNat := by
  have := lo.isLt
  simp only [wordOfBytes, BitVec.toNat_append]
  rw [← Nat.shiftLeft_add_eq_or_of_lt this, Nat.shiftLeft_eq]

theorem wordOfBytes_of_word (w : Word) : wordOfBytes (w.extractLsb 15 8) (w.extractLsb 7 0) = w := by
  have := w.isLt
  apply BitVec.eq_of_toNat_eq
  rw [wordOfBytes_toNat]
  simp only [BitVec.extractLsb, BitVec.extractLsb'_toNat, Nat.shiftRight_eq_div_pow]; omega

/-- The high byte of an instruction word is the one at the lower address (20_memory.md R53). -/
@[simp] theorem wordOfBytes_hi (hi lo : Byte) : (wordOfBytes hi lo).extractLsb 15 8 = hi := by
  have := lo.isLt
  apply BitVec.eq_of_toNat_eq
  simp [wordOfBytes_toNat, Nat.shiftRight_eq_div_pow]
  omega

@[simp] theorem wordOfBytes_lo (hi lo : Byte) : (wordOfBytes hi lo).extractLsb 7 0 = lo := by
  apply BitVec.eq_of_toNat_eq
  simpa [wordOfBytes_toNat] using lo.isLt

/-! ### Masks of the opcode table -/

/-- A word under a mask of its top nibble and its `k` low bits. -/
theorem word_and_toNat (w : Word) {k m : Nat} (h : (k, m) = (0, 0xF000) ∨ (k, m) = (4, 0xF00F) ∨ (k, m) = (8, 0xF0FF)) :
    (w &&& BitVec.ofNat 16 m).toNat = w.toNat / 0x1000 * 0x1000 + w.toNat % 2 ^ k := by
  have hm : k ≤ 12 ∧ ∀ i, i < 16 → (m % 2 ^ 16).testBit i = (decide (12 ≤ i) || decide (i < k)) := by
    rcases h with h | h | h <;> obtain ⟨rfl, rfl⟩ := Prod.mk.inj h <;> decide
  have hlt : w.toNat % 2 ^ k < 2 ^ 12 :=
    lt_of_lt_of_le (Nat.mod_lt _ (by positivity)) (Nat.pow_le_pow_right (by norm_num) hm.1)
  rw [Nat.mul_comm]
  apply Nat.eq_of_testBit_eq
  intro i
  rw [show (0x1000 : Nat) = 2 ^ 12 from rfl, Nat.testBit_two_pow_mul_add _ hlt, BitVec.toNat_and, Nat.testBit_and,
    Nat.testBit_mod_two_pow, Nat.testBit_div_two_pow, BitVec.toNat_ofNat]
  by_cases hi : i < 16
  · rw [hm.2 i hi]
    by_cases h12 : i < 12
    · simp [h12, Nat.not_le.2 h12, Bool.and_comm]
    · simp [h12, Nat.not_lt.1 h12, show i - 12 + 12 = i by omega]
  · have : w.toNat.testBit i = false :=
      Nat.testBit_lt_two_pow (lt_of_lt_of_le w.isLt (Nat.pow_le_pow_right (by norm_num) (by omega)))
    rw [if_neg (by omega), show i - 12 + 12 = i by omega, this, Bool.false_and]

end Sys2Proof
end

