-- ==== Sys2Proof/Laws/State.lean ====
section
/-! SUPPORT. What each named update of the state does to each field: one lemma per field per update, by rfl (for the block load, by unfolding it). -/

namespace Sys2Proof.Machine

/-! ### setReg -/

@[simp] theorem State.setReg_v (s : State) (x : Reg) (b : Byte) : (s.setReg x b).v = s.v.set x.val b x.isLt := rfl
@[simp] theorem State.setReg_index (s : State) (x : Reg) (b : Byte) : (s.setReg x b).index = s.index := rfl
@[simp] theorem State.setReg_pc (s : State) (x : Reg) (b : Byte) : (s.setReg x b).pc = s.pc := rfl
@[simp] theorem State.setReg_sp (s : State) (x : Reg) (b : Byte) : (s.setReg x b).sp = s.sp := rfl
@[simp] theorem State.setReg_stack (s : State) (x : Reg) (b : Byte) : (s.setReg x b).stack = s.stack := rfl
@[simp] theorem State.setReg_dt (s : State) (x : Reg) (b : Byte) : (s.setReg x b).dt = s.dt := rfl
@[simp] theorem State.setReg_st (s : State) (x : Reg) (b : Byte) : (s.setReg x b).st = s.st := rfl
@[simp] theorem State.setReg_mem (s : State) (x : Reg) (b : Byte) : (s.setReg x b).mem = s.mem := rfl
@[simp] theorem State.setReg_quirkShift (s : State) (x : Reg) (b : Byte) : (s.setReg x b).quirkShift = s.quirkShift := rfl
@[simp] theorem State.setReg_quirkLoadStore (s : State) (x : Reg) (b : Byte) : (s.setReg x b).quirkLoadStore = s.quirkLoadStore := rfl
@[simp] theorem State.setReg_repaint (s : State) (x : Reg) (b : Byte) : (s.setReg x b).repaint = s.repaint := rfl
@[simp] theorem State.setReg_kw (s : State) (x : Reg) (b : Byte) : (s.setReg x b).kw = s.kw := rfl
@[simp] theorem State.setReg_paused (s : State) (x : Reg) (b : Byte) : (s.setReg x b).paused = s.paused := rfl
@[simp] theorem State.setReg_runState (s : State) (x : Reg) (b : Byte) : (s.setReg x b).runState = s.runState := rfl
@[simp] theorem State.setReg_fault (s : State) (x : Reg) (b : Byte) : (s.setReg x b).fault = s.fault := rfl
@[simp] theorem State.setReg_soundOn (s : State) (x : Reg) (b : Byte) : (s.setReg x b).soundOn = s.soundOn := rfl
@[simp] theorem State.setReg_config (s : State) (x : Reg) (b : Byte) : (s.setReg x b).config = s.config := rfl
@[simp] theorem State.setReg_commands (s : State) (x : Reg) (b : Byte) : (s.setReg x b).commands = s.commands := rfl
@[simp] theorem State.setReg_reply (s : State) (x : Reg) (b : Byte) : (s.setReg x b).reply = s.reply := rfl
@[simp] theorem State.setReg_requests (s : State) (x : Reg) (b : Byte) : (s.setReg x b).requests = s.requests := rfl
@[simp] theorem State.setReg_randomBytes (s : State) (x : Reg) (b : Byte) : (s.setReg x b).randomBytes = s.randomBytes := rfl
@[simp] theorem State.setReg_keyAnswers (s : State) (x : Reg) (b : Byte) : (s.setReg x b).keyAnswers = s.keyAnswers := rfl
@[simp] theorem State.setReg_collisions (s : State) (x : Reg) (b : Byte) : (s.setReg x b).collisions = s.collisions := rfl
@[simp] theorem State.setReg_draws (s : State) (x : Reg) (b : Byte) : (s.setReg x b).draws = s.draws := rfl

/-! ### setRegsUpTo -/

@[simp] theorem State.setRegsUpTo_v (s : State) (x : Reg) (bs : List Byte) : (s.setRegsUpTo x bs).v = Vector.ofFn (fun j : Reg => if j ≤ x then bs.getD j.val 0 else s.v[j]) := by simp only [State.setRegsUpTo]
@[simp] theorem State.setRegsUpTo_index (s : State) (x : Reg) (bs : List Byte) : (s.setRegsUpTo x bs).index = s.index := by simp only [State.setRegsUpTo]
@[simp] theorem State.setRegsUpTo_pc (s : State) (x : Reg) (bs : List Byte) : (s.setRegsUpTo x bs).pc = s.pc := by simp only [State.setRegsUpTo]
@[simp] theorem State.setRegsUpTo_sp (s : State) (x : Reg) (bs : List Byte) : (s.setRegsUpTo x bs).sp = s.sp := by simp only [State.setRegsUpTo]
@[simp] theorem State.setRegsUpTo_stack (s : State) (x : Reg) (bs : List Byte) : (s.setRegsUpTo x bs).stack = s.stack := by simp only [State.setRegsUpTo]
@[simp] theorem State.setRegsUpTo_dt (s : State) (x : Reg) (bs : List Byte) : (s.setRegsUpTo x bs).dt = s.dt := by simp only [State.setRegsUpTo]
@[simp] theorem State.setRegsUpTo_st (s : State) (x : Reg) (bs : List Byte) : (s.setRegsUpTo x bs).st = s.st := by simp only [State.setRegsUpTo]
@[simp] theorem State.setRegsUpTo_mem (s : State) (x : Reg) (bs : List Byte) : (s.setRegsUpTo x bs).mem = s.mem := by simp only [State.setRegsUpTo]
@[simp] theorem State.setRegsUpTo_quirkShift (s : State) (x : Reg) (bs : List Byte) : (s.setRegsUpTo x bs).quirkShift = s.quirkShift := by simp only [State.setRegsUpTo]
@[simp] theorem State.setRegsUpTo_quirkLoadStore (s : State) (x : Reg) (bs : List Byte) : (s.setRegsUpTo x bs).quirkLoadStore = s.quirkLoadStore := by simp only [State.setRegsUpTo]
@[simp] theorem State.setRegsUpTo_repaint (s : State) (x : Reg) (bs : List Byte) : (s.setRegsUpTo x bs).repaint = s.repaint := by simp only [State.setRegsUpTo]
@[simp] theorem State.setRegsUpTo_kw (s : State) (x : Reg) (bs : List Byte) : (s.setRegsUpTo x bs).kw = s.kw := by simp only [State.setRegsUpTo]
@[simp] theorem State.setRegsUpTo_paused (s : State) (x : Reg) (bs : List Byte) : (s.setRegsUpTo x bs).paused = s.paused := by simp only [State.setRegsUpTo]
@[simp] theorem State.setRegsUpTo_runState (s : State) (x : Reg) (bs : List Byte) : (s.setRegsUpTo x bs).runState = s.runState := by simp only [State.setRegsUpTo]
@[simp] theorem State.setRegsUpTo_fault (s : State) (x : Reg) (bs : List Byte) : (s.setRegsUpTo x bs).fault = s.fault := by simp only [State.setRegsUpTo]
@[simp] theorem State.setRegsUpTo_soundOn (s : State) (x : Reg) (bs : List Byte) : (s.setRegsUpTo x bs).soundOn = s.soundOn := by simp only [State.setRegsUpTo]
@[simp] theorem State.setRegsUpTo_config (s : State) (x : Reg) (bs : List Byte) : (s.setRegsUpTo x bs).config = s.config := by simp only [State.setRegsUpTo]
@[simp] theorem State.setRegsUpTo_commands (s : State) (x : Reg) (bs : List Byte) : (s.setRegsUpTo x bs).commands = s.commands := by simp only [State.setRegsUpTo]
@[simp] theorem State.setRegsUpTo_reply (s : State) (x : Reg) (bs : List Byte) : (s.setRegsUpTo x bs).reply = s.reply := by simp only [State.setRegsUpTo]
@[simp] theorem State.setRegsUpTo_requests (s : State) (x : Reg) (bs : List Byte) : (s.setRegsUpTo x bs).requests = s.requests := by simp only [State.setRegsUpTo]
@[simp] theorem State.setRegsUpTo_randomBytes (s : State) (x : Reg) (bs : List Byte) : (s.setRegsUpTo x bs).randomBytes = s.randomBytes := by simp only [State.setRegsUpTo]
@[simp] theorem State.setRegsUpTo_keyAnswers (s : State) (x : Reg) (bs : List Byte) : (s.setRegsUpTo x bs).keyAnswers = s.keyAnswers := by simp only [State.setRegsUpTo]
@[simp] theorem State.setRegsUpTo_collisions (s : State) (x : Reg) (bs : List Byte) : (s.setRegsUpTo x bs).collisions = s.collisions := by simp only [State.setRegsUpTo]
@[simp] theorem State.setRegsUpTo_draws (s : State) (x : Reg) (bs : List Byte) : (s.setRegsUpTo x bs).draws = s.draws := by simp only [State.setRegsUpTo]

/-! ### setPc -/

@[simp] theorem State.setPc_v (s : State) (a : Word) : (s.setPc a).v = s.v := rfl
@[simp] theorem State.setPc_index (s : State) (a : Word) : (s.setPc a).index = s.index := rfl
@[simp] theorem State.setPc_pc (s : State) (a : Word) : (s.setPc a).pc = maskAddr a := rfl
@[simp] theorem State.setPc_sp (s : State) (a : Word) : (s.setPc a).sp = s.sp := rfl
@[simp] theorem State.setPc_stack (s : State) (a : Word) : (s.setPc a).stack = s.stack := rfl
@[simp] theorem State.setPc_dt (s : State) (a : Word) : (s.setPc a).dt = s.dt := rfl
@[simp] theorem State.setPc_st (s : State) (a : Word) : (s.setPc a).st = s.st := rfl
@[simp] theorem State.setPc_mem (s : State) (a : Word) : (s.setPc a).mem = s.mem := rfl
@[simp] theorem State.setPc_quirkShift (s : State) (a : Word) : (s.setPc a).quirkShift = s.quirkShift := rfl
@[simp] theorem State.setPc_quirkLoadStore (s : State) (a : Word) : (s.setPc a).quirkLoadStore = s.quirkLoadStore := rfl
@[simp] theorem State.setPc_repaint (s : State) (a : Word) : (s.setPc a).repaint = s.repaint := rfl
@[simp] theorem State.setPc_kw (s : State) (a : Word) : (s.setPc a).kw = s.kw := rfl
@[simp] theorem State.setPc_paused (s : State) (a : Word) : (s.setPc a).paused = s.paused := rfl
@[simp] theorem State.setPc_runState (s : State) (a : Word) : (s.setPc a).runState = s.runState := rfl
@[simp] theorem State.setPc_fault (s : State) (a : Word) : (s.setPc a).fault = s.fault := rfl
@[simp] theorem State.setPc_soundOn (s : State) (a : Word) : (s.setPc a).soundOn = s.soundOn := rfl
@[simp] theorem State.setPc_config (s : State) (a : Word) : (s.setPc a).config = s.config := rfl
@[simp] theorem State.setPc_commands (s : State) (a : Word) : (s.setPc a).commands = s.commands := rfl
@[simp] theorem State.setPc_reply (s : State) (a : Word) : (s.setPc a).reply = s.reply := rfl
@[simp] theorem State.setPc_requests (s : State) (a : Word) : (s.setPc a).requests = s.requests := rfl
@[simp] theorem State.setPc_randomBytes (s : State) (a : Word) : (s.setPc a).randomBytes = s.randomBytes := rfl
@[simp] theorem State.setPc_keyAnswers (s : State) (a : Word) : (s.setPc a).keyAnswers = s.keyAnswers := rfl
@[simp] theorem State.setPc_collisions (s : State) (a : Word) : (s.setPc a).collisions = s.collisions := rfl
@[simp] theorem State.setPc_draws (s : State) (a : Word) : (s.setPc a).draws = s.draws := rfl

/-! ### adv -/

@[simp] theorem State.adv_v (s : State) (k : Word) : (s.adv k).v = s.v := rfl
@[simp] theorem State.adv_index (s : State) (k : Word) : (s.adv k).index = s.index := rfl
@[simp] theorem State.adv_pc (s : State) (k : Word) : (s.adv k).pc = maskAddr (s.pc + k) := rfl
@[simp] theorem State.adv_sp (s : State) (k : Word) : (s.adv k).sp = s.sp := rfl
@[simp] theorem State.adv_stack (s : State) (k : Word) : (s.adv k).stack = s.stack := rfl
@[simp] theorem State.adv_dt (s : State) (k : Word) : (s.adv k).dt = s.dt := rfl
@[simp] theorem State.adv_st (s : State) (k : Word) : (s.adv k).st = s.st := rfl
@[simp] theorem State.adv_mem (s : State) (k : Word) : (s.adv k).mem = s.mem := rfl
@[simp] theorem State.adv_quirkShift (s : State) (k : Word) : (s.adv k).quirkShift = s.quirkShift := rfl
@[simp] theorem State.adv_quirkLoadStore (s : State) (k : Word) : (s.adv k).quirkLoadStore = s.quirkLoadStore := rfl
@[simp] theorem State.adv_repaint (s : State) (k : Word) : (s.adv k).repaint = s.repaint := rfl
@[simp] theorem State.adv_kw (s : State) (k : Word) : (s.adv k).kw = s.kw := rfl
@[simp] theorem State.adv_paused (s : State) (k : Word) : (s.adv k).paused = s.paused := rfl
@[simp] theorem State.adv_runState (s : State) (k : Word) : (s.adv k).runState = s.runState := rfl
@[simp] theorem State.adv_fault (s : State) (k : Word) : (s.adv k).fault = s.fault := rfl
@[simp] theorem State.adv_soundOn (s : State) (k : Word) : (s.adv k).soundOn = s.soundOn := rfl
@[simp] theorem State.adv_config (s : State) (k : Word) : (s.adv k).config = s.config := rfl
@[simp] theorem State.adv_commands (s : State) (k : Word) : (s.adv k).commands = s.commands := rfl
@[simp] theorem State.adv_reply (s : State) (k : Word) : (s.adv k).reply = s.reply := rfl
@[simp] theorem State.adv_requests (s : State) (k : Word) : (s.adv k).requests = s.requests := rfl
@[simp] theorem State.adv_randomBytes (s : State) (k : Word) : (s.adv k).randomBytes = s.randomBytes := rfl
@[simp] theorem State.adv_keyAnswers (s : State) (k : Word) : (s.adv k).keyAnswers = s.keyAnswers := rfl
@[simp] theorem State.adv_collisions (s : State) (k : Word) : (s.adv k).collisions = s.collisions := rfl
@[simp] theorem State.adv_draws (s : State) (k : Word) : (s.adv k).draws = s.draws := rfl

/-! ### skipIf -/

@[simp] theorem State.skipIf_v (s : State) (c : Bool) : (s.skipIf c).v = s.v := rfl
@[simp] theorem State.skipIf_index (s : State) (c : Bool) : (s.skipIf c).index = s.index := rfl
@[simp] theorem State.skipIf_pc (s : State) (c : Bool) : (s.skipIf c).pc = maskAddr (s.pc + if c then 4 else 2) := rfl
@[simp] theorem State.skipIf_sp (s : State) (c : Bool) : (s.skipIf c).sp = s.sp := rfl
@[simp] theorem State.skipIf_stack (s : State) (c : Bool) : (s.skipIf c).stack = s.stack := rfl
@[simp] theorem State.skipIf_dt (s : State) (c : Bool) : (s.skipIf c).dt = s.dt := rfl
@[simp] theorem State.skipIf_st (s : State) (c : Bool) : (s.skipIf c).st = s.st := rfl
@[simp] theorem State.skipIf_mem (s : State) (c : Bool) : (s.skipIf c).mem = s.mem := rfl
@[simp] theorem State.skipIf_quirkShift (s : State) (c : Bool) : (s.skipIf c).quirkShift = s.quirkShift := rfl
@[simp] theorem State.skipIf_quirkLoadStore (s : State) (c : Bool) : (s.skipIf c).quirkLoadStore = s.quirkLoadStore := rfl
@[simp] theorem State.skipIf_repaint (s : State) (c : Bool) : (s.skipIf c).repaint = s.repaint := rfl
@[simp] theorem State.skipIf_kw (s : State) (c : Bool) : (s.skipIf c).kw = s.kw := rfl
@[simp] theorem State.skipIf_paused (s : State) (c : Bool) : (s.skipIf c).paused = s.paused := rfl
@[simp] theorem State.skipIf_runState (s : State) (c : Bool) : (s.skipIf c).runState = s.runState := rfl
@[simp] theorem State.skipIf_fault (s : State) (c : Bool) : (s.skipIf c).fault = s.fault := rfl
@[simp] theorem State.skipIf_soundOn (s : State) (c : Bool) : (s.skipIf c).soundOn = s.soundOn := rfl
@[simp] theorem State.skipIf_config (s : State) (c : Bool) : (s.skipIf c).config = s.config := rfl
@[simp] theorem State.skipIf_commands (s : State) (c : Bool) : (s.skipIf c).commands = s.commands := rfl
@[simp] theorem State.skipIf_reply (s : State) (c : Bool) : (s.skipIf c).reply = s.reply := rfl
@[simp] theorem State.skipIf_requests (s : State) (c : Bool) : (s.skipIf c).requests = s.requests := rfl
@[simp] theorem State.skipIf_randomBytes (s : State) (c : Bool) : (s.skipIf c).randomBytes = s.randomBytes := rfl
@[simp] theorem State.skipIf_keyAnswers (s : State) (c : Bool) : (s.skipIf c).keyAnswers = s.keyAnswers := rfl
@[simp] theorem State.skipIf_collisions (s : State) (c : Bool) : (s.skipIf c).collisions = s.collisions := rfl
@[simp] theorem State.skipIf_draws (s : State) (c : Bool) : (s.skipIf c).draws = s.draws := rfl

/-! ### setIndex -/

@[simp] theorem State.setIndex_v (s : State) (a : Word) : (s.setIndex a).v = s.v := rfl
@[simp] theorem State.setIndex_index (s : State) (a : Word) : (s.setIndex a).index = maskAddr a := rfl
@[simp] theorem State.setIndex_pc (s : State) (a : Word) : (s.setIndex a).pc = s.pc := rfl
@[simp] theorem State.setIndex_sp (s : State) (a : Word) : (s.setIndex a).sp = s.sp := rfl
@[simp] theorem State.setIndex_stack (s : State) (a : Word) : (s.setIndex a).stack = s.stack := rfl
@[simp] theorem State.setIndex_dt (s : State) (a : Word) : (s.setIndex a).dt = s.dt := rfl
@[simp] theorem State.setIndex_st (s : State) (a : Word) : (s.setIndex a).st = s.st := rfl
@[simp] theorem State.setIndex_mem (s : State) (a : Word) : (s.setIndex a).mem = s.mem := rfl
@[simp] theorem State.setIndex_quirkShift (s : State) (a : Word) : (s.setIndex a).quirkShift = s.quirkShift := rfl
@[simp] theorem State.setIndex_quirkLoadStore (s : State) (a : Word) : (s.setIndex a).quirkLoadStore = s.quirkLoadStore := rfl
@[simp] theorem State.setIndex_repaint (s : State) (a : Word) : (s.setIndex a).repaint = s.repaint := rfl
@[simp] theorem State.setIndex_kw (s : State) (a : Word) : (s.setIndex a).kw = s.kw := rfl
@[simp] theorem State.setIndex_paused (s : State) (a : Word) : (s.setIndex a).paused = s.paused := rfl
@[simp] theorem State.setIndex_runState (s : State) (a : Word) : (s.setIndex a).runState = s.runState := rfl
@[simp] theorem State.setIndex_fault (s : State) (a : Word) : (s.setIndex a).fault = s.fault := rfl
@[simp] theorem State.setIndex_soundOn (s : State) (a : Word) : (s.setIndex a).soundOn = s.soundOn := rfl
@[simp] theorem State.setIndex_config (s : State) (a : Word) : (s.setIndex a).config = s.config := rfl
@[simp] theorem State.setIndex_commands (s : State) (a : Word) : (s.setIndex a).commands = s.commands := rfl
@[simp] theorem State.setIndex_reply (s : State) (a : Word) : (s.setIndex a).reply = s.reply := rfl
@[simp] theorem State.setIndex_requests (s : State) (a : Word) : (s.setIndex a).requests = s.requests := rfl
@[simp] theorem State.setIndex_randomBytes (s : State) (a : Word) : (s.setIndex a).randomBytes = s.randomBytes := rfl
@[simp] theorem State.setIndex_keyAnswers (s : State) (a : Word) : (s.setIndex a).keyAnswers = s.keyAnswers := rfl
@[simp] theorem State.setIndex_collisions (s : State) (a : Word) : (s.setIndex a).collisions = s.collisions := rfl
@[simp] theorem State.setIndex_draws (s : State) (a : Word) : (s.setIndex a).draws = s.draws := rfl

/-! ### setDt -/

@[simp] theorem State.setDt_v (s : State) (b : Byte) : (s.setDt b).v = s.v := rfl
@[simp] theorem State.setDt_index (s : State) (b : Byte) : (s.setDt b).index = s.index := rfl
@[simp] theorem State.setDt_pc (s : State) (b : Byte) : (s.setDt b).pc = s.pc := rfl
@[simp] theorem State.setDt_sp (s : State) (b : Byte) : (s.setDt b).sp = s.sp := rfl
@[simp] theorem State.setDt_stack (s : State) (b : Byte) : (s.setDt b).stack = s.stack := rfl
@[simp] theorem State.setDt_dt (s : State) (b : Byte) : (s.setDt b).dt = b := rfl
@[simp] theorem State.setDt_st (s : State) (b : Byte) : (s.setDt b).st = s.st := rfl
@[simp] theorem State.setDt_mem (s : State) (b : Byte) : (s.setDt b).mem = s.mem := rfl
@[simp] theorem State.setDt_quirkShift (s : State) (b : Byte) : (s.setDt b).quirkShift = s.quirkShift := rfl
@[simp] theorem State.setDt_quirkLoadStore (s : State) (b : Byte) : (s.setDt b).quirkLoadStore = s.quirkLoadStore := rfl
@[simp] theorem State.setDt_repaint (s : State) (b : Byte) : (s.setDt b).repaint = s.repaint := rfl
@[simp] theorem State.setDt_kw (s : State) (b : Byte) : (s.setDt b).kw = s.kw := rfl
@[simp] theorem State.setDt_paused (s : State) (b : Byte) : (s.setDt b).paused = s.paused := rfl
@[simp] theorem State.setDt_runState (s : State) (b : Byte) : (s.setDt b).runState = s.runState := rfl
@[simp] theorem State.setDt_fault (s : State) (b : Byte) : (s.setDt b).fault = s.fault := rfl
@[simp] theorem State.setDt_soundOn (s : State) (b : Byte) : (s.setDt b).soundOn = s.soundOn := rfl
@[simp] theorem State.setDt_config (s : State) (b : Byte) : (s.setDt b).config = s.config := rfl
@[simp] theorem State.setDt_commands (s : State) (b : Byte) : (s.setDt b).commands = s.commands := rfl
@[simp] theorem State.setDt_reply (s : State) (b : Byte) : (s.setDt b).reply = s.reply := rfl
@[simp] theorem State.setDt_requests (s : State) (b : Byte) : (s.setDt b).requests = s.requests := rfl
@[simp] theorem State.setDt_randomBytes (s : State) (b : Byte) : (s.setDt b).randomBytes = s.randomBytes := rfl
@[simp] theorem State.setDt_keyAnswers (s : State) (b : Byte) : (s.setDt b).keyAnswers = s.keyAnswers := rfl
@[simp] theorem State.setDt_collisions (s : State) (b : Byte) : (s.setDt b).collisions = s.collisions := rfl
@[simp] theorem State.setDt_draws (s : State) (b : Byte) : (s.setDt b).draws = s.draws := rfl

/-! ### setSt -/

@[simp] theorem State.setSt_v (s : State) (b : Byte) : (s.setSt b).v = s.v := rfl
@[simp] theorem State.setSt_index (s : State) (b : Byte) : (s.setSt b).index = s.index := rfl
@[simp] theorem State.setSt_pc (s : State) (b : Byte) : (s.setSt b).pc = s.pc := rfl
@[simp] theorem State.setSt_sp (s : State) (b : Byte) : (s.setSt b).sp = s.sp := rfl
@[simp] theorem State.setSt_stack (s : State) (b : Byte) : (s.setSt b).stack = s.stack := rfl
@[simp] theorem State.setSt_dt (s : State) (b : Byte) : (s.setSt b).dt = s.dt := rfl
@[simp] theorem State.setSt_st (s : State) (b : Byte) : (s.setSt b).st = b := rfl
@[simp] theorem State.setSt_mem (s : State) (b : Byte) : (s.setSt b).mem = s.mem := rfl
@[simp] theorem State.setSt_quirkShift (s : State) (b : Byte) : (s.setSt b).quirkShift = s.quirkShift := rfl
@[simp] theorem State.setSt_quirkLoadStore (s : State) (b : Byte) : (s.setSt b).quirkLoadStore = s.quirkLoadStore := rfl
@[simp] theorem State.setSt_repaint (s : State) (b : Byte) : (s.setSt b).repaint = s.repaint := rfl
@[simp] theorem State.setSt_kw (s : State) (b : Byte) : (s.setSt b).kw = s.kw := rfl
@[simp] theorem State.setSt_paused (s : State) (b : Byte) : (s.setSt b).paused = s.paused := rfl
@[simp] theorem State.setSt_runState (s : State) (b : Byte) : (s.setSt b).runState = s.runState := rfl
@[simp] theorem State.setSt_fault (s : State) (b : Byte) : (s.setSt b).fault = s.fault := rfl
@[simp] theorem State.setSt_soundOn (s : State) (b : Byte) : (s.setSt b).soundOn = s.soundOn := rfl
@[simp] theorem State.setSt_config (s : State) (b : Byte) : (s.setSt b).config = s.config := rfl
@[simp] theorem State.setSt_commands (s : State) (b : Byte) : (s.setSt b).commands = s.commands := rfl
@[simp] theorem State.setSt_reply (s : State) (b : Byte) : (s.setSt b).reply = s.reply := rfl
@[simp] theorem State.setSt_requests (s : State) (b : Byte) : (s.setSt b).requests = s.requests := rfl
@[simp] theorem State.setSt_randomBytes (s : State) (b : Byte) : (s.setSt b).randomBytes = s.randomBytes := rfl
@[simp] theorem State.setSt_keyAnswers (s : State) (b : Byte) : (s.setSt b).keyAnswers = s.keyAnswers := rfl
@[simp] theorem State.setSt_collisions (s : State) (b : Byte) : (s.setSt b).collisions = s.collisions := rfl
@[simp] theorem State.setSt_draws (s : State) (b : Byte) : (s.setSt b).draws = s.draws := rfl

/-! ### setRepaint -/

@[simp] theorem State.setRepaint_v (s : State) (b : Bool) : (s.setRepaint b).v = s.v := rfl
@[simp] theorem State.setRepaint_index (s : State) (b : Bool) : (s.setRepaint b).index = s.index := rfl
@[simp] theorem State.setRepaint_pc (s : State) (b : Bool) : (s.setRepaint b).pc = s.pc := rfl
@[simp] theorem State.setRepaint_sp (s : State) (b : Bool) : (s.setRepaint b).sp = s.sp := rfl
@[simp] theorem State.setRepaint_stack (s : State) (b : Bool) : (s.setRepaint b).stack = s.stack := rfl
@[simp] theorem State.setRepaint_dt (s : State) (b : Bool) : (s.setRepaint b).dt = s.dt := rfl
@[simp] theorem State.setRepaint_st (s : State) (b : Bool) : (s.setRepaint b).st = s.st := rfl
@[simp] theorem State.setRepaint_mem (s : State) (b : Bool) : (s.setRepaint b).mem = s.mem := rfl
@[simp] theorem State.setRepaint_quirkShift (s : State) (b : Bool) : (s.setRepaint b).quirkShift = s.quirkShift := rfl
@[simp] theorem State.setRepaint_quirkLoadStore (s : State) (b : Bool) : (s.setRepaint b).quirkLoadStore = s.quirkLoadStore := rfl
@[simp] theorem State.setRepaint_repaint (s : State) (b : Bool) : (s.setRepaint b).repaint = b := rfl
@[simp] theorem State.setRepaint_kw (s : State) (b : Bool) : (s.setRepaint b).kw = s.kw := rfl
@[simp] theorem State.setRepaint_paused (s : State) (b : Bool) : (s.setRepaint b).paused = s.paused := rfl
@[simp] theorem State.setRepaint_runState (s : State) (b : Bool) : (s.setRepaint b).runState = s.runState := rfl
@[simp] theorem State.setRepaint_fault (s : State) (b : Bool) : (s.setRepaint b).fault = s.fault := rfl
@[simp] theorem State.setRepaint_soundOn (s : State) (b : Bool) : (s.setRepaint b).soundOn = s.soundOn := rfl
@[simp] theorem State.setRepaint_config (s : State) (b : Bool) : (s.setRepaint b).config = s.config := rfl
@[simp] theorem State.setRepaint_commands (s : State) (b : Bool) : (s.setRepaint b).commands = s.commands := rfl
@[simp] theorem State.setRepaint_reply (s : State) (b : Bool) : (s.setRepaint b).reply = s.reply := rfl
@[simp] theorem State.setRepaint_requests (s : State) (b : Bool) : (s.setRepaint b).requests = s.requests := rfl
@[simp] theorem State.setRepaint_randomBytes (s : State) (b : Bool) : (s.setRepaint b).randomBytes = s.randomBytes := rfl
@[simp] theorem State.setRepaint_keyAnswers (s : State) (b : Bool) : (s.setRepaint b).keyAnswers = s.keyAnswers := rfl
@[simp] theorem State.setRepaint_collisions (s : State) (b : Bool) : (s.setRepaint b).collisions = s.collisions := rfl
@[simp] theorem State.setRepaint_draws (s : State) (b : Bool) : (s.setRepaint b).draws = s.draws := rfl

/-! ### setKw -/

@[simp] theorem State.setKw_v (s : State) (k : Option Reg) : (s.setKw k).v = s.v := rfl
@[simp] theorem State.setKw_index (s : State) (k : Option Reg) : (s.setKw k).index = s.index := rfl
@[simp] theorem State.setKw_pc (s : State) (k : Option Reg) : (s.setKw k).pc = s.pc := rfl
@[simp] theorem State.setKw_sp (s : State) (k : Option Reg) : (s.setKw k).sp = s.sp := rfl
@[simp] theorem State.setKw_stack (s : State) (k : Option Reg) : (s.setKw k).stack = s.stack := rfl
@[simp] theorem State.setKw_dt (s : State) (k : Option Reg) : (s.setKw k).dt = s.dt := rfl
@[simp] theorem State.setKw_st (s : State) (k : Option Reg) : (s.setKw k).st = s.st := rfl
@[simp] theorem State.setKw_mem (s : State) (k : Option Reg) : (s.setKw k).mem = s.mem := rfl
@[simp] theorem State.setKw_quirkShift (s : State) (k : Option Reg) : (s.setKw k).quirkShift = s.quirkShift := rfl
@[simp] theorem State.setKw_quirkLoadStore (s : State) (k : Option Reg) : (s.setKw k).quirkLoadStore = s.quirkLoadStore := rfl
@[simp] theorem State.setKw_repaint (s : State) (k : Option Reg) : (s.setKw k).repaint = s.repaint := rfl
@[simp] theorem State.setKw_kw (s : State) (k : Option Reg) : (s.setKw k).kw = k := rfl
@[simp] theorem State.setKw_paused (s : State) (k : Option Reg) : (s.setKw k).paused = s.paused := rfl
@[simp] theorem State.setKw_runState (s : State) (k : Option Reg) : (s.setKw k).runState = s.runState := rfl
@[simp] theorem State.setKw_fault (s : State) (k : Option Reg) : (s.setKw k).fault = s.fault := rfl
@[simp] theorem State.setKw_soundOn (s : State) (k : Option Reg) : (s.setKw k).soundOn = s.soundOn := rfl
@[simp] theorem State.setKw_config (s : State) (k : Option Reg) : (s.setKw k).config = s.config := rfl
@[simp] theorem State.setKw_commands (s : State) (k : Option Reg) : (s.setKw k).commands = s.commands := rfl
@[simp] theorem State.setKw_reply (s : State) (k : Option Reg) : (s.setKw k).reply = s.reply := rfl
@[simp] theorem State.setKw_requests (s : State) (k : Option Reg) : (s.setKw k).requests = s.requests := rfl
@[simp] theorem State.setKw_randomBytes (s : State) (k : Option Reg) : (s.setKw k).randomBytes = s.randomBytes := rfl
@[simp] theorem State.setKw_keyAnswers (s : State) (k : Option Reg) : (s.setKw k).keyAnswers = s.keyAnswers := rfl
@[simp] theorem State.setKw_collisions (s : State) (k : Option Reg) : (s.setKw k).collisions = s.collisions := rfl
@[simp] theorem State.setKw_draws (s : State) (k : Option Reg) : (s.setKw k).draws = s.draws := rfl

/-! ### push -/

@[simp] theorem State.push_v (s : State) (a : Word) : (s.push a).v = s.v := rfl
@[simp] theorem State.push_index (s : State) (a : Word) : (s.push a).index = s.index := rfl
@[simp] theorem State.push_pc (s : State) (a : Word) : (s.push a).pc = s.pc := rfl
@[simp] theorem State.push_sp (s : State) (a : Word) : (s.push a).sp = s.spUp := rfl
@[simp] theorem State.push_stack (s : State) (a : Word) : (s.push a).stack = s.stack.set s.sp a := rfl
@[simp] theorem State.push_dt (s : State) (a : Word) : (s.push a).dt = s.dt := rfl
@[simp] theorem State.push_st (s : State) (a : Word) : (s.push a).st = s.st := rfl
@[simp] theorem State.push_mem (s : State) (a : Word) : (s.push a).mem = s.mem := rfl
@[simp] theorem State.push_quirkShift (s : State) (a : Word) : (s.push a).quirkShift = s.quirkShift := rfl
@[simp] theorem State.push_quirkLoadStore (s : State) (a : Word) : (s.push a).quirkLoadStore = s.quirkLoadStore := rfl
@[simp] theorem State.push_repaint (s : State) (a : Word) : (s.push a).repaint = s.repaint := rfl
@[simp] theorem State.push_kw (s : State) (a : Word) : (s.push a).kw = s.kw := rfl
@[simp] theorem State.push_paused (s : State) (a : Word) : (s.push a).paused = s.paused := rfl
@[simp] theorem State.push_runState (s : State) (a : Word) : (s.push a).runState = s.runState := rfl
@[simp] theorem State.push_fault (s : State) (a : Word) : (s.push a).fault = s.fault := rfl
@[simp] theorem State.push_soundOn (s : State) (a : Word) : (s.push a).soundOn = s.soundOn := rfl
@[simp] theorem State.push_config (s : State) (a : Word) : (s.push a).config = s.config := rfl
@[simp] theorem State.push_commands (s : State) (a : Word) : (s.push a).commands = s.commands := rfl
@[simp] theorem State.push_reply (s : State) (a : Word) : (s.push a).reply = s.reply := rfl
@[simp] theorem State.push_requests (s : State) (a : Word) : (s.push a).requests = s.requests := rfl
@[simp] theorem State.push_randomBytes (s : State) (a : Word) : (s.push a).randomBytes = s.randomBytes := rfl
@[simp] theorem State.push_keyAnswers (s : State) (a : Word) : (s.push a).keyAnswers = s.keyAnswers := rfl
@[simp] theorem State.push_collisions (s : State) (a : Word) : (s.push a).collisions = s.collisions := rfl
@[simp] theorem State.push_draws (s : State) (a : Word) : (s.push a).draws = s.draws := rfl

/-! ### pop -/

@[simp] theorem State.pop_v (s : State) : (s.pop).v = s.v := rfl
@[simp] theorem State.pop_index (s : State) : (s.pop).index = s.index := rfl
@[simp] theorem State.pop_pc (s : State) : (s.pop).pc = s.pc := rfl
@[simp] theorem State.pop_sp (s : State) : (s.pop).sp = s.spDown := rfl
@[simp] theorem State.pop_stack (s : State) : (s.pop).stack = s.stack := rfl
@[simp] theorem State.pop_dt (s : State) : (s.pop).dt = s.dt := rfl
@[simp] theorem State.pop_st (s : State) : (s.pop).st = s.st := rfl
@[simp] theorem State.pop_mem (s : State) : (s.pop).mem = s.mem := rfl
@[simp] theorem State.pop_quirkShift (s : State) : (s.pop).quirkShift = s.quirkShift := rfl
@[simp] theorem State.pop_quirkLoadStore (s : State) : (s.pop).quirkLoadStore = s.quirkLoadStore := rfl
@[simp] theorem State.pop_repaint (s : State) : (s.pop).repaint = s.repaint := rfl
@[simp] theorem State.pop_kw (s : State) : (s.pop).kw = s.kw := rfl
@[simp] theorem State.pop_paused (s : State) : (s.pop).paused = s.paused := rfl
@[simp] theorem State.pop_runState (s : State) : (s.pop).runState = s.runState := rfl
@[simp] theorem State.pop_fault (s : State) : (s.pop).fault = s.fault := rfl
@[simp] theorem State.pop_soundOn (s : State) : (s.pop).soundOn = s.soundOn := rfl
@[simp] theorem State.pop_config (s : State) : (s.pop).config = s.config := rfl
@[simp] theorem State.pop_commands (s : State) : (s.pop).commands = s.commands := rfl
@[simp] theorem State.pop_reply (s : State) : (s.pop).reply = s.reply := rfl
@[simp] theorem State.pop_requests (s : State) : (s.pop).requests = s.requests := rfl
@[simp] theorem State.pop_randomBytes (s : State) : (s.pop).randomBytes = s.randomBytes := rfl
@[simp] theorem State.pop_keyAnswers (s : State) : (s.pop).keyAnswers = s.keyAnswers := rfl
@[simp] theorem State.pop_collisions (s : State) : (s.pop).collisions = s.collisions := rfl
@[simp] theorem State.pop_draws (s : State) : (s.pop).draws = s.draws := rfl

/-! ### send -/

@[simp] theorem State.send_v (s : State) (rs : List Request) : (s.send rs).v = s.v := rfl
@[simp] theorem State.send_index (s : State) (rs : List Request) : (s.send rs).index = s.index := rfl
@[simp] theorem State.send_pc (s : State) (rs : List Request) : (s.send rs).pc = s.pc := rfl
@[simp] theorem State.send_sp (s : State) (rs : List Request) : (s.send rs).sp = s.sp := rfl
@[simp] theorem State.send_stack (s : State) (rs : List Request) : (s.send rs).stack = s.stack := rfl
@[simp] theorem State.send_dt (s : State) (rs : List Request) : (s.send rs).dt = s.dt := rfl
@[simp] theorem State.send_st (s : State) (rs : List Request) : (s.send rs).st = s.st := rfl
@[simp] theorem State.send_mem (s : State) (rs : List Request) : (s.send rs).mem = s.mem := rfl
@[simp] theorem State.send_quirkShift (s : State) (rs : List Request) : (s.send rs).quirkShift = s.quirkShift := rfl
@[simp] theorem State.send_quirkLoadStore (s : State) (rs : List Request) : (s.send rs).quirkLoadStore = s.quirkLoadStore := rfl
@[simp] theorem State.send_repaint (s : State) (rs : List Request) : (s.send rs).repaint = s.repaint := rfl
@[simp] theorem State.send_kw (s : State) (rs : List Request) : (s.send rs).kw = s.kw := rfl
@[simp] theorem State.send_paused (s : State) (rs : List Request) : (s.send rs).paused = s.paused := rfl
@[simp] theorem State.send_runState (s : State) (rs : List Request) : (s.send rs).runState = s.runState := rfl
@[simp] theorem State.send_fault (s : State) (rs : List Request) : (s.send rs).fault = s.fault := rfl
@[simp] theorem State.send_soundOn (s : State) (rs : List Request) : (s.send rs).soundOn = s.soundOn := rfl
@[simp] theorem State.send_config (s : State) (rs : List Request) : (s.send rs).config = s.config := rfl
@[simp] theorem State.send_commands (s : State) (rs : List Request) : (s.send rs).commands = s.commands := rfl
@[simp] theorem State.send_reply (s : State) (rs : List Request) : (s.send rs).reply = s.reply := rfl
@[simp] theorem State.send_requests (s : State) (rs : List Request) : (s.send rs).requests = s.requests ++ rs := rfl
@[simp] theorem State.send_randomBytes (s : State) (rs : List Request) : (s.send rs).randomBytes = s.randomBytes := rfl
@[simp] theorem State.send_keyAnswers (s : State) (rs : List Request) : (s.send rs).keyAnswers = s.keyAnswers := rfl
@[simp] theorem State.send_collisions (s : State) (rs : List Request) : (s.send rs).collisions = s.collisions := rfl
@[simp] theorem State.send_draws (s : State) (rs : List Request) : (s.send rs).draws = s.draws := rfl

/-! ### takeRandom -/

@[simp] theorem State.takeRandom_v (s : State) : (s.takeRandom).v = s.v := rfl
@[simp] theorem State.takeRandom_index (s : State) : (s.takeRandom).index = s.index := rfl
@[simp] theorem State.takeRandom_pc (s : State) : (s.takeRandom).pc = s.pc := rfl
@[simp] theorem State.takeRandom_sp (s : State) : (s.takeRandom).sp = s.sp := rfl
@[simp] theorem State.takeRandom_stack (s : State) : (s.takeRandom).stack = s.stack := rfl
@[simp] theorem State.takeRandom_dt (s : State) : (s.takeRandom).dt = s.dt := rfl
@[simp] theorem State.takeRandom_st (s : State) : (s.takeRandom).st = s.st := rfl
@[simp] theorem State.takeRandom_mem (s : State) : (s.takeRandom).mem = s.mem := rfl
@[simp] theorem State.takeRandom_quirkShift (s : State) : (s.takeRandom).quirkShift = s.quirkShift := rfl
@[simp] theorem State.takeRandom_quirkLoadStore (s : State) : (s.takeRandom).quirkLoadStore = s.quirkLoadStore := rfl
@[simp] theorem State.takeRandom_repaint (s : State) : (s.takeRandom).repaint = s.repaint := rfl
@[simp] theorem State.takeRandom_kw (s : State) : (s.takeRandom).kw = s.kw := rfl
@[simp] theorem State.takeRandom_paused (s : State) : (s.takeRandom).paused = s.paused := rfl
@[simp] theorem State.takeRandom_runState (s : State) : (s.takeRandom).runState = s.runState := rfl
@[simp] theorem State.takeRandom_fault (s : State) : (s.takeRandom).fault = s.fault := rfl
@[simp] theorem State.takeRandom_soundOn (s : State) : (s.takeRandom).soundOn = s.soundOn := rfl
@[simp] theorem State.takeRandom_config (s : State) : (s.takeRandom).config = s.config := rfl
@[simp] theorem State.takeRandom_commands (s : State) : (s.takeRandom).commands = s.commands := rfl
@[simp] theorem State.takeRandom_reply (s : State) : (s.takeRandom).reply = s.reply := rfl
@[simp] theorem State.takeRandom_requests (s : State) : (s.takeRandom).requests = s.requests := rfl
@[simp] theorem State.takeRandom_randomBytes (s : State) : (s.takeRandom).randomBytes = s.randomBytes.tail := rfl
@[simp] theorem State.takeRandom_keyAnswers (s : State) : (s.takeRandom).keyAnswers = s.keyAnswers := rfl
@[simp] theorem State.takeRandom_collisions (s : State) : (s.takeRandom).collisions = s.collisions := rfl
@[simp] theorem State.takeRandom_draws (s : State) : (s.takeRandom).draws = s.draws + 1 := rfl

/-! ### takeKey -/

@[simp] theorem State.takeKey_v (s : State) : (s.takeKey).v = s.v := rfl
@[simp] theorem State.takeKey_index (s : State) : (s.takeKey).index = s.index := rfl
@[simp] theorem State.takeKey_pc (s : State) : (s.takeKey).pc = s.pc := rfl
@[simp] theorem State.takeKey_sp (s : State) : (s.takeKey).sp = s.sp := rfl
@[simp] theorem State.takeKey_stack (s : State) : (s.takeKey).stack = s.stack := rfl
@[simp] theorem State.takeKey_dt (s : State) : (s.takeKey).dt = s.dt := rfl
@[simp] theorem State.takeKey_st (s : State) : (s.takeKey).st = s.st := rfl
@[simp] theorem State.takeKey_mem (s : State) : (s.takeKey).mem = s.mem := rfl
@[simp] theorem State.takeKey_quirkShift (s : State) : (s.takeKey).quirkShift = s.quirkShift := rfl
@[simp] theorem State.takeKey_quirkLoadStore (s : State) : (s.takeKey).quirkLoadStore = s.quirkLoadStore := rfl
@[simp] theorem State.takeKey_repaint (s : State) : (s.takeKey).repaint = s.repaint := rfl
@[simp] theorem State.takeKey_kw (s : State) : (s.takeKey).kw = s.kw := rfl
@[simp] theorem State.takeKey_paused (s : State) : (s.takeKey).paused = s.paused := rfl
@[simp] theorem State.takeKey_runState (s : State) : (s.takeKey).runState = s.runState := rfl
@[simp] theorem State.takeKey_fault (s : State) : (s.takeKey).fault = s.fault := rfl
@[simp] theorem State.takeKey_soundOn (s : State) : (s.takeKey).soundOn = s.soundOn := rfl
@[simp] theorem State.takeKey_config (s : State) : (s.takeKey).config = s.config := rfl
@[simp] theorem State.takeKey_commands (s : State) : (s.takeKey).commands = s.commands := rfl
@[simp] theorem State.takeKey_reply (s : State) : (s.takeKey).reply = s.reply := rfl
@[simp] theorem State.takeKey_requests (s : State) : (s.takeKey).requests = s.requests := rfl
@[simp] theorem State.takeKey_randomBytes (s : State) : (s.takeKey).randomBytes = s.randomBytes := rfl
@[simp] theorem State.takeKey_keyAnswers (s : State) : (s.takeKey).keyAnswers = s.keyAnswers.tail := rfl
@[simp] theorem State.takeKey_collisions (s : State) : (s.takeKey).collisions = s.collisions := rfl
@[simp] theorem State.takeKey_draws (s : State) : (s.takeKey).draws = s.draws + 1 := rfl

/-! ### takeCollisions -/

@[simp] theorem State.takeCollisions_v (s : State) (n : Nat) : (s.takeCollisions n).v = s.v := rfl
@[simp] theorem State.takeCollisions_index (s : State) (n : Nat) : (s.takeCollisions n).index = s.index := rfl
@[simp] theorem State.takeCollisions_pc (s : State) (n : Nat) : (s.takeCollisions n).pc = s.pc := rfl
@[simp] theorem State.takeCollisions_sp (s : State) (n : Nat) : (s.takeCollisions n).sp = s.sp := rfl
@[simp] theorem State.takeCollisions_stack (s : State) (n : Nat) : (s.takeCollisions n).stack = s.stack := rfl
@[simp] theorem State.takeCollisions_dt (s : State) (n : Nat) : (s.takeCollisions n).dt = s.dt := rfl
@[simp] theorem State.takeCollisions_st (s : State) (n : Nat) : (s.takeCollisions n).st = s.st := rfl
@[simp] theorem State.takeCollisions_mem (s : State) (n : Nat) : (s.takeCollisions n).mem = s.mem := rfl
@[simp] theorem State.takeCollisions_quirkShift (s : State) (n : Nat) : (s.takeCollisions n).quirkShift = s.quirkShift := rfl
@[simp] theorem State.takeCollisions_quirkLoadStore (s : State) (n : Nat) : (s.takeCollisions n).quirkLoadStore = s.quirkLoadStore := rfl
@[simp] theorem State.takeCollisions_repaint (s : State) (n : Nat) : (s.takeCollisions n).repaint = s.repaint := rfl
@[simp] theorem State.takeCollisions_kw (s : State) (n : Nat) : (s.takeCollisions n).kw = s.kw := rfl
@[simp] theorem State.takeCollisions_paused (s : State) (n : Nat) : (s.takeCollisions n).paused = s.paused := rfl
@[simp] theorem State.takeCollisions_runState (s : State) (n : Nat) : (s.takeCollisions n).runState = s.runState := rfl
@[simp] theorem State.takeCollisions_fault (s : State) (n : Nat) : (s.takeCollisions n).fault = s.fault := rfl
@[simp] theorem State.takeCollisions_soundOn (s : State) (n : Nat) : (s.takeCollisions n).soundOn = s.soundOn := rfl
@[simp] theorem State.takeCollisions_config (s : State) (n : Nat) : (s.takeCollisions n).config = s.config := rfl
@[simp] theorem State.takeCollisions_commands (s : State) (n : Nat) : (s.takeCollisions n).commands = s.commands := rfl
@[simp] theorem State.takeCollisions_reply (s : State) (n : Nat) : (s.takeCollisions n).reply = s.reply := rfl
@[simp] theorem State.takeCollisions_requests (s : State) (n : Nat) : (s.takeCollisions n).requests = s.requests := rfl
@[simp] theorem State.takeCollisions_randomBytes (s : State) (n : Nat) : (s.takeCollisions n).randomBytes = s.randomBytes := rfl
@[simp] theorem State.takeCollisions_keyAnswers (s : State) (n : Nat) : (s.takeCollisions n).keyAnswers = s.keyAnswers := rfl
@[simp] theorem State.takeCollisions_collisions (s : State) (n : Nat) : (s.takeCollisions n).collisions = s.collisions.drop n := rfl
@[simp] theorem State.takeCollisions_draws (s : State) (n : Nat) : (s.takeCollisions n).draws = s.draws + n := rfl

/-! ### writeBytes -/

@[simp] theorem State.writeBytes_v (s : State) (a : Nat) (bs : List Byte) : (s.writeBytes a bs).v = s.v := rfl
@[simp] theorem State.writeBytes_index (s : State) (a : Nat) (bs : List Byte) : (s.writeBytes a bs).index = s.index := rfl
@[simp] theorem State.writeBytes_pc (s : State) (a : Nat) (bs : List Byte) : (s.writeBytes a bs).pc = s.pc := rfl
@[simp] theorem State.writeBytes_sp (s : State) (a : Nat) (bs : List Byte) : (s.writeBytes a bs).sp = s.sp := rfl
@[simp] theorem State.writeBytes_stack (s : State) (a : Nat) (bs : List Byte) : (s.writeBytes a bs).stack = s.stack := rfl
@[simp] theorem State.writeBytes_dt (s : State) (a : Nat) (bs : List Byte) : (s.writeBytes a bs).dt = s.dt := rfl
@[simp] theorem State.writeBytes_st (s : State) (a : Nat) (bs : List Byte) : (s.writeBytes a bs).st = s.st := rfl
@[simp] theorem State.writeBytes_mem (s : State) (a : Nat) (bs : List Byte) : (s.writeBytes a bs).mem = Memory.writeAll s.config.font s.mem a bs := rfl
@[simp] theorem State.writeBytes_quirkShift (s : State) (a : Nat) (bs : List Byte) : (s.writeBytes a bs).quirkShift = s.quirkShift := rfl
@[simp] theorem State.writeBytes_quirkLoadStore (s : State) (a : Nat) (bs : List Byte) : (s.writeBytes a bs).quirkLoadStore = s.quirkLoadStore := rfl
@[simp] theorem State.writeBytes_repaint (s : State) (a : Nat) (bs : List Byte) : (s.writeBytes a bs).repaint = s.repaint := rfl
@[simp] theorem State.writeBytes_kw (s : State) (a : Nat) (bs : List Byte) : (s.writeBytes a bs).kw = s.kw := rfl
@[simp] theorem State.writeBytes_paused (s : State) (a : Nat) (bs : List Byte) : (s.writeBytes a bs).paused = s.paused := rfl
@[simp] theorem State.writeBytes_runState (s : State) (a : Nat) (bs : List Byte) : (s.writeBytes a bs).runState = s.runState := rfl
@[simp] theorem State.writeBytes_fault (s : State) (a : Nat) (bs : List Byte) : (s.writeBytes a bs).fault = s.fault := rfl
@[simp] theorem State.writeBytes_soundOn (s : State) (a : Nat) (bs : List Byte) : (s.writeBytes a bs).soundOn = s.soundOn := rfl
@[simp] theorem State.writeBytes_config (s : State) (a : Nat) (bs : List Byte) : (s.writeBytes a bs).config = s.config := rfl
@[simp] theorem State.writeBytes_commands (s : State) (a : Nat) (bs : List Byte) : (s.writeBytes a bs).commands = s.commands := rfl
@[simp] theorem State.writeBytes_reply (s : State) (a : Nat) (bs : List Byte) : (s.writeBytes a bs).reply = s.reply := rfl
@[simp] theorem State.writeBytes_requests (s : State) (a : Nat) (bs : List Byte) : (s.writeBytes a bs).requests = s.requests := rfl
@[simp] theorem State.writeBytes_randomBytes (s : State) (a : Nat) (bs : List Byte) : (s.writeBytes a bs).randomBytes = s.randomBytes := rfl
@[simp] theorem State.writeBytes_keyAnswers (s : State) (a : Nat) (bs : List Byte) : (s.writeBytes a bs).keyAnswers = s.keyAnswers := rfl
@[simp] theorem State.writeBytes_collisions (s : State) (a : Nat) (bs : List Byte) : (s.writeBytes a bs).collisions = s.collisions := rfl
@[simp] theorem State.writeBytes_draws (s : State) (a : Nat) (bs : List Byte) : (s.writeBytes a bs).draws = s.draws := rfl

/-! ### raise -/

@[simp] theorem State.raise_v (s : State) (k : FaultKind) (info : Word) : (s.raise k info).v = s.v := rfl
@[simp] theorem State.raise_index (s : State) (k : FaultKind) (info : Word) : (s.raise k info).index = s.index := rfl
@[simp] theorem State.raise_pc (s : State) (k : FaultKind) (info : Word) : (s.raise k info).pc = s.pc := rfl
@[simp] theorem State.raise_sp (s : State) (k : FaultKind) (info : Word) : (s.raise k info).sp = s.sp := rfl
@[simp] theorem State.raise_stack (s : State) (k : FaultKind) (info : Word) : (s.raise k info).stack = s.stack := rfl
@[simp] theorem State.raise_dt (s : State) (k : FaultKind) (info : Word) : (s.raise k info).dt = s.dt := rfl
@[simp] theorem State.raise_st (s : State) (k : FaultKind) (info : Word) : (s.raise k info).st = s.st := rfl
@[simp] theorem State.raise_mem (s : State) (k : FaultKind) (info : Word) : (s.raise k info).mem = s.mem := rfl
@[simp] theorem State.raise_quirkShift (s : State) (k : FaultKind) (info : Word) : (s.raise k info).quirkShift = s.quirkShift := rfl
@[simp] theorem State.raise_quirkLoadStore (s : State) (k : FaultKind) (info : Word) : (s.raise k info).quirkLoadStore = s.quirkLoadStore := rfl
@[simp] theorem State.raise_repaint (s : State) (k : FaultKind) (info : Word) : (s.raise k info).repaint = s.repaint := rfl
@[simp] theorem State.raise_kw (s : State) (k : FaultKind) (info : Word) : (s.raise k info).kw = s.kw := rfl
@[simp] theorem State.raise_paused (s : State) (k : FaultKind) (info : Word) : (s.raise k info).paused = s.paused := rfl
@[simp] theorem State.raise_runState (s : State) (k : FaultKind) (info : Word) : (s.raise k info).runState = .stopped := rfl
@[simp] theorem State.raise_fault (s : State) (k : FaultKind) (info : Word) : (s.raise k info).fault = some ⟨k, s.pc, info⟩ := rfl
@[simp] theorem State.raise_soundOn (s : State) (k : FaultKind) (info : Word) : (s.raise k info).soundOn = s.soundOn := rfl
@[simp] theorem State.raise_config (s : State) (k : FaultKind) (info : Word) : (s.raise k info).config = s.config := rfl
@[simp] theorem State.raise_commands (s : State) (k : FaultKind) (info : Word) : (s.raise k info).commands = s.commands := rfl
@[simp] theorem State.raise_reply (s : State) (k : FaultKind) (info : Word) : (s.raise k info).reply = s.reply := rfl
@[simp] theorem State.raise_requests (s : State) (k : FaultKind) (info : Word) : (s.raise k info).requests = s.requests := rfl
@[simp] theorem State.raise_randomBytes (s : State) (k : FaultKind) (info : Word) : (s.raise k info).randomBytes = s.randomBytes := rfl
@[simp] theorem State.raise_keyAnswers (s : State) (k : FaultKind) (info : Word) : (s.raise k info).keyAnswers = s.keyAnswers := rfl
@[simp] theorem State.raise_collisions (s : State) (k : FaultKind) (info : Word) : (s.raise k info).collisions = s.collisions := rfl
@[simp] theorem State.raise_draws (s : State) (k : FaultKind) (info : Word) : (s.raise k info).draws = s.draws := rfl

/-! ### setReply -/

@[simp] theorem State.setReply_v (s : State) (r : Reply) : (s.setReply r).v = s.v := rfl
@[simp] theorem State.setReply_index (s : State) (r : Reply) : (s.setReply r).index = s.index := rfl
@[simp] theorem State.setReply_pc (s : State) (r : Reply) : (s.setReply r).pc = s.pc := rfl
@[simp] theorem State.setReply_sp (s : State) (r : Reply) : (s.setReply r).sp = s.sp := rfl
@[simp] theorem State.setReply_stack (s : State) (r : Reply) : (s.setReply r).stack = s.stack := rfl
@[simp] theorem State.setReply_dt (s : State) (r : Reply) : (s.setReply r).dt = s.dt := rfl
@[simp] theorem State.setReply_st (s : State) (r : Reply) : (s.setReply r).st = s.st := rfl
@[simp] theorem State.setReply_mem (s : State) (r : Reply) : (s.setReply r).mem = s.mem := rfl
@[simp] theorem State.setReply_quirkShift (s : State) (r : Reply) : (s.setReply r).quirkShift = s.quirkShift := rfl
@[simp] theorem State.setReply_quirkLoadStore (s : State) (r : Reply) : (s.setReply r).quirkLoadStore = s.quirkLoadStore := rfl
@[simp] theorem State.setReply_repaint (s : State) (r : Reply) : (s.setReply r).repaint = s.repaint := rfl
@[simp] theorem State.setReply_kw (s : State) (r : Reply) : (s.setReply r).kw = s.kw := rfl
@[simp] theorem State.setReply_paused (s : State) (r : Reply) : (s.setReply r).paused = s.paused := rfl
@[simp] theorem State.setReply_runState (s : State) (r : Reply) : (s.setReply r).runState = s.runState := rfl
@[simp] theorem State.setReply_fault (s : State) (r : Reply) : (s.setReply r).fault = s.fault := rfl
@[simp] theorem State.setReply_soundOn (s : State) (r : Reply) : (s.setReply r).soundOn = s.soundOn := rfl
@[simp] theorem State.setReply_config (s : State) (r : Reply) : (s.setReply r).config = s.config := rfl
@[simp] theorem State.setReply_commands (s : State) (r : Reply) : (s.setReply r).commands = s.commands := rfl
@[simp] theorem State.setReply_reply (s : State) (r : Reply) : (s.setReply r).reply = r := rfl
@[simp] theorem State.setReply_requests (s : State) (r : Reply) : (s.setReply r).requests = s.requests := rfl
@[simp] theorem State.setReply_randomBytes (s : State) (r : Reply) : (s.setReply r).randomBytes = s.randomBytes := rfl
@[simp] theorem State.setReply_keyAnswers (s : State) (r : Reply) : (s.setReply r).keyAnswers = s.keyAnswers := rfl
@[simp] theorem State.setReply_collisions (s : State) (r : Reply) : (s.setReply r).collisions = s.collisions := rfl
@[simp] theorem State.setReply_draws (s : State) (r : Reply) : (s.setReply r).draws = s.draws := rfl

/-! ### advanceIndex -/

@[simp] theorem State.advanceIndex_v (s : State) (x : Reg) : (s.advanceIndex x).v = s.v := rfl
@[simp] theorem State.advanceIndex_index (s : State) (x : Reg) : (s.advanceIndex x).index = indexAfterBlock s.quirkLoadStore s.index x := rfl
@[simp] theorem State.advanceIndex_pc (s : State) (x : Reg) : (s.advanceIndex x).pc = s.pc := rfl
@[simp] theorem State.advanceIndex_sp (s : State) (x : Reg) : (s.advanceIndex x).sp = s.sp := rfl
@[simp] theorem State.advanceIndex_stack (s : State) (x : Reg) : (s.advanceIndex x).stack = s.stack := rfl
@[simp] theorem State.advanceIndex_dt (s : State) (x : Reg) : (s.advanceIndex x).dt = s.dt := rfl
@[simp] theorem State.advanceIndex_st (s : State) (x : Reg) : (s.advanceIndex x).st = s.st := rfl
@[simp] theorem State.advanceIndex_mem (s : State) (x : Reg) : (s.advanceIndex x).mem = s.mem := rfl
@[simp] theorem State.advanceIndex_quirkShift (s : State) (x : Reg) : (s.advanceIndex x).quirkShift = s.quirkShift := rfl
@[simp] theorem State.advanceIndex_quirkLoadStore (s : State) (x : Reg) : (s.advanceIndex x).quirkLoadStore = s.quirkLoadStore := rfl
@[simp] theorem State.advanceIndex_repaint (s : State) (x : Reg) : (s.advanceIndex x).repaint = s.repaint := rfl
@[simp] theorem State.advanceIndex_kw (s : State) (x : Reg) : (s.advanceIndex x).kw = s.kw := rfl
@[simp] theorem State.advanceIndex_paused (s : State) (x : Reg) : (s.advanceIndex x).paused = s.paused := rfl
@[simp] theorem State.advanceIndex_runState (s : State) (x : Reg) : (s.advanceIndex x).runState = s.runState := rfl
@[simp] theorem State.advanceIndex_fault (s : State) (x : Reg) : (s.advanceIndex x).fault = s.fault := rfl
@[simp] theorem State.advanceIndex_soundOn (s : State) (x : Reg) : (s.advanceIndex x).soundOn = s.soundOn := rfl
@[simp] theorem State.advanceIndex_config (s : State) (x : Reg) : (s.advanceIndex x).config = s.config := rfl
@[simp] theorem State.advanceIndex_commands (s : State) (x : Reg) : (s.advanceIndex x).commands = s.commands := rfl
@[simp] theorem State.advanceIndex_reply (s : State) (x : Reg) : (s.advanceIndex x).reply = s.reply := rfl
@[simp] theorem State.advanceIndex_requests (s : State) (x : Reg) : (s.advanceIndex x).requests = s.requests := rfl
@[simp] theorem State.advanceIndex_randomBytes (s : State) (x : Reg) : (s.advanceIndex x).randomBytes = s.randomBytes := rfl
@[simp] theorem State.advanceIndex_keyAnswers (s : State) (x : Reg) : (s.advanceIndex x).keyAnswers = s.keyAnswers := rfl
@[simp] theorem State.advanceIndex_collisions (s : State) (x : Reg) : (s.advanceIndex x).collisions = s.collisions := rfl
@[simp] theorem State.advanceIndex_draws (s : State) (x : Reg) : (s.advanceIndex x).draws = s.draws := rfl

/-! ### setRegFlag -/

@[simp] theorem State.setRegFlag_v (s : State) (x : Reg) (b : Byte) (c : Bool) : (s.setRegFlag x b c).v = (s.v.set x.val b x.isLt).set vF.val (flagByte c) vF.isLt := rfl
@[simp] theorem State.setRegFlag_index (s : State) (x : Reg) (b : Byte) (c : Bool) : (s.setRegFlag x b c).index = s.index := rfl
@[simp] theorem State.setRegFlag_pc (s : State) (x : Reg) (b : Byte) (c : Bool) : (s.setRegFlag x b c).pc = s.pc := rfl
@[simp] theorem State.setRegFlag_sp (s : State) (x : Reg) (b : Byte) (c : Bool) : (s.setRegFlag x b c).sp = s.sp := rfl
@[simp] theorem State.setRegFlag_stack (s : State) (x : Reg) (b : Byte) (c : Bool) : (s.setRegFlag x b c).stack = s.stack := rfl
@[simp] theorem State.setRegFlag_dt (s : State) (x : Reg) (b : Byte) (c : Bool) : (s.setRegFlag x b c).dt = s.dt := rfl
@[simp] theorem State.setRegFlag_st (s : State) (x : Reg) (b : Byte) (c : Bool) : (s.setRegFlag x b c).st = s.st := rfl
@[simp] theorem State.setRegFlag_mem (s : State) (x : Reg) (b : Byte) (c : Bool) : (s.setRegFlag x b c).mem = s.mem := rfl
@[simp] theorem State.setRegFlag_quirkShift (s : State) (x : Reg) (b : Byte) (c : Bool) : (s.setRegFlag x b c).quirkShift = s.quirkShift := rfl
@[simp] theorem State.setRegFlag_quirkLoadStore (s : State) (x : Reg) (b : Byte) (c : Bool) : (s.setRegFlag x b c).quirkLoadStore = s.quirkLoadStore := rfl
@[simp] theorem State.setRegFlag_repaint (s : State) (x : Reg) (b : Byte) (c : Bool) : (s.setRegFlag x b c).repaint = s.repaint := rfl
@[simp] theorem State.setRegFlag_kw (s : State) (x : Reg) (b : Byte) (c : Bool) : (s.setRegFlag x b c).kw = s.kw := rfl
@[simp] theorem State.setRegFlag_paused (s : State) (x : Reg) (b : Byte) (c : Bool) : (s.setRegFlag x b c).paused = s.paused := rfl
@[simp] theorem State.setRegFlag_runState (s : State) (x : Reg) (b : Byte) (c : Bool) : (s.setRegFlag x b c).runState = s.runState := rfl
@[simp] theorem State.setRegFlag_fault (s : State) (x : Reg) (b : Byte) (c : Bool) : (s.setRegFlag x b c).fault = s.fault := rfl
@[simp] theorem State.setRegFlag_soundOn (s : State) (x : Reg) (b : Byte) (c : Bool) : (s.setRegFlag x b c).soundOn = s.soundOn := rfl
@[simp] theorem State.setRegFlag_config (s : State) (x : Reg) (b : Byte) (c : Bool) : (s.setRegFlag x b c).config = s.config := rfl
@[simp] theorem State.setRegFlag_commands (s : State) (x : Reg) (b : Byte) (c : Bool) : (s.setRegFlag x b c).commands = s.commands := rfl
@[simp] theorem State.setRegFlag_reply (s : State) (x : Reg) (b : Byte) (c : Bool) : (s.setRegFlag x b c).reply = s.reply := rfl
@[simp] theorem State.setRegFlag_requests (s : State) (x : Reg) (b : Byte) (c : Bool) : (s.setRegFlag x b c).requests = s.requests := rfl
@[simp] theorem State.setRegFlag_randomBytes (s : State) (x : Reg) (b : Byte) (c : Bool) : (s.setRegFlag x b c).randomBytes = s.randomBytes := rfl
@[simp] theorem State.setRegFlag_keyAnswers (s : State) (x : Reg) (b : Byte) (c : Bool) : (s.setRegFlag x b c).keyAnswers = s.keyAnswers := rfl
@[simp] theorem State.setRegFlag_collisions (s : State) (x : Reg) (b : Byte) (c : Bool) : (s.setRegFlag x b c).collisions = s.collisions := rfl
@[simp] theorem State.setRegFlag_draws (s : State) (x : Reg) (b : Byte) (c : Bool) : (s.setRegFlag x b c).draws = s.draws := rfl

/-! ### timerUpdate -/

@[simp] theorem State.timerUpdate_v (s : State) : (s.timerUpdate).v = s.v := rfl
@[simp] theorem State.timerUpdate_index (s : State) : (s.timerUpdate).index = s.index := rfl
@[simp] theorem State.timerUpdate_pc (s : State) : (s.timerUpdate).pc = s.pc := rfl
@[simp] theorem State.timerUpdate_sp (s : State) : (s.timerUpdate).sp = s.sp := rfl
@[simp] theorem State.timerUpdate_stack (s : State) : (s.timerUpdate).stack = s.stack := rfl
@[simp] theorem State.timerUpdate_dt (s : State) : (s.timerUpdate).dt = decTimer s.config.timerAtZero s.dt := rfl
@[simp] theorem State.timerUpdate_st (s : State) : (s.timerUpdate).st = decTimer s.config.timerAtZero s.st := rfl
@[simp] theorem State.timerUpdate_mem (s : State) : (s.timerUpdate).mem = s.mem := rfl
@[simp] theorem State.timerUpdate_quirkShift (s : State) : (s.timerUpdate).quirkShift = s.quirkShift := rfl
@[simp] theorem State.timerUpdate_quirkLoadStore (s : State) : (s.timerUpdate).quirkLoadStore = s.quirkLoadStore := rfl
@[simp] theorem State.timerUpdate_repaint (s : State) : (s.timerUpdate).repaint = s.repaint := rfl
@[simp] theorem State.timerUpdate_kw (s : State) : (s.timerUpdate).kw = s.kw := rfl
@[simp] theorem State.timerUpdate_paused (s : State) : (s.timerUpdate).paused = s.paused := rfl
@[simp] theorem State.timerUpdate_runState (s : State) : (s.timerUpdate).runState = s.runState := rfl
@[simp] theorem State.timerUpdate_fault (s : State) : (s.timerUpdate).fault = s.fault := rfl
@[simp] theorem State.timerUpdate_soundOn (s : State) : (s.timerUpdate).soundOn = decide (s.st.toNat > 0) := rfl
@[simp] theorem State.timerUpdate_config (s : State) : (s.timerUpdate).config = s.config := rfl
@[simp] theorem State.timerUpdate_commands (s : State) : (s.timerUpdate).commands = s.commands := rfl
@[simp] theorem State.timerUpdate_reply (s : State) : (s.timerUpdate).reply = s.reply := rfl
@[simp] theorem State.timerUpdate_requests (s : State) : (s.timerUpdate).requests = s.requests ++ [soundRequest s.st] := rfl
@[simp] theorem State.timerUpdate_randomBytes (s : State) : (s.timerUpdate).randomBytes = s.randomBytes := rfl
@[simp] theorem State.timerUpdate_keyAnswers (s : State) : (s.timerUpdate).keyAnswers = s.keyAnswers := rfl
@[simp] theorem State.timerUpdate_collisions (s : State) : (s.timerUpdate).collisions = s.collisions := rfl
@[simp] theorem State.timerUpdate_draws (s : State) : (s.timerUpdate).draws = s.draws := rfl

/-! ### performReset -/

@[simp] theorem State.performReset_v (s : State) : (s.performReset).v = Vector.replicate 16 0 := rfl
@[simp] theorem State.performReset_index (s : State) : (s.performReset).index = 0 := rfl
@[simp] theorem State.performReset_pc (s : State) : (s.performReset).pc = 0x200 := rfl
@[simp] theorem State.performReset_sp (s : State) : (s.performReset).sp = 0 := rfl
@[simp] theorem State.performReset_stack (s : State) : (s.performReset).stack = List.replicate s.config.stackCap 0 := rfl
@[simp] theorem State.performReset_dt (s : State) : (s.performReset).dt = 0 := rfl
@[simp] theorem State.performReset_st (s : State) : (s.performReset).st = 0 := rfl
@[simp] theorem State.performReset_mem (s : State) : (s.performReset).mem = [] := rfl
@[simp] theorem State.performReset_quirkShift (s : State) : (s.performReset).quirkShift = s.config.quirkShiftDefault := rfl
@[simp] theorem State.performReset_quirkLoadStore (s : State) : (s.performReset).quirkLoadStore = s.config.quirkLoadStoreDefault := rfl
@[simp] theorem State.performReset_repaint (s : State) : (s.performReset).repaint = false := rfl
@[simp] theorem State.performReset_kw (s : State) : (s.performReset).kw = none := rfl
@[simp] theorem State.performReset_paused (s : State) : (s.performReset).paused = false := rfl
@[simp] theorem State.performReset_runState (s : State) : (s.performReset).runState = .stopped := rfl
@[simp] theorem State.performReset_fault (s : State) : (s.performReset).fault = none := rfl
@[simp] theorem State.performReset_soundOn (s : State) : (s.performReset).soundOn = false := rfl
@[simp] theorem State.performReset_config (s : State) : (s.performReset).config = s.config := rfl
@[simp] theorem State.performReset_commands (s : State) : (s.performReset).commands = s.commands := rfl
@[simp] theorem State.performReset_reply (s : State) : (s.performReset).reply = s.reply := rfl
@[simp] theorem State.performReset_requests (s : State) : (s.performReset).requests = s.requests ++ [.audioStop] := rfl
@[simp] theorem State.performReset_randomBytes (s : State) : (s.performReset).randomBytes = s.randomBytes := rfl
@[simp] theorem State.performReset_keyAnswers (s : State) : (s.performReset).keyAnswers = s.keyAnswers := rfl
@[simp] theorem State.performReset_collisions (s : State) : (s.performReset).collisions = s.collisions := rfl
@[simp] theorem State.performReset_draws (s : State) : (s.performReset).draws = s.draws := rfl

/-! ### setCommands -/

@[simp] theorem State.setCommands_v (s : State) (cs : List Command) : (s.setCommands cs).v = s.v := rfl
@[simp] theorem State.setCommands_index (s : State) (cs : List Command) : (s.setCommands cs).index = s.index := rfl
@[simp] theorem State.setCommands_pc (s : State) (cs : List Command) : (s.setCommands cs).pc = s.pc := rfl
@[simp] theorem State.setCommands_sp (s : State) (cs : List Command) : (s.setCommands cs).sp = s.sp := rfl
@[simp] theorem State.setCommands_stack (s : State) (cs : List Command) : (s.setCommands cs).stack = s.stack := rfl
@[simp] theorem State.setCommands_dt (s : State) (cs : List Command) : (s.setCommands cs).dt = s.dt := rfl
@[simp] theorem State.setCommands_st (s : State) (cs : List Command) : (s.setCommands cs).st = s.st := rfl
@[simp] theorem State.setCommands_mem (s : State) (cs : List Command) : (s.setCommands cs).mem = s.mem := rfl
@[simp] theorem State.setCommands_quirkShift (s : State) (cs : List Command) : (s.setCommands cs).quirkShift = s.quirkShift := rfl
@[simp] theorem State.setCommands_quirkLoadStore (s : State) (cs : List Command) : (s.setCommands cs).quirkLoadStore = s.quirkLoadStore := rfl
@[simp] theorem State.setCommands_repaint (s : State) (cs : List Command) : (s.setCommands cs).repaint = s.repaint := rfl
@[simp] theorem State.setCommands_kw (s : State) (cs : List Command) : (s.setCommands cs).kw = s.kw := rfl
@[simp] theorem State.setCommands_paused (s : State) (cs : List Command) : (s.setCommands cs).paused = s.paused := rfl
@[simp] theorem State.setCommands_runState (s : State) (cs : List Command) : (s.setCommands cs).runState = s.runState := rfl
@[simp] theorem State.setCommands_fault (s : State) (cs : List Command) : (s.setCommands cs).fault = s.fault := rfl
@[simp] theorem State.setCommands_soundOn (s : State) (cs : List Command) : (s.setCommands cs).soundOn = s.soundOn := rfl
@[simp] theorem State.setCommands_config (s : State) (cs : List Command) : (s.setCommands cs).config = s.config := rfl
@[simp] theorem State.setCommands_commands (s : State) (cs : List Command) : (s.setCommands cs).commands = cs := rfl
@[simp] theorem State.setCommands_reply (s : State) (cs : List Command) : (s.setCommands cs).reply = s.reply := rfl
@[simp] theorem State.setCommands_requests (s : State) (cs : List Command) : (s.setCommands cs).requests = s.requests := rfl
@[simp] theorem State.setCommands_randomBytes (s : State) (cs : List Command) : (s.setCommands cs).randomBytes = s.randomBytes := rfl
@[simp] theorem State.setCommands_keyAnswers (s : State) (cs : List Command) : (s.setCommands cs).keyAnswers = s.keyAnswers := rfl
@[simp] theorem State.setCommands_collisions (s : State) (cs : List Command) : (s.setCommands cs).collisions = s.collisions := rfl
@[simp] theorem State.setCommands_draws (s : State) (cs : List Command) : (s.setCommands cs).draws = s.draws := rfl

/-! ### reportCycle -/

@[simp] theorem State.reportCycle_v (s : State) : s.reportCycle.v = s.v := by unfold State.reportCycle; split <;> rfl
@[simp] theorem State.reportCycle_index (s : State) : s.reportCycle.index = s.index := by unfold State.reportCycle; split <;> rfl
@[simp] theorem State.reportCycle_pc (s : State) : s.reportCycle.pc = s.pc := by unfold State.reportCycle; split <;> rfl
@[simp] theorem State.reportCycle_sp (s : State) : s.reportCycle.sp = s.sp := by unfold State.reportCycle; split <;> rfl
@[simp] theorem State.reportCycle_stack (s : State) : s.reportCycle.stack = s.stack := by unfold State.reportCycle; split <;> rfl
@[simp] theorem State.reportCycle_dt (s : State) : s.reportCycle.dt = s.dt := by unfold State.reportCycle; split <;> rfl
@[simp] theorem State.reportCycle_st (s : State) : s.reportCycle.st = s.st := by unfold State.reportCycle; split <;> rfl
@[simp] theorem State.reportCycle_mem (s : State) : s.reportCycle.mem = s.mem := by unfold State.reportCycle; split <;> rfl
@[simp] theorem State.reportCycle_quirkShift (s : State) : s.reportCycle.quirkShift = s.quirkShift := by unfold State.reportCycle; split <;> rfl
@[simp] theorem State.reportCycle_quirkLoadStore (s : State) : s.reportCycle.quirkLoadStore = s.quirkLoadStore := by unfold State.reportCycle; split <;> rfl
@[simp] theorem State.reportCycle_repaint (s : State) : s.reportCycle.repaint = s.repaint := by unfold State.reportCycle; split <;> rfl
@[simp] theorem State.reportCycle_kw (s : State) : s.reportCycle.kw = s.kw := by unfold State.reportCycle; split <;> rfl
@[simp] theorem State.reportCycle_paused (s : State) : s.reportCycle.paused = s.paused := by unfold State.reportCycle; split <;> rfl
@[simp] theorem State.reportCycle_runState (s : State) : s.reportCycle.runState = s.runState := by unfold State.reportCycle; split <;> rfl
@[simp] theorem State.reportCycle_fault (s : State) : s.reportCycle.fault = s.fault := by unfold State.reportCycle; split <;> rfl
@[simp] theorem State.reportCycle_soundOn (s : State) : s.reportCycle.soundOn = s.soundOn := by unfold State.reportCycle; split <;> rfl
@[simp] theorem State.reportCycle_config (s : State) : s.reportCycle.config = s.config := by unfold State.reportCycle; split <;> rfl
@[simp] theorem State.reportCycle_commands (s : State) : s.reportCycle.commands = s.commands := by unfold State.reportCycle; split <;> rfl
@[simp] theorem State.reportCycle_requests (s : State) : s.reportCycle.requests = s.requests := by unfold State.reportCycle; split <;> rfl
@[simp] theorem State.reportCycle_randomBytes (s : State) : s.reportCycle.randomBytes = s.randomBytes := by unfold State.reportCycle; split <;> rfl
@[simp] theorem State.reportCycle_keyAnswers (s : State) : s.reportCycle.keyAnswers = s.keyAnswers := by unfold State.reportCycle; split <;> rfl
@[simp] theorem State.reportCycle_collisions (s : State) : s.reportCycle.collisions = s.collisions := by unfold State.reportCycle; split <;> rfl
@[simp] theorem State.reportCycle_draws (s : State) : s.reportCycle.draws = s.draws := by unfold State.reportCycle; split <;> rfl

/-! ### setPaused -/

@[simp] theorem State.setPaused_v (s : State) (b : Bool) : (s.setPaused b).v = s.v := rfl
@[simp] theorem State.setPaused_index (s : State) (b : Bool) : (s.setPaused b).index = s.index := rfl
@[simp] theorem State.setPaused_pc (s : State) (b : Bool) : (s.setPaused b).pc = s.pc := rfl
@[simp] theorem State.setPaused_sp (s : State) (b : Bool) : (s.setPaused b).sp = s.sp := rfl
@[simp] theorem State.setPaused_stack (s : State) (b : Bool) : (s.setPaused b).stack = s.stack := rfl
@[simp] theorem State.setPaused_dt (s : State) (b : Bool) : (s.setPaused b).dt = s.dt := rfl
@[simp] theorem State.setPaused_st (s : State) (b : Bool) : (s.setPaused b).st = s.st := rfl
@[simp] theorem State.setPaused_mem (s : State) (b : Bool) : (s.setPaused b).mem = s.mem := rfl
@[simp] theorem State.setPaused_quirkShift (s : State) (b : Bool) : (s.setPaused b).quirkShift = s.quirkShift := rfl
@[simp] theorem State.setPaused_quirkLoadStore (s : State) (b : Bool) : (s.setPaused b).quirkLoadStore = s.quirkLoadStore := rfl
@[simp] theorem State.setPaused_repaint (s : State) (b : Bool) : (s.setPaused b).repaint = s.repaint := rfl
@[simp] theorem State.setPaused_kw (s : State) (b : Bool) : (s.setPaused b).kw = s.kw := rfl
@[simp] theorem State.setPaused_paused (s : State) (b : Bool) : (s.setPaused b).paused = b := rfl
@[simp] theorem State.setPaused_runState (s : State) (b : Bool) : (s.setPaused b).runState = s.runState := rfl
@[simp] theorem State.setPaused_fault (s : State) (b : Bool) : (s.setPaused b).fault = s.fault := rfl
@[simp] theorem State.setPaused_soundOn (s : State) (b : Bool) : (s.setPaused b).soundOn = s.soundOn := rfl
@[simp] theorem State.setPaused_config (s : State) (b : Bool) : (s.setPaused b).config = s.config := rfl
@[simp] theorem State.setPaused_commands (s : State) (b : Bool) : (s.setPaused b).commands = s.commands := rfl
@[simp] theorem State.setPaused_reply (s : State) (b : Bool) : (s.setPaused b).reply = s.reply := rfl
@[simp] theorem State.setPaused_requests (s : State) (b : Bool) : (s.setPaused b).requests = s.requests := rfl
@[simp] theorem State.setPaused_randomBytes (s : State) (b : Bool) : (s.setPaused b).randomBytes = s.randomBytes := rfl
@[simp] theorem State.setPaused_keyAnswers (s : State) (b : Bool) : (s.setPaused b).keyAnswers = s.keyAnswers := rfl
@[simp] theorem State.setPaused_collisions (s : State) (b : Bool) : (s.setPaused b).collisions = s.collisions := rfl
@[simp] theorem State.setPaused_draws (s : State) (b : Bool) : (s.setPaused b).draws = s.draws := rfl

/-! ### setRunState -/

@[simp] theorem State.setRunState_v (s : State) (r : RunState) : (s.setRunState r).v = s.v := rfl
@[simp] theorem State.setRunState_index (s : State) (r : RunState) : (s.setRunState r).index = s.index := rfl
@[simp] theorem State.setRunState_pc (s : State) (r : RunState) : (s.setRunState r).pc = s.pc := rfl
@[simp] theorem State.setRunState_sp (s : State) (r : RunState) : (s.setRunState r).sp = s.sp := rfl
@[simp] theorem State.setRunState_stack (s : State) (r : RunState) : (s.setRunState r).stack = s.stack := rfl
@[simp] theorem State.setRunState_dt (s : State) (r : RunState) : (s.setRunState r).dt = s.dt := rfl
@[simp] theorem State.setRunState_st (s : State) (r : RunState) : (s.setRunState r).st = s.st := rfl
@[simp] theorem State.setRunState_mem (s : State) (r : RunState) : (s.setRunState r).mem = s.mem := rfl
@[simp] theorem State.setRunState_quirkShift (s : State) (r : RunState) : (s.setRunState r).quirkShift = s.quirkShift := rfl
@[simp] theorem State.setRunState_quirkLoadStore (s : State) (r : RunState) : (s.setRunState r).quirkLoadStore = s.quirkLoadStore := rfl
@[simp] theorem State.setRunState_repaint (s : State) (r : RunState) : (s.setRunState r).repaint = s.repaint := rfl
@[simp] theorem State.setRunState_kw (s : State) (r : RunState) : (s.setRunState r).kw = s.kw := rfl
@[simp] theorem State.setRunState_paused (s : State) (r : RunState) : (s.setRunState r).paused = s.paused := rfl
@[simp] theorem State.setRunState_runState (s : State) (r : RunState) : (s.setRunState r).runState = r := rfl
@[simp] theorem State.setRunState_fault (s : State) (r : RunState) : (s.setRunState r).fault = s.fault := rfl
@[simp] theorem State.setRunState_soundOn (s : State) (r : RunState) : (s.setRunState r).soundOn = s.soundOn := rfl
@[simp] theorem State.setRunState_config (s : State) (r : RunState) : (s.setRunState r).config = s.config := rfl
@[simp] theorem State.setRunState_commands (s : State) (r : RunState) : (s.setRunState r).commands = s.commands := rfl
@[simp] theorem State.setRunState_reply (s : State) (r : RunState) : (s.setRunState r).reply = s.reply := rfl
@[simp] theorem State.setRunState_requests (s : State) (r : RunState) : (s.setRunState r).requests = s.requests := rfl
@[simp] theorem State.setRunState_randomBytes (s : State) (r : RunState) : (s.setRunState r).randomBytes = s.randomBytes := rfl
@[simp] theorem State.setRunState_keyAnswers (s : State) (r : RunState) : (s.setRunState r).keyAnswers = s.keyAnswers := rfl
@[simp] theorem State.setRunState_collisions (s : State) (r : RunState) : (s.setRunState r).collisions = s.collisions := rfl
@[simp] theorem State.setRunState_draws (s : State) (r : RunState) : (s.setRunState r).draws = s.draws := rfl

end Sys2Proof.Machine
end

