-- ==== Sys2Proof/Laws/Memory.lean ====
section
/-! SUPPORT. The laws of memory: a read after a write, and the canonical form kept by every memory operation. -/

namespace Sys2Proof.Machine

/-- The addresses of a memory rise strictly. -/
abbrev Rising (m : List Host.Cell) : Prop := (m.map Prod.fst).Pairwise (· < ·)

theorem Memory.read_of_not_listed (font : List Byte) {m : List Host.Cell} {a : Nat} (h : a ∉ m.map Prod.fst) :
    Memory.read font m a = Memory.unlisted font a := by
  induction m with
  | nil => rfl
  | cons c rest ih =>
    obtain ⟨k, b⟩ := c
    simp only [List.map_cons, List.mem_cons, not_or] at h
    simp [Memory.read, Ne.symm h.1, ih h.2]

theorem Memory.fst_mem_drop {m : List Host.Cell} {a k : Nat} (h : k ∈ (Memory.drop m a).map Prod.fst) :
    k ∈ m.map Prod.fst := by
  induction m with
  | nil => exact h
  | cons c rest ih =>
    obtain ⟨j, b⟩ := c
    by_cases hj : j = a
    · simp only [Memory.drop, hj, if_true] at h
      exact List.mem_cons_of_mem _ h
    · simp only [Memory.drop, hj, if_false, List.map_cons, List.mem_cons] at h ⊢
      exact h.imp id ih

theorem Memory.mem_of_mem_drop {m : List Host.Cell} {a : Nat} {c : Host.Cell} (h : c ∈ Memory.drop m a) : c ∈ m := by
  induction m with
  | nil => exact h
  | cons d rest ih =>
    obtain ⟨j, b⟩ := d
    by_cases hj : j = a
    · simp only [Memory.drop, hj, if_true] at h
      exact List.mem_cons_of_mem _ h
    · simp only [Memory.drop, hj, if_false, List.mem_cons] at h ⊢
      exact h.imp id ih

theorem Memory.mem_of_mem_put {m : List Host.Cell} {a : Nat} {b : Byte} {c : Host.Cell} (h : c ∈ Memory.put m a b) :
    c = (a, b) ∨ c ∈ m := by
  induction m with
  | nil => simpa [Memory.put] using h
  | cons d rest ih =>
    obtain ⟨j, e⟩ := d
    simp only [Memory.put] at h
    split at h
    · simpa using h
    · split at h
      · simp only [List.mem_cons] at h ⊢
        tauto
      · simp only [List.mem_cons] at h ⊢
        rcases h with h | h
        · exact .inr (.inl h)
        · exact (ih h).imp id .inr

theorem Memory.rising_drop {m : List Host.Cell} (a : Nat) (h : Rising m) : Rising (Memory.drop m a) := by
  induction m with
  | nil => exact h
  | cons c rest ih =>
    obtain ⟨k, b⟩ := c
    simp only [Rising, List.map_cons, List.pairwise_cons] at h
    by_cases hk : k = a
    · simpa [Memory.drop, hk] using h.2
    · simp only [Memory.drop, hk, if_false, Rising, List.map_cons, List.pairwise_cons]
      exact ⟨fun j hj => h.1 j (Memory.fst_mem_drop hj), ih h.2⟩

theorem Memory.rising_put {m : List Host.Cell} (a : Nat) (b : Byte) (h : Rising m) : Rising (Memory.put m a b) := by
  induction m with
  | nil => simp [Memory.put, Rising]
  | cons c rest ih =>
    obtain ⟨k, e⟩ := c
    simp only [Rising, List.map_cons, List.pairwise_cons] at h
    by_cases hlt : a < k
    · simp only [Memory.put, hlt, if_true, Rising, List.map_cons, List.pairwise_cons, List.mem_cons]
      exact ⟨fun j hj => hj.elim (fun e => e ▸ hlt) (fun hj => hlt.trans (h.1 j hj)), h⟩
    · by_cases heq : a = k
      · subst heq
        simp only [Memory.put, lt_irrefl, if_false, if_true, Rising, List.map_cons, List.pairwise_cons]
        exact h
      · simp only [Memory.put, hlt, heq, if_false, Rising, List.map_cons, List.pairwise_cons]
        refine ⟨fun j hj => ?_, ih h.2⟩
        obtain ⟨d, hd, rfl⟩ := List.mem_map.1 hj
        rcases Memory.mem_of_mem_put hd with rfl | hd
        · simp only; omega
        · exact h.1 _ (List.mem_map_of_mem hd)

theorem Memory.read_drop (font : List Byte) {m : List Host.Cell} (a k : Nat) (h : Rising m) :
    Memory.read font (Memory.drop m a) k = if k = a then Memory.unlisted font a else Memory.read font m k := by
  induction m with
  | nil => by_cases hk : k = a <;> simp [Memory.drop, Memory.read, hk]
  | cons c rest ih =>
    obtain ⟨j, b⟩ := c
    simp only [Rising, List.map_cons, List.pairwise_cons] at h
    by_cases hj : j = a
    · subst hj
      have hn : j ∉ rest.map Prod.fst := fun hm => lt_irrefl _ (h.1 j hm)
      by_cases hk : k = j
      · subst hk
        simp [Memory.drop, Memory.read_of_not_listed font hn]
      · simp [Memory.drop, Memory.read, hk, Ne.symm hk]
    · by_cases hk : k = a
      · subst hk
        simpa [Memory.drop, Memory.read, hj] using ih h.2
      · by_cases hjk : j = k
        · simp [Memory.drop, Memory.read, hjk, hk]
        · simpa [Memory.drop, Memory.read, hj, hjk, hk] using ih h.2

theorem Memory.read_put (font : List Byte) (m : List Host.Cell) (a k : Nat) (b : Byte) :
    Memory.read font (Memory.put m a b) k = if k = a then b else Memory.read font m k := by
  induction m with
  | nil =>
    rcases eq_or_ne k a with rfl | hk
    · simp [Memory.put, Memory.read]
    · simp [Memory.put, Memory.read, hk, Ne.symm hk]
  | cons c rest ih =>
    obtain ⟨j, e⟩ := c
    by_cases hlt : a < j
    · rcases eq_or_ne k a with rfl | hk
      · simp [Memory.put, Memory.read, hlt]
      · simp [Memory.put, Memory.read, hlt, hk, Ne.symm hk]
    · by_cases heq : a = j
      · subst heq
        rcases eq_or_ne k a with rfl | hk
        · simp [Memory.put, Memory.read]
        · simp [Memory.put, Memory.read, hk, Ne.symm hk]
      · by_cases hjk : j = k
        · subst hjk
          simp [Memory.put, Memory.read, hlt, heq, Ne.symm heq]
        · simp [Memory.put, Memory.read, hlt, heq, hjk, ih]

/-- A read after a write: the value written there, and what it was everywhere else. -/
theorem Memory.read_write (font : List Byte) {m : List Host.Cell} (a k : Nat) (b : Byte) (h : Rising m) :
    Memory.read font (Memory.write font m a b) k = if k = a then b else Memory.read font m k := by
  by_cases hb : b = Memory.unlisted font a
  · simp [Memory.write, hb, Memory.read_drop font a k h]
  · simp [Memory.write, hb, Memory.read_put]

theorem Memory.wf_drop (font : List Byte) {m : List Host.Cell} (a : Nat) (h : Memory.wf font m) :
    Memory.wf font (Memory.drop m a) :=
  ⟨Memory.rising_drop a h.1, fun c hc => h.2 c (Memory.mem_of_mem_drop hc)⟩

theorem Memory.wf_put (font : List Byte) {m : List Host.Cell} (a : Nat) (b : Byte) (h : Memory.wf font m)
    (hb : b ≠ Memory.unlisted font a) : Memory.wf font (Memory.put m a b) := by
  refine ⟨Memory.rising_put a b h.1, fun c hc => ?_⟩
  rcases Memory.mem_of_mem_put hc with rfl | hc
  · exact hb
  · exact h.2 c hc

/-- A write keeps the canonical form. -/
theorem Memory.wf_write (font : List Byte) {m : List Host.Cell} (a : Nat) (b : Byte) (h : Memory.wf font m) :
    Memory.wf font (Memory.write font m a b) := by
  by_cases hb : b = Memory.unlisted font a
  · simpa only [Memory.write, if_pos hb] using Memory.wf_drop font a h
  · simpa only [Memory.write, if_neg hb] using Memory.wf_put font a b h hb

theorem Memory.mem_of_mem_write (font : List Byte) {m : List Host.Cell} {a : Nat} {b : Byte} {c : Host.Cell}
    (h : c ∈ Memory.write font m a b) : c = (a, b) ∨ c ∈ m := by
  by_cases hb : b = Memory.unlisted font a
  · simp only [Memory.write, if_pos hb] at h
    exact .inr (Memory.mem_of_mem_drop h)
  · simp only [Memory.write, if_neg hb] at h
    exact Memory.mem_of_mem_put h

/-- Storing consecutive bytes keeps the canonical form. -/
theorem Memory.wf_writeAll (font : List Byte) (bs : List Byte) {m : List Host.Cell} (a : Nat) (h : Memory.wf font m) :
    Memory.wf font (Memory.writeAll font m a bs) := by
  induction bs generalizing m a with
  | nil => exact h
  | cons b bs ih => exact ih (a + 1) (Memory.wf_write font a b h)

/-- Storing consecutive bytes lists no address but theirs and the ones listed before. -/
theorem Memory.fst_of_mem_writeAll (font : List Byte) (bs : List Byte) {m : List Host.Cell} {a : Nat} {c : Host.Cell}
    (h : c ∈ Memory.writeAll font m a bs) : c ∈ m ∨ (a ≤ c.1 ∧ c.1 < a + bs.length) := by
  induction bs generalizing m a with
  | nil => exact .inl h
  | cons b bs ih =>
    rcases ih h with hc | hc
    · rcases Memory.mem_of_mem_write font hc with rfl | hc
      · exact .inr ⟨le_rfl, by simp⟩
      · exact .inl hc
    · exact .inr ⟨by omega, by simp only [List.length_cons]; omega⟩

/-- A read after a store of consecutive bytes: the stored byte inside them, what it was outside. -/
theorem Memory.read_writeAll (font : List Byte) (bs : List Byte) {m : List Host.Cell} (a k : Nat) (h : Rising m) :
    Memory.read font (Memory.writeAll font m a bs) k =
      if a ≤ k ∧ k < a + bs.length then bs.getD (k - a) 0 else Memory.read font m k := by
  induction bs generalizing m a with
  | nil => simp only [Memory.writeAll, List.length_nil, Nat.add_zero]; rw [if_neg (by omega)]
  | cons b bs ih =>
    have hr : Rising (Memory.write font m a b) := by
      by_cases hb : b = Memory.unlisted font a
      · simpa only [Memory.write, if_pos hb] using Memory.rising_drop a h
      · simpa only [Memory.write, if_neg hb] using Memory.rising_put a b h
    rw [Memory.writeAll, ih (a + 1) hr, Memory.read_write font a k b h]
    by_cases hk : k = a
    · subst hk
      simp
    · by_cases hin : a + 1 ≤ k ∧ k < a + 1 + bs.length
      · obtain ⟨j, rfl⟩ : ∃ j, k = a + 1 + j := ⟨k - (a + 1), by omega⟩
        rw [if_pos hin, if_pos (by simp only [List.length_cons]; omega)]
        have e1 : a + 1 + j - (a + 1) = j := by omega
        have e2 : a + 1 + j - a = j + 1 := by omega
        simp [e1, e2]
      · rw [if_neg hin, if_neg hk, if_neg (by simp only [List.length_cons]; omega)]

/-! ### On the state -/

theorem State.readByte_of_mem_eq {s t : State} (hm : t.mem = s.mem) (hc : t.config = s.config) (a : Nat) :
    t.readByte a = s.readByte a := by simp [State.readByte, hm, hc]

/-- A read after a store of the state. -/
theorem State.readByte_writeBytes (s : State) (a k : Nat) (bs : List Byte) (h : Rising s.mem) :
    (s.writeBytes a bs).readByte k = if a ≤ k ∧ k < a + bs.length then bs.getD (k - a) 0 else s.readByte k := by
  simp only [State.readByte, State.writeBytes_config, State.writeBytes_mem]
  exact Memory.read_writeAll s.config.font bs a k h

end Sys2Proof.Machine
end

