-- ==== Sys2Proof/Laws/Ops.lean ====
section
/-! SUPPORT. What each shared operation does, said once: registers, the address mask, the stack ring, range checks, the
environment's answers, the timer update, reset, a cycle. -/

namespace Sys2Proof.Machine

/-! ### Reading a register or a byte past an update that leaves it alone -/

@[simp] theorem State.reg_setPc (s : State) (a : Word) (j : Reg) : (s.setPc a).reg j = s.reg j := rfl
@[simp] theorem State.reg_adv (s : State) (k : Word) (j : Reg) : (s.adv k).reg j = s.reg j := rfl
@[simp] theorem State.reg_skipIf (s : State) (c : Bool) (j : Reg) : (s.skipIf c).reg j = s.reg j := rfl
@[simp] theorem State.reg_setIndex (s : State) (a : Word) (j : Reg) : (s.setIndex a).reg j = s.reg j := rfl
@[simp] theorem State.reg_setDt (s : State) (b : Byte) (j : Reg) : (s.setDt b).reg j = s.reg j := rfl
@[simp] theorem State.reg_setSt (s : State) (b : Byte) (j : Reg) : (s.setSt b).reg j = s.reg j := rfl
@[simp] theorem State.reg_setRepaint (s : State) (b : Bool) (j : Reg) : (s.setRepaint b).reg j = s.reg j := rfl
@[simp] theorem State.reg_setPaused (s : State) (b : Bool) (j : Reg) : (s.setPaused b).reg j = s.reg j := rfl
@[simp] theorem State.reg_setRunState (s : State) (r : RunState) (j : Reg) : (s.setRunState r).reg j = s.reg j := rfl
@[simp] theorem State.reg_setCommands (s : State) (cs : List Command) (j : Reg) : (s.setCommands cs).reg j = s.reg j := rfl
@[simp] theorem State.reg_setKw (s : State) (k : Option Reg) (j : Reg) : (s.setKw k).reg j = s.reg j := rfl
@[simp] theorem State.reg_push (s : State) (a : Word) (j : Reg) : (s.push a).reg j = s.reg j := rfl
@[simp] theorem State.reg_pop (s : State) (j : Reg) : (s.pop).reg j = s.reg j := rfl
@[simp] theorem State.reg_send (s : State) (rs : List Request) (j : Reg) : (s.send rs).reg j = s.reg j := rfl
@[simp] theorem State.reg_takeRandom (s : State) (j : Reg) : (s.takeRandom).reg j = s.reg j := rfl
@[simp] theorem State.reg_takeKey (s : State) (j : Reg) : (s.takeKey).reg j = s.reg j := rfl
@[simp] theorem State.reg_takeCollisions (s : State) (n : Nat) (j : Reg) : (s.takeCollisions n).reg j = s.reg j := rfl
@[simp] theorem State.reg_raise (s : State) (k : FaultKind) (info : Word) (j : Reg) : (s.raise k info).reg j = s.reg j := rfl
@[simp] theorem State.reg_setReply (s : State) (r : Reply) (j : Reg) : (s.setReply r).reg j = s.reg j := rfl
@[simp] theorem State.reg_advanceIndex (s : State) (x : Reg) (j : Reg) : (s.advanceIndex x).reg j = s.reg j := rfl
@[simp] theorem State.reg_timerUpdate (s : State) (j : Reg) : (s.timerUpdate).reg j = s.reg j := rfl
@[simp] theorem State.reg_writeBytes (s : State) (a : Nat) (bs : List Byte) (j : Reg) : (s.writeBytes a bs).reg j = s.reg j := rfl

@[simp] theorem State.readByte_setPc (s : State) (a : Word) (addr : Nat) : (s.setPc a).readByte addr = s.readByte addr := rfl
@[simp] theorem State.readByte_adv (s : State) (k : Word) (addr : Nat) : (s.adv k).readByte addr = s.readByte addr := rfl
@[simp] theorem State.readByte_skipIf (s : State) (c : Bool) (addr : Nat) : (s.skipIf c).readByte addr = s.readByte addr := rfl
@[simp] theorem State.readByte_setIndex (s : State) (a : Word) (addr : Nat) : (s.setIndex a).readByte addr = s.readByte addr := rfl
@[simp] theorem State.readByte_setDt (s : State) (b : Byte) (addr : Nat) : (s.setDt b).readByte addr = s.readByte addr := rfl
@[simp] theorem State.readByte_setSt (s : State) (b : Byte) (addr : Nat) : (s.setSt b).readByte addr = s.readByte addr := rfl
@[simp] theorem State.readByte_setRepaint (s : State) (b : Bool) (addr : Nat) : (s.setRepaint b).readByte addr = s.readByte addr := rfl
@[simp] theorem State.readByte_setPaused (s : State) (b : Bool) (addr : Nat) : (s.setPaused b).readByte addr = s.readByte addr := rfl
@[simp] theorem State.readByte_setRunState (s : State) (r : RunState) (addr : Nat) : (s.setRunState r).readByte addr = s.readByte addr := rfl
@[simp] theorem State.readByte_setCommands (s : State) (cs : List Command) (addr : Nat) : (s.setCommands cs).readByte addr = s.readByte addr := rfl
@[simp] theorem State.readByte_setKw (s : State) (k : Option Reg) (addr : Nat) : (s.setKw k).readByte addr = s.readByte addr := rfl
@[simp] theorem State.readByte_push (s : State) (a : Word) (addr : Nat) : (s.push a).readByte addr = s.readByte addr := rfl
@[simp] theorem State.readByte_pop (s : State) (addr : Nat) : (s.pop).readByte addr = s.readByte addr := rfl
@[simp] theorem State.readByte_send (s : State) (rs : List Request) (addr : Nat) : (s.send rs).readByte addr = s.readByte addr := rfl
@[simp] theorem State.readByte_takeRandom (s : State) (addr : Nat) : (s.takeRandom).readByte addr = s.readByte addr := rfl
@[simp] theorem State.readByte_takeKey (s : State) (addr : Nat) : (s.takeKey).readByte addr = s.readByte addr := rfl
@[simp] theorem State.readByte_takeCollisions (s : State) (n : Nat) (addr : Nat) : (s.takeCollisions n).readByte addr = s.readByte addr := rfl
@[simp] theorem State.readByte_raise (s : State) (k : FaultKind) (info : Word) (addr : Nat) : (s.raise k info).readByte addr = s.readByte addr := rfl
@[simp] theorem State.readByte_setReply (s : State) (r : Reply) (addr : Nat) : (s.setReply r).readByte addr = s.readByte addr := rfl
@[simp] theorem State.readByte_advanceIndex (s : State) (x : Reg) (addr : Nat) : (s.advanceIndex x).readByte addr = s.readByte addr := rfl
@[simp] theorem State.readByte_timerUpdate (s : State) (addr : Nat) : (s.timerUpdate).readByte addr = s.readByte addr := rfl
@[simp] theorem State.readByte_setRegFlag (s : State) (x : Reg) (b : Byte) (c : Bool) (addr : Nat) : (s.setRegFlag x b c).readByte addr = s.readByte addr := rfl
@[simp] theorem State.readByte_setReg (s : State) (x : Reg) (b : Byte) (addr : Nat) : (s.setReg x b).readByte addr = s.readByte addr := rfl
@[simp] theorem State.readByte_setRegsUpTo (s : State) (x : Reg) (bs : List Byte) (addr : Nat) : (s.setRegsUpTo x bs).readByte addr = s.readByte addr := rfl

/-! ### Registers -/

@[simp] theorem State.reg_setReg_self (s : State) (x : Reg) (b : Byte) : (s.setReg x b).reg x = b := by
  simp [State.reg]

theorem State.reg_setReg_of_ne (s : State) {x j : Reg} (b : Byte) (h : j ≠ x) : (s.setReg x b).reg j = s.reg j := by
  have h' : x.val ≠ j.val := fun e => h (Fin.ext e.symm)
  simp [State.reg, Vector.getElem_set_ne, h']

/-- A register read after a register write. -/
theorem State.reg_setReg (s : State) (x j : Reg) (b : Byte) : (s.setReg x b).reg j = if j = x then b else s.reg j := by
  split
  · subst j; exact State.reg_setReg_self s x b
  · exact State.reg_setReg_of_ne s b ‹_›

/-- A register read after a block load: the loaded byte up to Vx, the old value above. -/
theorem State.reg_setRegsUpTo (s : State) (x j : Reg) (bs : List Byte) :
    (s.setRegsUpTo x bs).reg j = if j ≤ x then bs.getD j.val 0 else s.reg j := by
  simp [State.reg]

/-- With the flag written last, VF holds the flag whatever x is (10_state.md R42). -/
@[simp] theorem State.reg_setRegFlag_vF (s : State) (x : Reg) (b : Byte) (c : Bool) :
    (s.setRegFlag x b c).reg vF = flagByte c := by
  simp [State.setRegFlag]

theorem State.reg_setRegFlag (s : State) (x j : Reg) (b : Byte) (c : Bool) :
    (s.setRegFlag x b c).reg j = if j = vF then flagByte c else if j = x then b else s.reg j := by
  simp only [State.setRegFlag, State.reg_setReg]

/-! ### The address mask -/

/-- The mask keeps the low twelve bits: it is the remainder modulo 4096. -/
@[simp] theorem maskAddr_toNat (a : Word) : (maskAddr a).toNat = a.toNat % 0x1000 := by
  rw [maskAddr, BitVec.toNat_and]
  exact Nat.and_two_pow_sub_one_eq_mod a.toNat 12

theorem maskAddr_lt (a : Word) : (maskAddr a).toNat < 0x1000 := by
  rw [maskAddr_toNat]; exact Nat.mod_lt _ (by decide)

theorem maskAddr_of_lt {a : Word} (h : a.toNat < 0x1000) : maskAddr a = a :=
  BitVec.eq_of_toNat_eq (by rw [maskAddr_toNat, Nat.mod_eq_of_lt h])

@[simp] theorem addrOfNNN_toNat (nnn : Addr12) : (addrOfNNN nnn).toNat = nnn.toNat := by
  have := nnn.isLt
  simp only [addrOfNNN, BitVec.toNat_setWidth]; omega

@[simp] theorem wordOfByte_toNat (b : Byte) : (wordOfByte b).toNat = b.toNat := by
  have := b.isLt
  simp only [wordOfByte, BitVec.toNat_setWidth]; omega

/-! ### The stack ring (10_state.md R31) -/

theorem isPowerOfTwo_iff {n : Nat} : isPowerOfTwo n = true ↔ ∃ k, n = 2 ^ k := by
  constructor
  · intro h
    exact ⟨n.log2, (by simpa [isPowerOfTwo] using h : 2 ^ n.log2 = n).symm⟩
  · rintro ⟨k, rfl⟩
    simp [isPowerOfTwo, Nat.log2_two_pow]

/-- The mask of a power of two is the remainder. -/
theorem and_cap_eq_mod {cap : Nat} (h : isPowerOfTwo cap = true) (n : Nat) : n &&& (cap - 1) = n % cap := by
  obtain ⟨k, rfl⟩ := isPowerOfTwo_iff.1 h
  exact Nat.and_two_pow_sub_one_eq_mod n k

theorem cap_pos {cap : Nat} (h : isPowerOfTwo cap = true) : 0 < cap := by
  obtain ⟨k, rfl⟩ := isPowerOfTwo_iff.1 h
  exact Nat.two_pow_pos k

theorem State.spUp_eq {s : State} (h : isPowerOfTwo s.config.stackCap = true) :
    s.spUp = (s.sp + 1) % s.config.stackCap := and_cap_eq_mod h _

theorem State.spDown_eq {s : State} (h : isPowerOfTwo s.config.stackCap = true) :
    s.spDown = (s.sp + s.config.stackCap - 1) % s.config.stackCap := and_cap_eq_mod h _

theorem State.spUp_lt {s : State} (h : isPowerOfTwo s.config.stackCap = true) : s.spUp < s.config.stackCap := by
  rw [State.spUp_eq h]; exact Nat.mod_lt _ (cap_pos h)

theorem State.spDown_lt {s : State} (h : isPowerOfTwo s.config.stackCap = true) : s.spDown < s.config.stackCap := by
  rw [State.spDown_eq h]; exact Nat.mod_lt _ (cap_pos h)

/-- A pop's move undoes a push's move. -/
theorem State.spDown_push {s : State} (a : Word) (h : isPowerOfTwo s.config.stackCap = true)
    (hs : s.sp < s.config.stackCap) : (s.push a).spDown = s.sp := by
  have hc := cap_pos h
  rw [State.spDown_eq (s := s.push a) h]
  simp only [State.push_sp, State.push_config, State.spUp_eq h]
  by_cases hl : s.sp + 1 = s.config.stackCap
  · rw [hl, Nat.mod_self, Nat.zero_add, Nat.mod_eq_of_lt (by omega)]; omega
  · rw [Nat.mod_eq_of_lt (show s.sp + 1 < s.config.stackCap by omega),
      show s.sp + 1 + s.config.stackCap - 1 = s.sp + s.config.stackCap by omega, Nat.add_mod_right, Nat.mod_eq_of_lt hs]

/-- The slot a push wrote. -/
theorem State.slot_push_self {s : State} (a : Word) (h : s.sp < s.stack.length) : (s.push a).slot s.sp = a := by
  simp [State.slot, h]

/-- A push leaves every other slot alone. -/
theorem State.slot_push_of_ne (s : State) (a : Word) {j : Nat} (h : j ≠ s.sp) : (s.push a).slot j = s.slot j := by
  simp [State.slot, Ne.symm h]

/-- I after a block transfer, as a number. -/
theorem indexAfterBlock_toNat (keep : Bool) (i : Word) (x : Reg) :
    (indexAfterBlock keep i x).toNat = if keep = true then i.toNat else (i.toNat + x.val + 1) % 0x1000 := by
  cases keep
  · simp [indexAfterBlock]; omega
  · rfl

/-! ### Range checks and faults -/

/-- A range check passes when there is no access or the last one lies in memory (20_memory.md R56). -/
theorem State.inRange_iff (s : State) (count : Nat) :
    s.inRange count = true ↔ count = 0 ∨ s.index.toNat + count ≤ 0x1000 := by
  simp only [State.inRange, Bool.or_eq_true, beq_iff_eq, decide_eq_true_eq]
  omega

theorem State.readBytes_length (s : State) (a n : Nat) : (s.readBytes a n).length = n := by simp [State.readBytes]

theorem State.readBytes_getD (s : State) (a : Nat) {n k : Nat} (h : k < n) :
    (s.readBytes a n).getD k 0 = s.readByte (a + k) := by
  simp [State.readBytes, h]

theorem State.regsUpTo_length (s : State) (x : Reg) : (s.regsUpTo x).length = x.val + 1 := by
  simp only [State.regsUpTo, List.length_take, Vector.length_toList]; omega

theorem State.regsUpTo_getD (s : State) (x : Reg) {k : Nat} (hk : k ≤ x.val) (h : k < 16) :
    (s.regsUpTo x).getD k 0 = s.reg ⟨k, h⟩ := by
  have : k < x.val + 1 := by omega
  simp [State.regsUpTo, State.reg, this]

/-! ### BCD digits and queued answers -/

@[simp] theorem bcdDigits_length (b : Byte) : (bcdDigits b).length = 3 := rfl

theorem bcdDigits_getD (b : Byte) {j : Nat} (hj : j < 3) : ((bcdDigits b).getD j 0).toNat = decimalDigit b.toNat j := by
  have := b.isLt
  interval_cases j <;> simp [bcdDigits, decimalDigit]
  omega

theorem State.collisionAnswer_of_queued {s : State} {k : Nat} {b : Bool} (h : s.collisions[k]? = some b) :
    s.collisionAnswer k = b := by
  simp [State.collisionAnswer, h]

/-! ### The timer update and reset -/

/-- Everything the timer update does: both timers, the sound mirror and one Audio request (60_exceptions.md R217, R218). -/
theorem State.timerUpdate_eq (s : State) :
    s.timerUpdate = { s with
      dt := decTimer s.config.timerAtZero s.dt
      st := decTimer s.config.timerAtZero s.st
      soundOn := decide (s.st.toNat > 0)
      requests := s.requests ++ [soundRequest s.st] } := rfl

/-- The decrement as the spec's arithmetic has it (R217). -/
@[simp] theorem decTimer_toNat (m : TimerAtZero) (b : Byte) : (decTimer m b).toNat = decremented m b.toNat := by
  cases m <;> simp only [decTimer, decremented]
  · split
    · bv_omega
    · simp; omega
  · bv_omega

/-- Reset is idempotent but for the `Audio.stop()` it sends. -/
theorem State.performReset_performReset (s : State) :
    s.performReset.performReset = { s.performReset with requests := s.requests ++ [.audioStop] ++ [.audioStop] } := rfl

/-- Power-on is the reset of the default configuration (70_reset_and_hazards.md R244). -/
theorem State.performReset_reset : State.reset.performReset = { State.reset with requests := [.audioStop, .audioStop] } := rfl

/-! ### A cycle and a transition -/

/-- Everything a cycle can do (30_encoding.md R90, R91). -/
theorem cycle_cases {s t : State} (h : cycle s = .next t) :
    (∃ f, s.fault = some f ∧ t = s.setReply (.faulted f)) ∨
    (s.fault = none ∧ s.kw ≠ none ∧ t = s.setReply .waiting) ∨
    (s.fault = none ∧ s.kw = none ∧ s.pc.toNat > 0xFFE ∧ t = s.raiseAddressOverflow.reportCycle) ∨
    (s.fault = none ∧ s.kw = none ∧ s.pc.toNat ≤ 0xFFE ∧ decodeWord s.config.decodeMode s.fetchWord = none ∧
      t = (s.raise .invalidOpcode s.fetchWord).reportCycle) ∨
    (∃ i u, s.Ready i ∧ exec i s = .next u ∧ t = u.reportCycle) := by
  unfold cycle at h
  split at h
  · rename_i f hf
    exact .inl ⟨f, hf, (Host.Outcome.next.inj h).symm⟩
  · rename_i r hf hk
    exact .inr (.inl ⟨hf, by simp [hk], (Host.Outcome.next.inj h).symm⟩)
  · rename_i hf hk
    split at h
    · exact .inr (.inr (.inl ⟨hf, hk, ‹_›, (Host.Outcome.next.inj h).symm⟩))
    · have hp : s.pc.toNat ≤ 0xFFE := by omega
      split at h
      · rename_i i hi
        cases hu : exec i s with
        | next u =>
          rw [hu] at h
          exact .inr (.inr (.inr (.inr ⟨i, u, ⟨hf, hk, hp, hi⟩, hu, (Host.Outcome.next.inj h).symm⟩)))
        | fault r => rw [hu] at h; exact absurd h (by simp [mapNext])
        | refused r => rw [hu] at h; exact absurd h (by simp [mapNext])
      · exact .inr (.inr (.inr (.inl ⟨hf, hk, hp, ‹_›, (Host.Outcome.next.inj h).symm⟩)))

/-- A report changes nothing but the reply. -/
theorem State.reportCycle_eq (s : State) : ∃ r, s.reportCycle = s.setReply r := by
  unfold State.reportCycle; split
  · exact ⟨_, rfl⟩
  · exact ⟨_, rfl⟩

/-- With no command queued a step is one cycle (log 1). -/
theorem step_of_no_command {s : State} (h : s.commands = []) : step s = cycle s := by
  simp [step, transition, h]

/-- With a command queued a step obeys it. -/
theorem step_of_command {s : State} {c : Command} {rest : List Command} (h : s.commands = c :: rest) :
    step s = obey c (s.setCommands rest) := by
  simp [step, transition, h]

end Sys2Proof.Machine
end

