-- ==== Sys2Proof/Laws/Display.lean ====
section
/-! SUPPORT. The pixels a sprite toggles: which they are and in which order. -/

namespace Sys2Proof.Machine

theorem mem_rowPixels {cx cy : Nat} {row : Byte} {px py : Nat} :
    (px, py) ∈ rowPixels cx cy row ↔ ∃ c, c < 8 ∧ row.getLsbD (7 - c) = true ∧ px = cx + c ∧ py = cy := by
  simp only [rowPixels, List.mem_filterMap, List.mem_range, Option.ite_none_right_eq_some, Option.some.injEq, Prod.mk.injEq]
  constructor
  · rintro ⟨c, hc, hb, rfl, rfl⟩
    exact ⟨c, hc, hb, rfl, rfl⟩
  · rintro ⟨c, hc, hb, rfl, rfl⟩
    exact ⟨c, hc, hb, rfl, rfl⟩

theorem mem_spritePixels {cx : Nat} {rows : List Byte} {cy px py : Nat} :
    (px, py) ∈ spritePixels cx cy rows ↔
      ∃ r c, r < rows.length ∧ c < 8 ∧ (rows.getD r 0).getLsbD (7 - c) = true ∧ px = cx + c ∧ py = cy + r := by
  induction rows generalizing cy with
  | nil => simp [spritePixels]
  | cons b bs ih =>
    simp only [spritePixels, List.mem_append, mem_rowPixels, ih]
    constructor
    · rintro (⟨c, hc, hb, hx, hy⟩ | ⟨r, c, hr, hc, hb, hx, hy⟩)
      · exact ⟨0, c, by simp, hc, by simpa using hb, hx, by omega⟩
      · exact ⟨r + 1, c, by simpa using hr, hc, by simpa using hb, hx, by omega⟩
    · rintro ⟨r, c, hr, hc, hb, hx, hy⟩
      cases r with
      | zero => exact .inl ⟨c, hc, by simpa using hb, hx, by omega⟩
      | succ r => exact .inr ⟨r, c, by simpa using hr, hc, by simpa using hb, hx, by omega⟩

/-- One pixel before another: on a higher row, or to the left on the same row. -/
abbrev PixelBefore (p q : Nat × Nat) : Prop := p.2 < q.2 ∨ (p.2 = q.2 ∧ p.1 < q.1)

theorem rowPixels_ordered (cx cy : Nat) (row : Byte) : (rowPixels cx cy row).Pairwise PixelBefore := by
  unfold rowPixels
  rw [List.pairwise_filterMap]
  refine List.Pairwise.imp ?_ List.pairwise_lt_range
  intro a b hab
  simp only [Option.ite_none_right_eq_some, Option.some.injEq, Prod.forall, Prod.mk.injEq]
  omega

theorem spritePixels_ordered (cx : Nat) (rows : List Byte) (cy : Nat) : (spritePixels cx cy rows).Pairwise PixelBefore := by
  induction rows generalizing cy with
  | nil => simp [spritePixels]
  | cons b bs ih =>
    simp only [spritePixels, List.pairwise_append]
    refine ⟨rowPixels_ordered .., ih _, ?_⟩
    rintro ⟨px, py⟩ hp ⟨qx, qy⟩ hq
    obtain ⟨_, _, _, _, hp⟩ := mem_rowPixels.1 hp
    obtain ⟨_, _, _, _, _, _, hq⟩ := mem_spritePixels.1 hq
    left
    simp only
    omega

/-- A sprite toggles no more pixels than it has bits. -/
theorem rowPixels_length_le (cx cy : Nat) (row : Byte) : (rowPixels cx cy row).length ≤ 8 := by
  simpa [rowPixels] using List.length_filterMap_le (fun c => if row.getLsbD (7 - c) then some (cx + c, cy) else none) (List.range 8)

end Sys2Proof.Machine
end

