-- ==== Sys2Proof/Laws/Step.lean ====
section
/-! SUPPORT. What a cycle, a tick and a step do, case by case, so that no later proof unfolds them. -/

namespace Sys2Proof.Machine

/-! ### The cycle, forward (30_encoding.md R90) -/

theorem cycle_of_fault {s : State} {f : FaultRecord} (hf : s.fault = some f) :
    cycle s = .next (s.setReply (.faulted f)) := by
  unfold cycle; split <;> simp_all

theorem cycle_of_wait {s : State} {r : Reg} (hf : s.fault = none) (hk : s.kw = some r) :
    cycle s = .next (s.setReply .waiting) := by
  unfold cycle; split <;> simp_all

theorem cycle_of_ready {s t : State} {i : Instr} (h : s.Ready i) (he : exec i s = .next t) :
    cycle s = .next t.reportCycle := by
  obtain ⟨hf, hk, hp, hd⟩ := h
  unfold cycle; split <;> simp_all [mapNext]

/-- A state is ready for at most one instruction. -/
theorem State.Ready.unique {s : State} {i j : Instr} (hi : s.Ready i) (hj : s.Ready j) : i = j :=
  Option.some.inj (hi.2.2.2.symm.trans hj.2.2.2)

/-- The command queue plays no part in whether an instruction is ready. -/
@[simp] theorem State.ready_setCommands (s : State) (cs : List Command) (i : Instr) :
    (s.setCommands cs).Ready i ↔ s.Ready i := Iff.rfl

/-! ### The tick (60_exceptions.md R215) -/

theorem mapNext_eq_next {f : State → State} {r : Result} {t : State} :
    mapNext f r = .next t ↔ ∃ u, r = .next u ∧ t = f u := by
  cases r <;> simp [mapNext, eq_comm]

/-- Everything a tick can do. -/
theorem tick_cases {s t : State} (h : tick s = .next t) :
    (s.runState = .stopped ∧ t = s.refuse .notRunning) ∨
    (s.runState = .running ∧ s.paused = true ∧ t = (s.setReply .skipped).timerUpdate) ∨
    (∃ u, s.runState = .running ∧ s.paused = false ∧ cycle s = .next u ∧ s.fault = none ∧ u.fault ≠ none ∧ t = u) ∨
    (∃ u, s.runState = .running ∧ s.paused = false ∧ cycle s = .next u ∧ (s.fault ≠ none ∨ u.fault = none) ∧
      t = u.timerUpdate) := by
  unfold tick at h
  split at h
  · exact .inl ⟨‹_›, (Host.Outcome.next.inj h).symm⟩
  · rename_i hr
    split at h
    · exact .inr (.inl ⟨hr, ‹_›, (Host.Outcome.next.inj h).symm⟩)
    · rename_i hp
      obtain ⟨u, hu, rfl⟩ := mapNext_eq_next.1 h
      unfold State.finishTick
      split
      · rename_i hc
        simp only [Bool.and_eq_true, Option.isNone_iff_eq_none, Option.isSome_iff_ne_none] at hc
        exact .inr (.inr (.inl ⟨u, hr, by simpa using hp, hu, hc.1, hc.2, rfl⟩))
      · rename_i hc
        simp only [Bool.and_eq_true, Option.isNone_iff_eq_none, Option.isSome_iff_ne_none] at hc
        exact .inr (.inr (.inr ⟨u, hr, by simpa using hp, hu, by tauto, rfl⟩))

/-! ### The step (60_exceptions.md R216, R221) -/

/-- A step is a cycle of the state it took the command from, a tick of it, or a host command that runs no cycle. -/
theorem step_cases {s t : State} (h : step s = .next t) :
    (s.commands = [] ∧ cycle s = .next t) ∨
    (∃ rest, s.commands = .step :: rest ∧ cycle (s.setCommands rest) = .next t) ∨
    (∃ rest, s.commands = .tick :: rest ∧ tick (s.setCommands rest) = .next t) ∨
    (∃ c rest, s.commands = c :: rest ∧ c ≠ .step ∧ c ≠ .tick ∧ obey c (s.setCommands rest) = .next t) := by
  rcases hc : s.commands with _ | ⟨c, rest⟩
  · rw [step_of_no_command hc] at h
    exact .inl ⟨rfl, h⟩
  · rw [step_of_command hc] at h
    by_cases hs : c = .step
    · subst hs; exact .inr (.inl ⟨rest, rfl, h⟩)
    · by_cases ht : c = .tick
      · subst ht; exact .inr (.inr (.inl ⟨rest, rfl, h⟩))
      · exact .inr (.inr (.inr ⟨c, rest, rfl, hs, ht, h⟩))

/-- Everything a key-down can do to a state (46_input.md R191, 60_exceptions.md R222). -/
theorem State.resumeKeyWait_cases (s : State) (k : Reg) :
    (∃ r, s.kw = some r ∧ s.resumeKeyWait k = ((s.setReg r (BitVec.ofNat 8 k.val)).adv 2).setKw none) ∨
    (s.kw = none ∧ s.resumeKeyWait k = s) := by
  unfold State.resumeKeyWait
  split
  · exact .inl ⟨_, ‹_›, rfl⟩
  · exact .inr ⟨‹_›, rfl⟩

/-- A configuration that passes the check is legal and is the one asked for (60_exceptions.md R205). -/
theorem checkConfig_inl {r : ConfigRequest} {c : Configuration} (h : checkConfig r = .inl c) :
    LegalConfig c ∧ c.stackCap = r.stackCap ∧ c.quirkShiftDefault = r.quirkShiftDefault ∧
      c.quirkLoadStoreDefault = r.quirkLoadStoreDefault ∧ c.font = r.font ∧ some c.timerAtZero = r.timerAtZero ∧
      some c.decodeMode = r.decodeMode := by
  unfold checkConfig at h
  split at h
  · cases h
  · split at h
    · cases h
    · split at h
      · cases h
      · cases h
      · cases h
        simp_all [LegalConfig]

end Sys2Proof.Machine
end

