-- ==== Sys2Proof/Laws/Inv.lean ====
section
/-! SUPPORT. The invariant under the shared updates: an update that leaves the stack and the memory alone, a store, a push, a
pop, a reset. -/

namespace Sys2Proof.Machine

/-- The invariant speaks of seven things only; an update that keeps or legally sets each of them keeps it. -/
theorem State.Inv.of_parts {s t : State} (h : s.Inv) (hpc : t.pc = s.pc ∨ t.pc.toNat < 0x1000)
    (hx : t.index = s.index ∨ t.index.toNat < 0x1000) (hc : t.config = s.config) (hst : t.stack = s.stack)
    (hsp : t.sp = s.sp) (hm : t.mem = s.mem) (hf : t.fault ≠ none → t.runState = .stopped ∧ t.kw = none) : t.Inv := by
  obtain ⟨h1, h2, h3, h4, h5, h6, h7, h8, -⟩ := h
  refine ⟨?_, ?_, hc ▸ h3, by rw [hst, hc, h4], by rw [hsp, hc]; exact h5, by rw [hst]; exact h6,
    by rw [hm, hc]; exact h7, by rw [hm]; exact h8, hf⟩
  · rcases hpc with hpc | hpc
    · rwa [hpc]
    · exact hpc
  · rcases hx with hx | hx
    · rwa [hx]
    · exact hx

theorem State.Inv.writeBytes {s : State} (h : s.Inv) {a : Nat} {bs : List Byte} (hb : bs = [] ∨ a + bs.length ≤ 0x1000) :
    (s.writeBytes a bs).Inv := by
  obtain ⟨h1, h2, h3, h4, h5, h6, h7, h8, h9⟩ := h
  refine ⟨h1, h2, h3, h4, h5, h6, Memory.wf_writeAll _ _ _ h7, ?_, h9⟩
  intro c hc
  rcases Memory.fst_of_mem_writeAll _ _ hc with h | ⟨hl, hr⟩
  · exact h8 _ h
  · rcases hb with rfl | hb
    · simp only [List.length_nil] at hr; omega
    · simp only [memSize]; omega

theorem State.Inv.push {s : State} (h : s.Inv) {a : Word} (ha : a.toNat < 0x1000) : (s.push a).Inv := by
  obtain ⟨h1, h2, h3, h4, h5, h6, h7, h8, h9⟩ := h
  refine ⟨h1, h2, h3, by simpa using h4, State.spUp_lt h3.1, ?_, h7, h8, h9⟩
  intro b hb
  rcases List.mem_or_eq_of_mem_set hb with hb | rfl
  · exact h6 _ hb
  · exact ha

theorem State.Inv.pop {s : State} (h : s.Inv) : s.pop.Inv := by
  obtain ⟨h1, h2, h3, h4, h5, h6, h7, h8, h9⟩ := h
  exact ⟨h1, h2, h3, h4, State.spDown_lt h3.1, h6, h7, h8, h9⟩

theorem State.inv_performReset {s : State} (h : LegalConfig s.config) : s.performReset.Inv := by
  refine ⟨by simp, by simp, h, by simp, cap_pos h.1, ?_, by simp [Memory.wf], by simp, by simp⟩
  intro a ha
  simp only [State.performReset_stack, List.mem_replicate] at ha
  simp [ha.2]

end Sys2Proof.Machine
end

