-- ==== Sys2Proof/Laws/PerInstr.lean ====
section
/-! SUPPORT. For every instruction: its encoding carries the pattern of its own row of the opcode table, in both modes
(spec/30_encoding.md R80, R88). -/

namespace Sys2Proof.Laws.TableRow

/-- The row of the instruction's dispatch index covers its encoding in both modes. -/
def Statement (i : Instr) : Prop := ∃ r ∈ opcodeTable, r.idx = i.dispatchIndex ∧ ∀ m, r.covers m (encode i) = true

/-- A word carries a pattern under one of the three masks of the table. -/
theorem carries {w : Word} {k m p : Nat} (h : (k, m) = (0, 0xF000) ∨ (k, m) = (4, 0xF00F) ∨ (k, m) = (8, 0xF0FF))
    (hp : p < 0x10000) (hw : w.toNat / 0x1000 * 0x1000 + w.toNat % 2 ^ k = p) :
    (w &&& BitVec.ofNat 16 m == BitVec.ofNat 16 p) = true := by
  rw [beq_iff_eq]
  apply BitVec.eq_of_toNat_eq
  rw [word_and_toNat w h, hw, BitVec.toNat_ofNat, Nat.mod_eq_of_lt hp]

/-- A row that is the same in both modes covers a word that carries its pattern. -/
theorem covers_same {idx : BitVec 6} {w : Word} {k m p : Nat}
    (h : (k, m) = (0, 0xF000) ∨ (k, m) = (4, 0xF00F) ∨ (k, m) = (8, 0xF0FF)) (hp : p < 0x10000)
    (hw : w.toNat / 0x1000 * 0x1000 + w.toNat % 2 ^ k = p) (mode : DecodeMode) :
    (OpcodeRow.same idx (BitVec.ofNat 16 p) (BitVec.ofNat 16 m)).covers mode w = true := by
  cases mode
  · exact carries h hp hw
  · exact carries h hp hw

theorem sys (nnn : Addr12) : Statement (.sys nnn) :=
  ⟨.same 0 0x0000 0xF000, by decide, rfl, covers_same (k := 0) (m := 0xF000) (p := 0x0000) (.inl rfl) (by decide)
    (by have := nnn.isLt; simp only [encode, wordNNN_toNat, BitVec.ofNat_eq_ofNat, BitVec.toNat_ofNat]; omega)⟩

theorem cls : Statement .cls := ⟨⟨1, 0x00E0, 0xF0FF, 0x00E0, 0xFFFF⟩, by decide, rfl, fun m => by cases m <;> decide⟩

theorem ret : Statement .ret := ⟨⟨2, 0x00EE, 0xF0FF, 0x00EE, 0xFFFF⟩, by decide, rfl, fun m => by cases m <;> decide⟩

theorem jp (nnn : Addr12) : Statement (.jp nnn) :=
  ⟨.same 3 0x1000 0xF000, by decide, rfl, covers_same (k := 0) (m := 0xF000) (p := 0x1000) (.inl rfl) (by decide)
    (by have := nnn.isLt; simp only [encode, wordNNN_toNat, BitVec.ofNat_eq_ofNat, BitVec.toNat_ofNat]; omega)⟩

theorem call (nnn : Addr12) : Statement (.call nnn) :=
  ⟨.same 4 0x2000 0xF000, by decide, rfl, covers_same (k := 0) (m := 0xF000) (p := 0x2000) (.inl rfl) (by decide)
    (by have := nnn.isLt; simp only [encode, wordNNN_toNat, BitVec.ofNat_eq_ofNat, BitVec.toNat_ofNat]; omega)⟩

theorem seXkk (x : Reg) (kk : Byte) : Statement (.seXkk x kk) :=
  ⟨.same 5 0x3000 0xF000, by decide, rfl, covers_same (k := 0) (m := 0xF000) (p := 0x3000) (.inl rfl) (by decide)
    (by have := x.isLt; have := kk.isLt; simp only [encode, wordXKK_toNat, BitVec.ofNat_eq_ofNat, BitVec.toNat_ofNat]; omega)⟩

theorem sneXkk (x : Reg) (kk : Byte) : Statement (.sneXkk x kk) :=
  ⟨.same 6 0x4000 0xF000, by decide, rfl, covers_same (k := 0) (m := 0xF000) (p := 0x4000) (.inl rfl) (by decide)
    (by have := x.isLt; have := kk.isLt; simp only [encode, wordXKK_toNat, BitVec.ofNat_eq_ofNat, BitVec.toNat_ofNat]; omega)⟩

theorem seXy (x y : Reg) : Statement (.seXy x y) := by
  have hw : (encode (.seXy x y)).toNat = 0x5000 + x.val * 0x100 + y.val * 0x10 := by
    simp only [encode, wordXYN_toNat, BitVec.ofNat_eq_ofNat, BitVec.toNat_ofNat, Fin.isValue, Fin.coe_ofNat_eq_mod]; omega
  have := x.isLt
  have := y.isLt
  refine ⟨⟨7, 0x5000, 0xF000, 0x5000, 0xF00F⟩, by decide, rfl, fun m => ?_⟩
  cases m
  · exact carries (k := 0) (p := 0x5000) (.inl rfl) (by decide) (by rw [hw]; omega)
  · exact carries (k := 4) (p := 0x5000) (.inr (.inl rfl)) (by decide) (by rw [hw]; omega)

theorem ldXkk (x : Reg) (kk : Byte) : Statement (.ldXkk x kk) :=
  ⟨.same 8 0x6000 0xF000, by decide, rfl, covers_same (k := 0) (m := 0xF000) (p := 0x6000) (.inl rfl) (by decide)
    (by have := x.isLt; have := kk.isLt; simp only [encode, wordXKK_toNat, BitVec.ofNat_eq_ofNat, BitVec.toNat_ofNat]; omega)⟩

theorem addXkk (x : Reg) (kk : Byte) : Statement (.addXkk x kk) :=
  ⟨.same 9 0x7000 0xF000, by decide, rfl, covers_same (k := 0) (m := 0xF000) (p := 0x7000) (.inl rfl) (by decide)
    (by have := x.isLt; have := kk.isLt; simp only [encode, wordXKK_toNat, BitVec.ofNat_eq_ofNat, BitVec.toNat_ofNat]; omega)⟩

theorem ldXy (x y : Reg) : Statement (.ldXy x y) :=
  ⟨.same 10 0x8000 0xF00F, by decide, rfl, covers_same (k := 4) (m := 0xF00F) (p := 0x8000) (.inr (.inl rfl)) (by decide)
    (by have := x.isLt; have := y.isLt; simp only [encode, wordXYN_toNat, BitVec.ofNat_eq_ofNat, BitVec.toNat_ofNat, Fin.isValue, Fin.coe_ofNat_eq_mod]; omega)⟩

theorem orXy (x y : Reg) : Statement (.orXy x y) :=
  ⟨.same 11 0x8001 0xF00F, by decide, rfl, covers_same (k := 4) (m := 0xF00F) (p := 0x8001) (.inr (.inl rfl)) (by decide)
    (by have := x.isLt; have := y.isLt; simp only [encode, wordXYN_toNat, BitVec.ofNat_eq_ofNat, BitVec.toNat_ofNat, Fin.isValue, Fin.coe_ofNat_eq_mod]; omega)⟩

theorem andXy (x y : Reg) : Statement (.andXy x y) :=
  ⟨.same 12 0x8002 0xF00F, by decide, rfl, covers_same (k := 4) (m := 0xF00F) (p := 0x8002) (.inr (.inl rfl)) (by decide)
    (by have := x.isLt; have := y.isLt; simp only [encode, wordXYN_toNat, BitVec.ofNat_eq_ofNat, BitVec.toNat_ofNat, Fin.isValue, Fin.coe_ofNat_eq_mod]; omega)⟩

theorem xorXy (x y : Reg) : Statement (.xorXy x y) :=
  ⟨.same 13 0x8003 0xF00F, by decide, rfl, covers_same (k := 4) (m := 0xF00F) (p := 0x8003) (.inr (.inl rfl)) (by decide)
    (by have := x.isLt; have := y.isLt; simp only [encode, wordXYN_toNat, BitVec.ofNat_eq_ofNat, BitVec.toNat_ofNat, Fin.isValue, Fin.coe_ofNat_eq_mod]; omega)⟩

theorem addXy (x y : Reg) : Statement (.addXy x y) :=
  ⟨.same 14 0x8004 0xF00F, by decide, rfl, covers_same (k := 4) (m := 0xF00F) (p := 0x8004) (.inr (.inl rfl)) (by decide)
    (by have := x.isLt; have := y.isLt; simp only [encode, wordXYN_toNat, BitVec.ofNat_eq_ofNat, BitVec.toNat_ofNat, Fin.isValue, Fin.coe_ofNat_eq_mod]; omega)⟩

theorem subXy (x y : Reg) : Statement (.subXy x y) :=
  ⟨.same 15 0x8005 0xF00F, by decide, rfl, covers_same (k := 4) (m := 0xF00F) (p := 0x8005) (.inr (.inl rfl)) (by decide)
    (by have := x.isLt; have := y.isLt; simp only [encode, wordXYN_toNat, BitVec.ofNat_eq_ofNat, BitVec.toNat_ofNat, Fin.isValue, Fin.coe_ofNat_eq_mod]; omega)⟩

theorem shrXy (x y : Reg) : Statement (.shrXy x y) :=
  ⟨.same 16 0x8006 0xF00F, by decide, rfl, covers_same (k := 4) (m := 0xF00F) (p := 0x8006) (.inr (.inl rfl)) (by decide)
    (by have := x.isLt; have := y.isLt; simp only [encode, wordXYN_toNat, BitVec.ofNat_eq_ofNat, BitVec.toNat_ofNat, Fin.isValue, Fin.coe_ofNat_eq_mod]; omega)⟩

theorem subnXy (x y : Reg) : Statement (.subnXy x y) :=
  ⟨.same 17 0x8007 0xF00F, by decide, rfl, covers_same (k := 4) (m := 0xF00F) (p := 0x8007) (.inr (.inl rfl)) (by decide)
    (by have := x.isLt; have := y.isLt; simp only [encode, wordXYN_toNat, BitVec.ofNat_eq_ofNat, BitVec.toNat_ofNat, Fin.isValue, Fin.coe_ofNat_eq_mod]; omega)⟩

theorem shlXy (x y : Reg) : Statement (.shlXy x y) :=
  ⟨.same 18 0x800E 0xF00F, by decide, rfl, covers_same (k := 4) (m := 0xF00F) (p := 0x800E) (.inr (.inl rfl)) (by decide)
    (by have := x.isLt; have := y.isLt; simp only [encode, wordXYN_toNat, BitVec.ofNat_eq_ofNat, BitVec.toNat_ofNat, Fin.isValue, Fin.coe_ofNat_eq_mod]; omega)⟩

theorem sneXy (x y : Reg) : Statement (.sneXy x y) := by
  have hw : (encode (.sneXy x y)).toNat = 0x9000 + x.val * 0x100 + y.val * 0x10 := by
    simp only [encode, wordXYN_toNat, BitVec.ofNat_eq_ofNat, BitVec.toNat_ofNat, Fin.isValue, Fin.coe_ofNat_eq_mod]; omega
  have := x.isLt
  have := y.isLt
  refine ⟨⟨19, 0x9000, 0xF000, 0x9000, 0xF00F⟩, by decide, rfl, fun m => ?_⟩
  cases m
  · exact carries (k := 0) (p := 0x9000) (.inl rfl) (by decide) (by rw [hw]; omega)
  · exact carries (k := 4) (p := 0x9000) (.inr (.inl rfl)) (by decide) (by rw [hw]; omega)

theorem ldI (nnn : Addr12) : Statement (.ldI nnn) :=
  ⟨.same 20 0xA000 0xF000, by decide, rfl, covers_same (k := 0) (m := 0xF000) (p := 0xA000) (.inl rfl) (by decide)
    (by have := nnn.isLt; simp only [encode, wordNNN_toNat, BitVec.ofNat_eq_ofNat, BitVec.toNat_ofNat]; omega)⟩

theorem jpV0 (nnn : Addr12) : Statement (.jpV0 nnn) :=
  ⟨.same 21 0xB000 0xF000, by decide, rfl, covers_same (k := 0) (m := 0xF000) (p := 0xB000) (.inl rfl) (by decide)
    (by have := nnn.isLt; simp only [encode, wordNNN_toNat, BitVec.ofNat_eq_ofNat, BitVec.toNat_ofNat]; omega)⟩

theorem rnd (x : Reg) (kk : Byte) : Statement (.rnd x kk) :=
  ⟨.same 22 0xC000 0xF000, by decide, rfl, covers_same (k := 0) (m := 0xF000) (p := 0xC000) (.inl rfl) (by decide)
    (by have := x.isLt; have := kk.isLt; simp only [encode, wordXKK_toNat, BitVec.ofNat_eq_ofNat, BitVec.toNat_ofNat]; omega)⟩

theorem drw (x y : Reg) (n : Fin 16) : Statement (.drw x y n) :=
  ⟨.same 23 0xD000 0xF000, by decide, rfl, covers_same (k := 0) (m := 0xF000) (p := 0xD000) (.inl rfl) (by decide)
    (by have := x.isLt; have := y.isLt; have := n.isLt; simp only [encode, wordXYN_toNat, BitVec.ofNat_eq_ofNat, BitVec.toNat_ofNat]; omega)⟩

theorem skp (x : Reg) : Statement (.skp x) := by
  have hw : (encode (.skp x)).toNat = 0xE09E + x.val * 0x100 := by
    simp only [encode, wordXKK_toNat, BitVec.ofNat_eq_ofNat, BitVec.toNat_ofNat]; omega
  have := x.isLt
  refine ⟨⟨24, 0xE00E, 0xF00F, 0xE09E, 0xF0FF⟩, by decide, rfl, fun m => ?_⟩
  cases m
  · exact carries (k := 4) (p := 0xE00E) (.inr (.inl rfl)) (by decide) (by rw [hw]; omega)
  · exact carries (k := 8) (p := 0xE09E) (.inr (.inr rfl)) (by decide) (by rw [hw]; omega)

theorem sknp (x : Reg) : Statement (.sknp x) := by
  have hw : (encode (.sknp x)).toNat = 0xE0A1 + x.val * 0x100 := by
    simp only [encode, wordXKK_toNat, BitVec.ofNat_eq_ofNat, BitVec.toNat_ofNat]; omega
  have := x.isLt
  refine ⟨⟨25, 0xE001, 0xF00F, 0xE0A1, 0xF0FF⟩, by decide, rfl, fun m => ?_⟩
  cases m
  · exact carries (k := 4) (p := 0xE001) (.inr (.inl rfl)) (by decide) (by rw [hw]; omega)
  · exact carries (k := 8) (p := 0xE0A1) (.inr (.inr rfl)) (by decide) (by rw [hw]; omega)

theorem ldVxDt (x : Reg) : Statement (.ldVxDt x) :=
  ⟨.same 26 0xF007 0xF0FF, by decide, rfl, covers_same (k := 8) (m := 0xF0FF) (p := 0xF007) (.inr (.inr rfl)) (by decide)
    (by have := x.isLt; simp only [encode, wordXKK_toNat, BitVec.ofNat_eq_ofNat, BitVec.toNat_ofNat]; omega)⟩

theorem ldVxK (x : Reg) : Statement (.ldVxK x) :=
  ⟨.same 27 0xF00A 0xF0FF, by decide, rfl, covers_same (k := 8) (m := 0xF0FF) (p := 0xF00A) (.inr (.inr rfl)) (by decide)
    (by have := x.isLt; simp only [encode, wordXKK_toNat, BitVec.ofNat_eq_ofNat, BitVec.toNat_ofNat]; omega)⟩

theorem ldDtVx (x : Reg) : Statement (.ldDtVx x) :=
  ⟨.same 28 0xF015 0xF0FF, by decide, rfl, covers_same (k := 8) (m := 0xF0FF) (p := 0xF015) (.inr (.inr rfl)) (by decide)
    (by have := x.isLt; simp only [encode, wordXKK_toNat, BitVec.ofNat_eq_ofNat, BitVec.toNat_ofNat]; omega)⟩

theorem ldStVx (x : Reg) : Statement (.ldStVx x) :=
  ⟨.same 29 0xF018 0xF0FF, by decide, rfl, covers_same (k := 8) (m := 0xF0FF) (p := 0xF018) (.inr (.inr rfl)) (by decide)
    (by have := x.isLt; simp only [encode, wordXKK_toNat, BitVec.ofNat_eq_ofNat, BitVec.toNat_ofNat]; omega)⟩

theorem addIVx (x : Reg) : Statement (.addIVx x) :=
  ⟨.same 30 0xF01E 0xF0FF, by decide, rfl, covers_same (k := 8) (m := 0xF0FF) (p := 0xF01E) (.inr (.inr rfl)) (by decide)
    (by have := x.isLt; simp only [encode, wordXKK_toNat, BitVec.ofNat_eq_ofNat, BitVec.toNat_ofNat]; omega)⟩

theorem ldFVx (x : Reg) : Statement (.ldFVx x) :=
  ⟨.same 31 0xF029 0xF0FF, by decide, rfl, covers_same (k := 8) (m := 0xF0FF) (p := 0xF029) (.inr (.inr rfl)) (by decide)
    (by have := x.isLt; simp only [encode, wordXKK_toNat, BitVec.ofNat_eq_ofNat, BitVec.toNat_ofNat]; omega)⟩

theorem ldBVx (x : Reg) : Statement (.ldBVx x) :=
  ⟨.same 32 0xF033 0xF0FF, by decide, rfl, covers_same (k := 8) (m := 0xF0FF) (p := 0xF033) (.inr (.inr rfl)) (by decide)
    (by have := x.isLt; simp only [encode, wordXKK_toNat, BitVec.ofNat_eq_ofNat, BitVec.toNat_ofNat]; omega)⟩

theorem ldMemVx (x : Reg) : Statement (.ldMemVx x) :=
  ⟨.same 33 0xF055 0xF0FF, by decide, rfl, covers_same (k := 8) (m := 0xF0FF) (p := 0xF055) (.inr (.inr rfl)) (by decide)
    (by have := x.isLt; simp only [encode, wordXKK_toNat, BitVec.ofNat_eq_ofNat, BitVec.toNat_ofNat]; omega)⟩

theorem ldVxMem (x : Reg) : Statement (.ldVxMem x) :=
  ⟨.same 34 0xF065 0xF0FF, by decide, rfl, covers_same (k := 8) (m := 0xF0FF) (p := 0xF065) (.inr (.inr rfl)) (by decide)
    (by have := x.isLt; simp only [encode, wordXKK_toNat, BitVec.ofNat_eq_ofNat, BitVec.toNat_ofNat]; omega)⟩

end Sys2Proof.Laws.TableRow
end

