-- ==== Sys2Proof/Tests/Slice0.lean ====
section
/-! SUPPORT. Tests. Expected results come from the spec: encodings from 30_encoding.md R80 and opcode_table.json, results from
95_test_vectors.md (its vector is named in the comment). Each runs one step on a small state. -/

namespace Sys2Proof.Machine.Tests

/-! ### Well-formedness: SYS, the one form with a check -/

theorem test_wf_sys_doc_refuses_the_bottom_bytes_of_cls_and_ret :
    (Instr.sys 0x0E0).wellFormed .doc = false ∧ (Instr.sys 0x1E0).wellFormed .doc = false ∧
      (Instr.sys 0xFEE).wellFormed .doc = false := by decide

theorem test_wf_sys_canonical_refuses_only_the_two_words :
    (Instr.sys 0x0E0).wellFormed .canonical = false ∧ (Instr.sys 0x0EE).wellFormed .canonical = false ∧
      (Instr.sys 0x1E0).wellFormed .canonical = true := by decide

theorem test_wf_others :
    (Instr.sys 0x000).wellFormed .doc = true ∧ (Instr.drw 15 15 15).wellFormed .doc = true ∧
      (Instr.ldXkk 15 0xFF).wellFormed .canonical = true := by decide

/-! ### Decoding: every constructor, from words written out bit by bit in the order of opcode_table.json's `encoding` -/

theorem test_decode_family_0 :
    decodeWord .doc 0b0000_0001_0010_0011 = some (.sys 0x123) ∧ decodeWord .doc 0b0000_0000_1110_0000 = some .cls ∧
      decodeWord .doc 0b0000_0000_1110_1110 = some .ret := by decide

theorem test_decode_jumps :
    decodeWord .doc 0b0001_1010_1011_1100 = some (.jp 0xABC) ∧ decodeWord .doc 0b0010_0010_0001_0000 = some (.call 0x210) ∧
      decodeWord .doc 0b1011_0011_0000_0001 = some (.jpV0 0x301) := by decide

theorem test_decode_immediates :
    decodeWord .doc 0b0011_0011_0100_0010 = some (.seXkk 3 0x42) ∧ decodeWord .doc 0b0100_0011_0100_0010 = some (.sneXkk 3 0x42) ∧
      decodeWord .doc 0b0110_0011_0010_1010 = some (.ldXkk 3 0x2A) ∧ decodeWord .doc 0b0111_0011_1111_1111 = some (.addXkk 3 0xFF) ∧
      decodeWord .doc 0b1100_0011_0000_1111 = some (.rnd 3 0x0F) := by decide

theorem test_decode_register_pairs :
    decodeWord .doc 0b0101_0001_0010_0000 = some (.seXy 1 2) ∧ decodeWord .doc 0b1001_0001_0010_0000 = some (.sneXy 1 2) ∧
      decodeWord .doc 0b1000_0001_0010_0000 = some (.ldXy 1 2) ∧ decodeWord .doc 0b1000_0001_0010_0001 = some (.orXy 1 2) ∧
      decodeWord .doc 0b1000_0001_0010_0010 = some (.andXy 1 2) ∧ decodeWord .doc 0b1000_0001_0010_0011 = some (.xorXy 1 2) ∧
      decodeWord .doc 0b1000_0001_0010_0100 = some (.addXy 1 2) ∧ decodeWord .doc 0b1000_0001_0010_0101 = some (.subXy 1 2) ∧
      decodeWord .doc 0b1000_0001_0010_0110 = some (.shrXy 1 2) ∧ decodeWord .doc 0b1000_0001_0010_0111 = some (.subnXy 1 2) ∧
      decodeWord .doc 0b1000_0001_0010_1110 = some (.shlXy 1 2) := by decide

theorem test_decode_index_and_display :
    decodeWord .doc 0b1010_0001_0010_0011 = some (.ldI 0x123) ∧ decodeWord .doc 0b1101_0000_0001_0101 = some (.drw 0 1 5) := by
  decide

theorem test_decode_family_E :
    decodeWord .doc 0b1110_0001_1001_1110 = some (.skp 1) ∧ decodeWord .doc 0b1110_0001_1010_0001 = some (.sknp 1) := by decide

theorem test_decode_family_F :
    decodeWord .doc 0b1111_0101_0000_0111 = some (.ldVxDt 5) ∧ decodeWord .doc 0b1111_0011_0000_1010 = some (.ldVxK 3) ∧
      decodeWord .doc 0b1111_0101_0001_0101 = some (.ldDtVx 5) ∧ decodeWord .doc 0b1111_0101_0001_1000 = some (.ldStVx 5) ∧
      decodeWord .doc 0b1111_0010_0001_1110 = some (.addIVx 2) ∧ decodeWord .doc 0b1111_0010_0010_1001 = some (.ldFVx 2) ∧
      decodeWord .doc 0b1111_1010_0011_0011 = some (.ldBVx 10) ∧ decodeWord .doc 0b1111_0010_0101_0101 = some (.ldMemVx 2) ∧
      decodeWord .doc 0b1111_0010_0110_0101 = some (.ldVxMem 2) := by decide

/-- The words the two decoders read differently (2.1, 2.2, 2.7). -/
theorem test_decode_modes_differ :
    decodeWord .doc 0x5121 = some (.seXy 1 2) ∧ decodeWord .canonical 0x5121 = none ∧ decodeWord .doc 0x01E0 = some .cls ∧
      decodeWord .canonical 0x01E0 = some (.sys 0x1E0) ∧ decodeWord .doc 0xE12E = some (.skp 1) ∧
      decodeWord .canonical 0xE12E = none := by decide

/-- INVALID words (2.3, 2.7). -/
theorem test_decode_invalid :
    decodeWord .doc 0x8128 = none ∧ decodeWord .doc 0x812F = none ∧ decodeWord .doc 0xE1A2 = none ∧
      decodeWord .doc 0xF100 = none ∧ decodeTableWord 16 0x812F = none := by decide

theorem test_decode_bytes :
    decodeBytes .doc [0x63, 0x2A, 0x12] = .instr (.ldXkk 3 0x2A) [0x12] ∧ decodeBytes .doc [0x63] = .truncated ∧
      decodeBytes .doc [0x81, 0x28] = .invalidOpcode 0x8128 ∧ decodeTableWord 16 0x632A = some (.ldXkk 3 0x2A) := by decide

/-! ### One step of each instruction

`ran s w` is the state after one step of `s` with the word placed where it fetches next; the start states are the reset state
with the listed values set, as the conventions of 95_test_vectors.md say. -/

/-- The state after the placed word ran, through a function that picks the fields a test looks at. -/
def ran {α : Type} (s : State) (w : Nat) (f : State → α) : Option α :=
  match step (s.withFetchWord 16 w) with
  | .next t => some (f t)
  | .fault _ => none
  | .refused _ => none

/-- The reset state with registers set. -/
def withRegs (rs : List (Reg × Byte)) : State := rs.foldl (fun s p => s.setReg p.1 p.2) State.reset

/-- A register, VF and pc. -/
def see (x : Reg) (t : State) : Byte × Byte × Word := (t.reg x, t.reg vF, t.pc)

theorem test_sys : ran State.reset 0x0123 State.pc = some 0x202 := by decide

theorem test_cls : ran State.reset 0x00E0 (fun t => (t.requests, t.repaint, t.pc)) = some ([.audioStop, .screenClear], true, 0x202) := by
  decide

theorem test_jp : ran State.reset 0x1ABC State.pc = some 0xABC := by decide

/-- S12. -/
theorem test_jpV0_wraps : ran (withRegs [(0, 0x02)]) 0xBFFF State.pc = some 0x001 := by decide

/-- S13: the push at sp = 15 wraps; the call-site pc is pushed. -/
theorem test_call_wraps :
    ran { State.reset with sp := 15 } 0x2400 (fun t => (t.slot 15, t.sp, t.pc)) = some (0x200, 0, 0x400) := by decide

theorem test_ret : ran (State.reset.push 0x300) 0x00EE (fun t => (t.slot 0, t.sp, t.pc)) = some (0x300, 0, 0x302) := by decide

/-- Underflow (2.1). -/
theorem test_ret_underflow : ran State.reset 0x00EE (fun t => (t.sp, t.pc)) = some (15, 0x002) := by decide

theorem test_seXy :
    ran (withRegs [(1, 7), (2, 7)]) 0x5120 State.pc = some 0x204 ∧ ran (withRegs [(1, 7), (2, 8)]) 0x5120 State.pc = some 0x202 := by
  decide

theorem test_sneXy :
    ran (withRegs [(1, 7), (2, 8)]) 0x9120 State.pc = some 0x204 ∧ ran State.reset 0x9110 State.pc = some 0x202 := by decide

/-- The skip wraps (2.1). -/
theorem test_seXkk_wraps : ran { withRegs [(3, 0x42)] with pc := 0xFFC } 0x3342 State.pc = some 0x000 := by decide

theorem test_seXkk : ran (withRegs [(3, 0x43)]) 0x3342 State.pc = some 0x202 := by decide

/-- S10. -/
theorem test_sneXkk :
    ran (withRegs [(3, 0x10)]) 0x4310 State.pc = some 0x202 ∧ ran (withRegs [(3, 0x10)]) 0x4360 State.pc = some 0x204 := by decide

theorem test_ldXkk : ran (withRegs [(15, 1)]) 0x6F00 (see 15) = some (0, 0, 0x202) := by decide

/-- No carry flag (2.4). -/
theorem test_addXkk : ran (withRegs [(3, 0xFF)]) 0x7301 (see 3) = some (0, 0, 0x202) := by decide

theorem test_rnd : ran { State.reset with randomBytes := [0xA7] } 0xC30F (see 3) = some (0x07, 0, 0x202) := by decide

theorem test_ldXy : ran (withRegs [(1, 0x11), (2, 0x22)]) 0x8120 (see 1) = some (0x22, 0, 0x202) := by decide

theorem test_orXy : ran (withRegs [(1, 0xF0), (2, 0x0F), (15, 0x77)]) 0x8121 (see 1) = some (0xFF, 0x77, 0x202) := by decide

theorem test_andXy : ran (withRegs [(1, 0xF0), (2, 0x3C)]) 0x8122 (see 1) = some (0x30, 0, 0x202) := by decide

theorem test_xorXy : ran (withRegs [(1, 0x5A)]) 0x8113 (see 1) = some (0x00, 0, 0x202) := by decide

/-- S2. -/
theorem test_addXy : ran (withRegs [(1, 0xFF), (2, 0x01)]) 0x8124 (see 1) = some (0x00, 1, 0x202) := by decide

/-- The flag overwrites the sum (2.3). -/
theorem test_addXy_vF : ran (withRegs [(15, 0xFF), (2, 0x01)]) 0x8F24 (see 15) = some (1, 1, 0x202) := by decide

/-- S3: equal operands do not borrow. -/
theorem test_subXy :
    ran (withRegs [(1, 5), (2, 5)]) 0x8125 (see 1) = some (0x00, 1, 0x202) ∧
      ran (withRegs [(1, 1), (2, 2)]) 0x8125 (see 1) = some (0xFF, 0, 0x202) := by decide

theorem test_subnXy : ran (withRegs [(1, 5), (2, 3)]) 0x8127 (see 1) = some (0xFE, 0, 0x202) := by decide

/-- S4, both quirk values. -/
theorem test_shrXy :
    ran (withRegs [(2, 3)]) 0x8126 (see 1) = some (1, 1, 0x202) ∧
      ran { withRegs [(1, 3), (2, 0x80)] with quirkShift := true } 0x8126 (see 1) = some (1, 1, 0x202) := by decide

/-- The source is sampled before the flag write (2.3). -/
theorem test_shrXy_source_vF : ran (withRegs [(15, 3)]) 0x81F6 (see 1) = some (1, 1, 0x202) := by decide

theorem test_shlXy :
    ran (withRegs [(2, 0x81)]) 0x812E (see 1) = some (0x02, 1, 0x202) ∧
      ran { withRegs [(1, 0x40), (2, 0x81)] with quirkShift := true } 0x812E (see 1) = some (0x80, 0, 0x202) := by decide

theorem test_ldI : ran State.reset 0xAFFF State.index = some 0xFFF := by decide

theorem test_addIVx : ran { withRegs [(2, 0xFF)] with index := 0xF80 } 0xF21E (fun t => (t.index, t.reg vF)) = some (0x07F, 0) := by
  decide

/-- No nibble mask (2.5). -/
theorem test_ldFVx : ran (withRegs [(2, 0xFF)]) 0xF229 State.index = some 0x4FB := by decide

theorem test_ldBVx :
    ran { withRegs [(2, 0xFF)] with index := 0x300 } 0xF233 (fun t => (t.readBytes 0x300 3, t.index)) = some ([2, 5, 5], 0x300) := by
  decide

theorem test_ldBVx_overflow :
    ran { withRegs [(2, 9)] with index := 0xFFE } 0xF233 (fun t => (t.fault, t.readBytes 0xFFE 2, t.pc)) =
      some (some ⟨.addressOverflow, 0x200, 0x1000⟩, [0, 0], 0x200) := by decide

/-- An in-range store whose index wraps (2.5). -/
theorem test_ldMemVx_index_wraps :
    ran { withRegs [(0, 1), (1, 2)] with index := 0xFFE } 0xF155 (fun t => (t.readBytes 0xFFE 2, t.index, t.fault)) =
      some ([1, 2], 0x000, none) := by decide

/-- S5, quirk on. -/
theorem test_ldMemVx_quirk :
    ran { withRegs [(0, 1), (1, 2), (2, 3)] with index := 0x300, quirkLoadStore := true } 0xF255
      (fun t => (t.readBytes 0x300 4, t.index)) = some ([1, 2, 3, 0], 0x300) := by decide

/-- The font's first bytes (2.5). -/
theorem test_ldVxMem_font :
    ran { State.reset with quirkLoadStore := true } 0xF265 (fun t => (t.reg 0, t.reg 1, t.reg 2, t.reg 3, t.index)) =
      some (0xF0, 0x90, 0x90, 0, 0x000) := by decide

theorem test_ldVxMem_overflow :
    ran { withRegs [(0, 7)] with index := 0xFFF } 0xF165 (fun t => (t.reg 0, t.index, t.runState)) = some (7, 0xFFF, .stopped) := by
  decide

/-- Glyph 0: its fourteen toggles in order, one colliding answer (S6). -/
theorem test_drw_glyph :
    ran { State.reset with collisions := List.replicate 4 false ++ true :: List.replicate 9 false } 0xD015
      (fun t => (t.requests.tail, t.reg vF, t.repaint)) =
      some (([(0, 0), (1, 0), (2, 0), (3, 0), (0, 1), (3, 1), (0, 2), (3, 2), (0, 3), (3, 3), (0, 4), (1, 4), (2, 4), (3, 4)] :
        List (Nat × Nat)).map (fun p => .togglePixel p.1 p.2), 1, true) := by decide

/-- Coordinates are sampled before VF is written and sent unreduced (2.2). -/
theorem test_drw_vF_coordinates :
    ran { (withRegs [(15, 0x3C)]).writeBytes 0x300 [0x80] with index := 0x300, collisions := [false] } 0xDFF1
      (fun t => (t.requests.tail, t.reg vF)) = some ([.togglePixel 0x3C 0x3C], 0) := by decide

theorem test_ldVxDt : ran { withRegs [(15, 1)] with dt := 0 } 0xFF07 (see 15) = some (0, 0, 0x202) := by decide

theorem test_ldDtVx : ran (withRegs [(5, 0x3C)]) 0xF515 (fun t => (t.dt, t.st)) = some (0x3C, 0) := by decide

theorem test_ldStVx : ran (withRegs [(5, 5)]) 0xF518 (fun t => (t.st, t.dt, t.soundOn)) = some (5, 0, false) := by decide

theorem test_ldVxK : ran State.reset 0xF30A (fun t => (t.kw, t.pc, t.reply)) = some (some 3, 0x200, .executed) := by decide

theorem test_skp :
    ran { withRegs [(1, 5)] with keyAnswers := [true] } 0xE19E (fun t => (t.requests.tail, t.pc)) =
      some ([.isKeyPressed 5], 0x204) := by decide

theorem test_sknp : ran { withRegs [(1, 5)] with keyAnswers := [true] } 0xE1A1 State.pc = some 0x202 := by decide

/-! ### Steps that obey a command -/

/-- The state after one step, through a function. -/
def stepped {α : Type} (s : State) (f : State → α) : Option α :=
  match step s with
  | .next t => some (f t)
  | .fault _ => none
  | .refused _ => none

/-- S9's second half. -/
theorem test_keyDown_resumes :
    stepped { State.reset with kw := some 3, commands := [.keyDown 7] } (fun t => (t.reg 3, t.kw, t.pc)) = some (7, none, 0x202) := by
  decide

/-- E13. -/
theorem test_keyDown_16_refused :
    stepped { State.reset with commands := [.keyDown 16] } (fun t => (t.reply, t.requests)) =
      some (.refused .keyOutOfRange, [.audioStop]) := by decide

/-- E6: the tick whose cycle faults runs no timer update. -/
theorem test_tick_fault_skips_the_timers :
    stepped { (State.reset.writeBytes 0x200 [0x8A, 0xB8]) with runState := .running, dt := 3, commands := [.tick] }
      (fun t => (t.fault, t.dt, t.runState)) = some (some ⟨.invalidOpcode, 0x200, 0x8AB8⟩, 3, .stopped) := by decide

/-- E4's first tick: TIMER_AT_ZERO = wrap. -/
theorem test_tick_wraps :
    stepped { (State.reset.writeBytes 0x200 [0x65, 0x03]) with
      runState := .running, config := { Config.default with timerAtZero := .wrap }, commands := [.tick] }
      (fun t => (t.reg 5, t.dt)) = some (3, 0xFF) := by decide

/-- E8. -/
theorem test_run_refused :
    stepped { State.reset with fault := some ⟨.invalidOpcode, 0x200, 0x8AB8⟩, commands := [.run] } (fun t => (t.reply, t.runState)) =
      some (.refused .faultRecorded, .stopped) := by decide

/-- E15. -/
theorem test_configure_refused :
    stepped { State.reset with commands := [.configure { stackCap := 12 }] } (fun t => (t.reply, t.config)) =
      some (.refused (.unsupportedConfiguration .stackCap), Config.default) := by decide

/-- E17. -/
theorem test_load :
    stepped { withRegs [(1, 9)] with pc := 0x345, commands := [.loadToMemory [0x12, 0x00]] }
      (fun t => (t.readBytes 0x200 2, t.pc, t.reg 1)) = some ([0x12, 0x00], 0x200, 9) := by decide

/-- E10's second step: a fetch at 0xFFF. -/
theorem test_fetch_overflow :
    stepped { State.reset with pc := 0xFFF } (fun t => (t.fault, t.pc)) = some (some ⟨.addressOverflow, 0xFFF, 0x1000⟩, 0xFFF) := by
  decide

/-! ### The canonical form of memory -/

theorem test_memory_wf_reset : Memory.wf State.reset.config.font State.reset.mem := by decide

/-- Writing the value an unlisted address reads as removes the entry. -/
theorem test_memory_write_back_removes :
    Memory.write Config.defaultFont (Memory.write Config.defaultFont [(0x300, 1)] 0x000 0x55) 0x000 0xF0 = [(0x300, 1)] := by decide

/-! ### Witnesses: a state and operands that meet the hypotheses of each obligation, each clause at a boundary value

`busy` is a state in the middle of a run: Running, sp at the last slot, a key answer, a random byte and a collision queued. -/

def busy : State :=
  { State.reset with
    v := (withRegs [(0, 0x12), (1, 0x34), (2, 0xFF), (15, 0x01)]).v, pc := 0x300, index := 0xFFD, sp := 15, dt := 3, st := 1,
    mem := [(0x300, 0x81), (0x301, 0x24)], runState := .running, randomBytes := [0xA7], keyAnswers := [true],
    collisions := [true] }

theorem busy_inv : busy.Inv :=
  ⟨by decide, by decide, by decide, by decide, by decide, by simp [busy, State.reset], by decide, by decide, by decide⟩

/-- A state that differs from `busy` only in fields that the invariant does not speak of, or sets them legally. -/
theorem busy_inv_with (c : List Command) (pc i : Word) (kw : Option Reg) (hp : pc.toNat < 0x1000) (hi : i.toNat < 0x1000) :
    State.Inv { busy with commands := c, pc := pc, index := i, kw := kw } :=
  busy_inv.of_parts (.inr hp) (.inr hi) rfl rfl rfl rfl (fun h => absurd rfl h)

/-- `busy` after a fault: Stopped, with the record. -/
def broken (c : List Command) : State :=
  { busy with fault := some ⟨.invalidOpcode, 0x300, 0x8128⟩, runState := .stopped, commands := c }

theorem broken_inv (c : List Command) : (broken c).Inv :=
  busy_inv.of_parts (.inl rfl) (.inl rfl) rfl rfl rfl rfl (fun _ => ⟨rfl, rfl⟩)

/-- DecodingAnEncodedInstructionGivesItBack: SYS next to the refused operands, in both modes. -/
theorem witness_wellFormed : (Instr.sys 0x0EF).wellFormed .doc = true ∧ (Instr.sys 0x1EE).wellFormed .canonical = true := by decide

/-- CanonicalWordIsTheSpellingOfItsInstruction, DecodedInstructionsAreWellFormed. -/
theorem witness_decodes : decodeWord .canonical 0xE19E = some (.skp 1) ∧ decodeWord .doc 0x5FFF = some (.seXy 15 15) := by decide

theorem busy_ready : busy.Ready (.addXy 1 2) := ⟨rfl, rfl, by decide, by decide⟩

/-- StepRunsTheDecodedInstruction, both clauses; EveryStepKeepsTheInvariant. -/
theorem witness_step :
    busy.commands = [] ∧ (∃ t, exec (.addXy 1 2) busy = .next t) ∧ (∃ t, step busy = .next t) ∧ busy.Inv ∧
      ∃ s : State, s.commands = [.step, .tick] ∧ (s.setCommands [.tick]).Ready (.addXy 1 2) ∧
        ∃ t, exec (.addXy 1 2) (s.setCommands [.tick]) = .next t :=
  ⟨rfl, ⟨_, rfl⟩, ⟨_, (step_of_no_command (s := busy) rfl).trans (cycle_of_ready busy_ready rfl)⟩, busy_inv,
    { busy with commands := [.step, .tick] }, rfl, ⟨rfl, rfl, by decide, by decide⟩, ⟨_, rfl⟩⟩

/-- PlacedWordIsTheNextInstruction, with pc at the last word and at 0xFFF. -/
theorem witness_placed :
    State.Inv { busy with commands := [], pc := 0xFFE, index := 0, kw := none } ∧
      State.Inv { busy with commands := [], pc := 0xFFF, index := 0, kw := none } ∧
      decodeWord busy.config.decodeMode (BitVec.ofNat 16 0xFF65) = some (.ldVxMem 15) :=
  ⟨busy_inv_with _ _ _ _ (by decide) (by decide), busy_inv_with _ _ _ _ (by decide) (by decide), by decide⟩

/-- CycleChecksInOrder, InvalidWordRaisesInvalidOpcode: each clause, the fetch ones at 0xFFE and 0xFFF. -/
theorem witness_cycle_checks :
    (broken []).fault = some ⟨.invalidOpcode, 0x300, 0x8128⟩ ∧
      (∃ s : State, s.fault = none ∧ s.kw ≠ none) ∧
      (∃ s : State, s.fault = none ∧ s.kw = none ∧ s.pc.toNat > 0xFFE ∧ s.Inv) ∧
      ∃ s : State, s.commands = [] ∧ s.fault = none ∧ s.kw = none ∧ s.pc.toNat ≤ 0xFFE ∧
        decodeWord s.config.decodeMode s.fetchWord = none :=
  ⟨rfl, ⟨{ busy with kw := some 3 }, by decide⟩,
    ⟨{ busy with commands := [], pc := 0xFFF, index := 0, kw := none }, rfl, rfl, by decide,
      busy_inv_with _ _ _ _ (by decide) (by decide)⟩,
    ⟨{ busy with pc := 0xFFE, mem := [(0xFFE, 0x81), (0xFFF, 0x28)] }, rfl, rfl, rfl, by decide, by decide⟩⟩

/-- InstructionsFaultExactlyWhereTheTableSays: the first overflowing and the last fitting access of each. -/
theorem witness_overflow :
    Overflows { busy with index := 0xFFE } (.ldBVx 2) ∧ ¬ Overflows { busy with index := 0xFFD } (.ldBVx 2) ∧
      Overflows { busy with index := 0xFF1 } (.ldMemVx 15) ∧ ¬ Overflows { busy with index := 0xFF0 } (.ldMemVx 15) ∧
      Overflows { busy with index := 0xFFF } (.ldVxMem 1) ∧ ¬ Overflows { busy with index := 0xFFF } (.ldVxMem 0) ∧
      Overflows { busy with index := 0xFFF } (.drw 0 1 2) ∧ ¬ Overflows { busy with index := 0xFFF } (.drw 0 1 1) ∧
      ¬ Overflows { busy with index := 0xFFF } (.drw 0 1 0) := by
  simp only [Overflows]; decide

/-- ProgramCounterIsAlwaysMasked, at the last address. -/
theorem witness_masked :
    ∃ s t : State, s.pc.extractLsb 15 12 = 0 ∧ s.pc = 0xFFF ∧ step s = .next t :=
  ⟨{ broken [.halt] with pc := 0xFFF }, _, by decide, rfl, rfl⟩

/-- FaultIsStickyUntilReset: a refused run() and a tick, which meet the premise of every clause, and a refused reconfiguration. -/
theorem witness_sticky :
    (∀ c ∈ [Command.run, .tick], ∃ t, (broken [c]).Inv ∧ step (broken [c]) = .next t ∧
      (∀ rest, (broken [c]).commands ≠ .reset :: rest) ∧
      (∀ r rest d, (broken [c]).commands = .configure r :: rest → checkConfig r ≠ .inl d) ∧
      (∀ bs rest, (broken [c]).commands ≠ .loadToMemory bs :: rest) ∧
      ∀ d ∈ [Command.ackRepaint, .halt, .resume, .updateTimers, .keyDown 15, .keyUp 15],
        ∀ rest, (broken [c]).commands ≠ d :: rest) ∧
    ∀ r rest d, (broken [.configure { stackCap := 12 }]).commands = .configure r :: rest → checkConfig r ≠ .inl d := by
  refine ⟨fun c hc => ?_, fun r rest d h => ?_⟩
  · simp only [List.mem_cons, List.not_mem_nil, or_false] at hc
    rcases hc with rfl | rfl
    · exact ⟨_, broken_inv _, rfl, by simp [broken], by simp [broken], by simp [broken], by simp [broken]⟩
    · exact ⟨_, broken_inv _, rfl, by simp [broken], by simp [broken], by simp [broken], by simp [broken]⟩
  · simp only [broken, List.cons.injEq, Command.configure.injEq] at h
    rw [← h.1, show checkConfig { stackCap := 12 } = .inr .stackCap by decide]
    exact Sum.inr_ne_inl

/-- KeyWaitEndsOnlyByKeyDownOrReset: a tick; and a key-down of key 16, which meets the premise of every clause. -/
theorem witness_wait :
    (∀ c ∈ [Command.tick, .keyDown 16], ∃ s t : State, s.Inv ∧ s.kw = some 3 ∧ s.commands = [c] ∧ step s = .next t ∧
      (∀ rest, s.commands ≠ .reset :: rest) ∧
      (∀ q rest d, s.commands = .configure q :: rest → checkConfig q ≠ .inl d) ∧
      (∀ k rest, s.commands = .keyDown k :: rest → 16 ≤ k)) ∧
    ∃ s : State, s.commands = [.keyDown 16] ∧ (∀ bs rest, s.commands ≠ .loadToMemory bs :: rest) ∧
      ∀ d ∈ [Command.ackRepaint, .halt, .resume, .run, .stop, .updateTimers, .tick, .keyUp 15], ∀ rest, s.commands ≠ d :: rest := by
  have h : ∀ c, State.Inv { busy with commands := [c], pc := 0x300, index := 0xFFD, kw := some 3 } :=
    fun c => busy_inv_with _ _ _ _ (by decide) (by decide)
  refine ⟨fun c hc => ?_, { busy with commands := [.keyDown 16], kw := some 3 }, rfl, by simp, by simp⟩
  simp only [List.mem_cons, List.not_mem_nil, or_false] at hc
  rcases hc with rfl | rfl
  · exact ⟨_, _, h .tick, rfl, rfl, rfl, by simp, by simp, by simp⟩
  · exact ⟨_, _, h (.keyDown 16), rfl, rfl, rfl, by simp, by simp, by simp⟩

/-- OnlyResetAndReconfigurationSetTheQuirks, RunStateChangesOnlyByCommandOrFault: a step whose run state changes, by a command and
by a fault. -/
theorem witness_run_state :
    (∃ s t : State, step s = .next t ∧ t.runState ≠ s.runState ∧ s.commands = [.stop]) ∧
      ∃ s t : State, step s = .next t ∧ t.runState ≠ s.runState ∧ s.commands = [] :=
  ⟨⟨{ busy with commands := [.stop] }, _, rfl, by decide, rfl⟩,
    ⟨{ busy with pc := 0xFFF }, _, rfl, by decide, rfl⟩⟩

/-- CallPushesTheCallSite, ReturnGoesPastTheCallSite, NestedCallsReturnBehindTheFirst, StackRingWrapsWithoutFault: sp at the last
slot, as many calls and pushes as slots, and the last of the pushes. -/
theorem witness_ring :
    busy.Inv ∧ busy.sp = 15 ∧ (List.replicate 16 (0x400 : Addr12)) ≠ [] ∧
      (List.replicate 16 (0x400 : Addr12)).length ≤ busy.config.stackCap ∧
      (List.replicate 16 (0x400 : Word)).length = busy.config.stackCap ∧ 15 < busy.config.stackCap :=
  ⟨busy_inv, rfl, by decide, by decide, by decide, by decide⟩

/-- SkipAdvancesByFourOrTwo, CompareSkipsChangeOnlyThePc: each of the six, skipping and not. -/
theorem witness_skips :
    Skips busy (.seXkk 0 0x12) ∧ ¬ Skips busy (.seXkk 0 0x13) ∧ Skips busy (.sneXkk 0 0x13) ∧ ¬ Skips busy (.sneXkk 0 0x12) ∧
      Skips busy (.seXy 3 4) ∧ ¬ Skips busy (.seXy 0 1) ∧ Skips busy (.sneXy 0 1) ∧ ¬ Skips busy (.sneXy 3 4) ∧
      Skips busy (.skp 1) ∧ ¬ Skips busy (.sknp 1) ∧ isSkip (.sknp 1) = true := by
  simp only [Skips]; decide

/-- KeySkipsFollowTheKeyboardsAnswer, RandomByteIsMaskedByTheImmediate, DrawTogglesEachSetBitOnce: an answer of each kind queued,
a draw at the last byte of memory, and a draw of nothing. -/
theorem witness_answers :
    busy.keyAnswers = true :: [] ∧ busy.randomBytes = 0xA7 :: [] ∧ busy.collisions[0]? = some true ∧ busy.collisionAnswer 0 = true ∧
      ({ busy with index := 0xFFD } : State).index.toNat + (3 : Fin 16).val - 1 ≤ 0xFFF ∧ (0 : Fin 16).val = 0 ∧
      0 < (({ busy with index := 0x000 } : State).drawPixels 0 1 1).length := by decide

/-- ShiftsMoveTheBitOutIntoVF: both quirk values. -/
theorem witness_shift :
    0x34 = (if busy.quirkShift = true then (busy.reg 0).toNat else (busy.reg 1).toNat) ∧
      ∃ s : State, s.quirkShift = true ∧ 0x12 = (if s.quirkShift = true then (s.reg 0).toNat else (s.reg 1).toNat) :=
  ⟨by decide, { busy with quirkShift := true }, by decide⟩

/-- BcdStoresThreeDigits, BlockStoreWritesRegistersUpToVx, BlockLoadReadsRegistersUpToVx: the last access that fits. -/
theorem witness_last_access :
    busy.Inv ∧ busy.index.toNat + 2 ≤ 0xFFF ∧ busy.index.toNat + (2 : Reg).val ≤ 0xFFF ∧
      ∃ s : State, s.Inv ∧ s.index.toNat + (15 : Reg).val ≤ 0xFFF ∧ s.index = 0xFF0 :=
  ⟨busy_inv, by decide, by decide, _, busy_inv_with [] 0x300 0xFF0 none (by decide) (by decide), by decide, rfl⟩

/-- BlockLoadGivesBackWhatWasStored: the registers and I written between the store and the load. -/
theorem witness_store_load :
    ∃ t u : State, exec (.ldMemVx 2) busy = .next t ∧ u.index = busy.index ∧
      KeptExcept [.regs, .index, .timers, .stack, .answers, .requests] t u ∧ u.reg 0 ≠ t.reg 0 := by
  refine ⟨_, (((busy.writeBytes 0xFFD (busy.regsUpTo 2)).advanceIndex 2).adv 2).setReg 0 0x55 |>.setIndex 0xFFD, rfl, by decide,
    ?_, by decide⟩
  intro p hp
  cases p <;> first | exact absurd (by decide) hp | exact ⟨rfl, rfl⟩ | exact fun _ => rfl | rfl

/-- StoreIsSeenByTheNextFetch: the next word at the end of memory, stored whole by the two forms, its low byte by the last byte of a
lower store only, and its high byte untouched by a higher one; the next fetch is at 0xFFE, and at 0x000 after a wrap. -/
theorem witness_self_modification :
    (∃ s t : State, s.Inv ∧ s.index.toNat + (1 : Reg).val ≤ 0xFFF ∧ exec (.ldMemVx 1) s = .next t ∧
      s.index.toNat + (0 : Reg).val = t.pc.toNat ∧ s.index.toNat + (1 : Reg).val = t.pc.toNat + 1) ∧
    (∃ s t : State, s.Inv ∧ s.index.toNat + 2 ≤ 0xFFF ∧ exec (.ldBVx 2) s = .next t ∧ s.index.toNat + 1 = t.pc.toNat ∧
      s.index.toNat + 2 = t.pc.toNat + 1) ∧
    (∃ s t : State, s.Inv ∧ exec (.ldMemVx 0) s = .next t ∧ t.pc.toNat < s.index.toNat ∧
      s.index.toNat + (0 : Reg).val = t.pc.toNat + 1) ∧
    ∃ s t : State, s.Inv ∧ exec (.ldBVx 2) s = .next t ∧ s.index.toNat + 0 = t.pc.toNat ∧ t.pc = 0x000 :=
  ⟨⟨_, _, busy_inv_with [] 0xFFC 0xFFE none (by decide) (by decide), by decide, rfl, by decide, by decide⟩,
    ⟨_, _, busy_inv_with [] 0xFFC 0xFFD none (by decide) (by decide), by decide, rfl, by decide, by decide⟩,
    ⟨_, _, busy_inv_with [] 0xFFC 0xFFF none (by decide) (by decide), rfl, by decide, by decide⟩,
    ⟨_, _, busy_inv_with [] 0xFFE 0x000 none (by decide) (by decide), rfl, by decide, by decide⟩⟩

/-- TimerUpdateDecrementsBothAndDrivesTheSound, ResetGivesTheResetValues, RunStopHaltAndResumeTouchOneSwitch,
AcknowledgeAndKeyUpChangeOneThing: the command queued. -/
theorem witness_commands :
    ∀ c ∈ [Command.updateTimers, .reset, .run, .stop, .halt, .resume, .ackRepaint, .keyUp 15, .keyUp 16],
      ∃ s : State, s.commands = c :: [.step] ∧ s.fault = none :=
  fun c _ => ⟨{ busy with commands := [c, .step] }, rfl, rfl⟩

/-- TickRunsOneCycleThenTheTimers: a cycle that executes, a cycle that faults, a pause, a wait, Stopped. -/
theorem witness_tick :
    (∃ s u : State, s.commands = [.tick] ∧ s.runState = .running ∧ s.paused = false ∧ cycle (s.setCommands []) = .next u ∧
      u.fault = none) ∧
    (∃ s u : State, s.commands = [.tick] ∧ s.runState = .running ∧ s.paused = false ∧ cycle (s.setCommands []) = .next u ∧
      s.fault = none ∧ u.fault ≠ none) ∧
    (∃ s : State, s.commands = [.tick] ∧ s.runState = .running ∧ s.fault = none ∧ s.paused = true) ∧
    (∃ s : State, s.commands = [.tick] ∧ s.runState = .running ∧ s.fault = none ∧ s.kw ≠ none) ∧
    ∃ s : State, s.commands = [.tick] ∧ s.runState = .stopped :=
  ⟨⟨{ busy with commands := [.tick] }, _, rfl, rfl, rfl, cycle_of_ready (i := .addXy 1 2) ⟨rfl, rfl, by decide, by decide⟩ rfl, rfl⟩,
    ⟨{ busy with commands := [.tick], pc := 0xFFF }, _, rfl, rfl, rfl, rfl, rfl, by decide⟩,
    ⟨{ busy with commands := [.tick], paused := true }, rfl, rfl, rfl, rfl⟩,
    ⟨{ busy with commands := [.tick], kw := some 3 }, rfl, rfl, rfl, by decide⟩,
    ⟨broken [.tick], rfl, rfl⟩⟩

/-- DelayWrittenInATickIsReadDecremented: the two instructions at the end of memory. -/
theorem witness_delay :
    ∃ s : State, s.Inv ∧ s.Ready (.ldDtVx 5) ∧ s.pc.toNat ≤ 0xFFC ∧
      decodeWord s.config.decodeMode (wordOfBytes (s.readByte (s.pc.toNat + 2)) (s.readByte (s.pc.toNat + 3))) = some (.ldVxDt 6) ∧
      s.runState = .running ∧ s.paused = false ∧ s.commands = [.tick, .tick] := by
  have h := (busy_inv_with [.tick, .tick] 0xFFC 0xFFD none (by decide) (by decide)).writeBytes (a := 0xFFC)
    (bs := [0xF5, 0x15, 0xF6, 0x07]) (.inr (by decide))
  exact ⟨_, h, ⟨rfl, rfl, by decide, by decide⟩, by decide, by decide, rfl, rfl, rfl⟩

/-- KeyDownResumesAPendingWait: the last key with a wait pending and with none, and the first key refused. -/
theorem witness_keyDown :
    (∃ s : State, s.commands = [.keyDown 15] ∧ s.kw = some 3 ∧ (15 : Reg).val = 15) ∧
      (∃ s : State, s.commands = [.keyDown 15] ∧ s.kw = none) ∧ ∃ s : State, s.commands = [.keyDown 16] ∧ 16 ≤ 16 :=
  ⟨⟨{ busy with commands := [.keyDown 15], kw := some 3 }, rfl, rfl, rfl⟩, ⟨{ busy with commands := [.keyDown 15] }, rfl, rfl⟩,
    { busy with commands := [.keyDown 16] }, rfl, le_refl _⟩

/-- ConfigureValidatesThenResets: one slot is legal; twelve slots, no slot, a short font and an unknown mode are not. -/
theorem witness_configure :
    ({ stackCap := 1 } : ConfigRequest).stackCap = 2 ^ 0 ∧ ({ stackCap := 1 } : ConfigRequest).font.length = 80 ∧
      (∀ k, ({ stackCap := 12 } : ConfigRequest).stackCap ≠ 2 ^ k) ∧ (∀ k, ({ stackCap := 0 } : ConfigRequest).stackCap ≠ 2 ^ k) ∧
      ({ font := List.replicate 79 0 } : ConfigRequest).font.length ≠ 80 ∧
      ({ decodeMode := none } : ConfigRequest).decodeMode = none := by
  refine ⟨rfl, rfl, fun k h => ?_, fun k h => ?_, by decide, rfl⟩
  · exact absurd (isPowerOfTwo_iff.2 ⟨k, h⟩) (by decide)
  · exact absurd h.symm (by positivity)

/-- LoadWritesTheProgramAndSetsThePc: 3584 bytes and 3585. -/
theorem witness_load :
    ∀ n ∈ [3584, 3585], ∃ s : State, s.Inv ∧ s.commands = [.loadToMemory (List.replicate n 0)] ∧
      (List.replicate n (0 : Byte)).length = n :=
  fun n _ => ⟨_, busy_inv_with [.loadToMemory (List.replicate n 0)] 0x300 0 none (by decide) (by decide), rfl, by simp⟩

/-- PcAfterEachInstruction, OnlySixInstructionsWriteVFAsAFlag, EachElementIsWrittenOnlyByItsInstructions: a next state in which VF,
I, the stack, memory, dt and the key-wait change. -/
theorem witness_writes :
    (∃ t, exec (.addXy 2 2) { busy with v := (withRegs [(2, 0xFF)]).v } = .next t ∧
      t.reg vF ≠ State.reg { busy with v := (withRegs [(2, 0xFF)]).v } vF) ∧
    (∃ t, exec (.ldI 0) busy = .next t ∧ t.index ≠ busy.index) ∧
    (∃ t, exec (.call 0) busy = .next t ∧ ¬ Part.Kept busy t .stack) ∧
    (∃ t, exec (.ldBVx 2) busy = .next t ∧ ¬ Part.Kept busy t .memory) ∧
    (∃ t, exec (.ldDtVx 2) busy = .next t ∧ t.dt ≠ busy.dt) ∧
    (∃ t, exec (.ldStVx 2) busy = .next t ∧ t.st ≠ busy.st) ∧ ∃ t, exec (.ldVxK 2) busy = .next t ∧ t.kw ≠ busy.kw := by
  refine ⟨⟨_, rfl, by decide⟩, ⟨_, rfl, by decide⟩, ⟨_, rfl, fun h => ?_⟩, ⟨_, rfl, fun h => ?_⟩, ⟨_, rfl, by decide⟩,
    ⟨_, rfl, by decide⟩, _, rfl, by decide⟩
  · exact absurd h.1 (by decide)
  · exact absurd (h 0xFFD) (by decide)

/-- InstructionsDoNotReadTheControlState: two states that differ in all that no instruction reads. -/
theorem witness_program_view :
    ∃ s' t : State, SameProgramView busy s' ∧ exec (.drw 0 1 1) busy = .next t ∧ s'.st ≠ busy.st ∧ s'.repaint ≠ busy.repaint ∧
      s'.paused ≠ busy.paused ∧ s'.fault ≠ busy.fault ∧ s'.commands ≠ busy.commands :=
  ⟨{ broken [.run] with st := 9, repaint := true, paused := true }, _, ⟨rfl, rfl, rfl, rfl, rfl, rfl, rfl, rfl, rfl, rfl, rfl, rfl,
    rfl, rfl⟩, rfl, by decide, by decide, by decide, by decide, by decide⟩

end Sys2Proof.Machine.Tests
end

section
/-! What an instruction does, said once: an access of it overflows, or it leaves the state `State.after` (60_exceptions.md R202);
and which parts of the state and which registers it can write. -/

namespace Sys2Proof.Machine

/-- The state an instruction leaves when no access of it passes 0xFFF. Tied to `exec` by `exec_of_not_overflows`. -/
def State.after (s : State) : Instr → State
  | .sys _ => s.adv 2
  | .cls => ((s.send [.screenClear]).setRepaint true).adv 2
  | .ret => s.pop.setPc (s.slot s.spDown + 2)
  | .jp nnn => s.setPc (addrOfNNN nnn)
  | .call nnn => (s.push s.pc).setPc (addrOfNNN nnn)
  | .seXkk x kk => s.skipIf (s.reg x == kk)
  | .sneXkk x kk => s.skipIf (s.reg x != kk)
  | .seXy x y => s.skipIf (s.reg x == s.reg y)
  | .ldXkk x kk => (s.setReg x kk).adv 2
  | .addXkk x kk => (s.setReg x (s.reg x + kk)).adv 2
  | .ldXy x y => (s.setReg x (s.reg y)).adv 2
  | .orXy x y => (s.setReg x (s.reg x ||| s.reg y)).adv 2
  | .andXy x y => (s.setReg x (s.reg x &&& s.reg y)).adv 2
  | .xorXy x y => (s.setReg x (s.reg x ^^^ s.reg y)).adv 2
  | .addXy x y => (s.setRegFlag x (s.reg x + s.reg y) (carryOut (s.reg x) (s.reg y))).adv 2
  | .subXy x y => (s.setRegFlag x (s.reg x - s.reg y) (notBorrow (s.reg x) (s.reg y))).adv 2
  | .shrXy x y => (s.setRegFlag x (s.shiftSource x y >>> 1) (shiftedOutRight (s.shiftSource x y))).adv 2
  | .subnXy x y => (s.setRegFlag x (s.reg y - s.reg x) (notBorrow (s.reg y) (s.reg x))).adv 2
  | .shlXy x y => (s.setRegFlag x (s.shiftSource x y <<< 1) (shiftedOutLeft (s.shiftSource x y))).adv 2
  | .sneXy x y => s.skipIf (s.reg x != s.reg y)
  | .ldI nnn => (s.setIndex (addrOfNNN nnn)).adv 2
  | .jpV0 nnn => s.setPc (addrOfNNN nnn + wordOfByte (s.reg 0))
  | .rnd x kk => (((s.send [.randomByte]).takeRandom).setReg x (s.randomAnswer &&& kk)).adv 2
  | .drw x y n => s.draw x y n.val
  | .skp x => ((s.send [.isKeyPressed (s.reg x)]).takeKey).skipIf s.keyAnswer
  | .sknp x => ((s.send [.isKeyPressed (s.reg x)]).takeKey).skipIf (!s.keyAnswer)
  | .ldVxDt x => (s.setReg x s.dt).adv 2
  | .ldVxK x => s.setKw (some x)
  | .ldDtVx x => (s.setDt (s.reg x)).adv 2
  | .ldStVx x => (s.setSt (s.reg x)).adv 2
  | .addIVx x => (s.setIndex (s.index + wordOfByte (s.reg x))).adv 2
  | .ldFVx x => (s.setIndex (glyphAddr (s.reg x))).adv 2
  | .ldBVx x => (s.writeBytes s.index.toNat (bcdDigits (s.reg x))).adv 2
  | .ldMemVx x => ((s.writeBytes s.index.toNat (s.regsUpTo x)).advanceIndex x).adv 2
  | .ldVxMem x => ((s.setRegsUpTo x (s.readBytes s.index.toNat (x.val + 1))).advanceIndex x).adv 2

/-- The bytes an instruction accesses from I, where the spec checks their range (20_memory.md R56). -/
def accessCount : Instr → Nat
  | .drw _ _ n => n.val
  | .ldBVx _ => 3
  | .ldMemVx x => x.val + 1
  | .ldVxMem x => x.val + 1
  | _ => 0

/-- The table of overflows is the range check (60_exceptions.md R202, 20_memory.md R56). -/
theorem overflows_iff (s : State) (i : Instr) : Overflows s i ↔ s.inRange (accessCount i) = false := by
  rw [← Bool.not_eq_true, State.inRange_iff]
  cases i <;> simp only [Overflows, accessCount]
  case drw | ldBVx | ldMemVx | ldVxMem => omega
  all_goals simp

/-- Every instruction is its range check and its state after it. -/
theorem exec_eq (i : Instr) (s : State) :
    exec i s = .next (if s.inRange (accessCount i) = true then s.after i else s.overflowed) := by
  cases i
  case drw | ldBVx | ldMemVx | ldVxMem => exact (apply_ite Host.Outcome.next _ _ _).symm
  all_goals rfl

theorem exec_of_overflows {s : State} {i : Instr} (h : Overflows s i) : exec i s = .next s.overflowed := by
  simp [exec_eq, (overflows_iff s i).1 h]

theorem exec_of_not_overflows {s : State} {i : Instr} (h : ¬ Overflows s i) : exec i s = .next (s.after i) := by
  rw [overflows_iff, Bool.not_eq_false] at h
  simp [exec_eq, h]

/-- Everything an instruction can do. -/
theorem exec_cases {i : Instr} {s t : State} (h : exec i s = .next t) :
    (Overflows s i ∧ t = s.overflowed) ∨ (¬ Overflows s i ∧ t = s.after i) := by
  by_cases ho : Overflows s i
  · exact .inl ⟨ho, Host.Outcome.next.inj (h.symm.trans (exec_of_overflows ho))⟩
  · exact .inr ⟨ho, Host.Outcome.next.inj (h.symm.trans (exec_of_not_overflows ho))⟩

/-! ### Which parts an instruction and a host command can write, pc aside -/

/-- The parts an instruction can write when no access of it passes 0xFFF. -/
def writtenParts : Instr → List Part
  | .sys _ | .jp _ | .jpV0 _ | .seXkk _ _ | .sneXkk _ _ | .seXy _ _ | .sneXy _ _ => []
  | .cls => [.requests, .repaint]
  | .call _ | .ret => [.stack]
  | .ldXkk _ _ | .addXkk _ _ | .ldXy _ _ | .orXy _ _ | .andXy _ _ | .xorXy _ _ | .ldVxDt _ => [.regs]
  | .addXy _ _ | .subXy _ _ | .shrXy _ _ | .subnXy _ _ | .shlXy _ _ => [.regs]
  | .ldI _ | .addIVx _ | .ldFVx _ => [.index]
  | .rnd _ _ => [.regs, .requests, .answers]
  | .drw _ _ _ => [.regs, .repaint, .requests, .answers]
  | .skp _ | .sknp _ => [.requests, .answers]
  | .ldVxK _ => [.keyWait]
  | .ldDtVx _ | .ldStVx _ => [.timers]
  | .ldBVx _ => [.memory]
  | .ldMemVx _ => [.memory, .index]
  | .ldVxMem _ => [.regs, .index]

/-- The parts a host command can write beside its reply and what its cycle does; a reset and an accepted reconfiguration, which
write them all, aside (60_exceptions.md R221). -/
def Command.writes : Command → List Part
  | .run | .stop => [.faultState]
  | .halt | .resume => [.pause]
  | .loadToMemory _ => [.memory]
  | .tick | .updateTimers => [.timers, .sound, .requests]
  | .keyDown _ => [.regs, .keyWait, .requests]
  | .keyUp _ => [.requests]
  | .ackRepaint => [.repaint]
  | .configure _ | .reset | .step => []

/-! ### Frames of the updates

Each update keeps every part but its own, so it extends a frame that lists that part; that the frame lists it is found by `simp`. -/

theorem Part.Kept.trans {s t u : State} {p : Part} (hst : Part.Kept s t p) (htu : Part.Kept t u p) : Part.Kept s u p := by
  cases p <;> simp_all [Part.Kept]

theorem KeptExcept.refl {ps : List Part} {s : State} : KeptExcept ps s s := by
  intro p _
  cases p <;> simp [Part.Kept]

section
variable {ps : List Part} {s t u : State}

theorem KeptExcept.trans (hst : KeptExcept ps s t) (htu : KeptExcept ps t u) : KeptExcept ps s u :=
  fun p hp => (hst p hp).trans (htu p hp)

/-- A frame extended by an update of one part it lists. -/
theorem KeptExcept.update {q : Part} (h : KeptExcept ps s t) (hm : q ∈ ps) (hu : KeptExcept [q] t u) : KeptExcept ps s u :=
  fun p hp => (h p hp).trans (hu p fun hq => hp (List.mem_singleton.1 hq ▸ hm))

theorem KeptExcept.setPc (h : KeptExcept ps s t) (a : Word) : KeptExcept ps s (t.setPc a) :=
  h.trans fun p _ => by cases p <;> simp [Part.Kept]

theorem KeptExcept.adv (h : KeptExcept ps s t) (k : Word) : KeptExcept ps s (t.adv k) :=
  h.trans fun p _ => by cases p <;> simp [Part.Kept]

theorem KeptExcept.skipIf (h : KeptExcept ps s t) (c : Bool) : KeptExcept ps s (t.skipIf c) := h.adv _

theorem KeptExcept.setReg (h : KeptExcept ps s t) (x : Reg) (b : Byte)
    (hm : Part.regs ∈ ps := by simp [writtenParts, Command.writes]) : KeptExcept ps s (t.setReg x b) :=
  h.update hm fun p hp => by cases p <;> simp_all [Part.Kept]

theorem KeptExcept.setRegsUpTo (h : KeptExcept ps s t) (x : Reg) (bs : List Byte)
    (hm : Part.regs ∈ ps := by simp [writtenParts, Command.writes]) : KeptExcept ps s (t.setRegsUpTo x bs) :=
  h.update hm fun p hp => by cases p <;> simp_all [Part.Kept]

theorem KeptExcept.setIndex (h : KeptExcept ps s t) (a : Word)
    (hm : Part.index ∈ ps := by simp [writtenParts, Command.writes]) : KeptExcept ps s (t.setIndex a) :=
  h.update hm fun p hp => by cases p <;> simp_all [Part.Kept]

theorem KeptExcept.advanceIndex (h : KeptExcept ps s t) (x : Reg)
    (hm : Part.index ∈ ps := by simp [writtenParts, Command.writes]) : KeptExcept ps s (t.advanceIndex x) :=
  h.update hm fun p hp => by cases p <;> simp_all [Part.Kept]

theorem KeptExcept.setDt (h : KeptExcept ps s t) (b : Byte)
    (hm : Part.timers ∈ ps := by simp [writtenParts, Command.writes]) : KeptExcept ps s (t.setDt b) :=
  h.update hm fun p hp => by cases p <;> simp_all [Part.Kept]

theorem KeptExcept.setSt (h : KeptExcept ps s t) (b : Byte)
    (hm : Part.timers ∈ ps := by simp [writtenParts, Command.writes]) : KeptExcept ps s (t.setSt b) :=
  h.update hm fun p hp => by cases p <;> simp_all [Part.Kept]

theorem KeptExcept.setRepaint (h : KeptExcept ps s t) (b : Bool)
    (hm : Part.repaint ∈ ps := by simp [writtenParts, Command.writes]) : KeptExcept ps s (t.setRepaint b) :=
  h.update hm fun p hp => by cases p <;> simp_all [Part.Kept]

theorem KeptExcept.setKw (h : KeptExcept ps s t) (k : Option Reg)
    (hm : Part.keyWait ∈ ps := by simp [writtenParts, Command.writes]) : KeptExcept ps s (t.setKw k) :=
  h.update hm fun p hp => by cases p <;> simp_all [Part.Kept]

theorem KeptExcept.setPaused (h : KeptExcept ps s t) (b : Bool)
    (hm : Part.pause ∈ ps := by simp [writtenParts, Command.writes]) : KeptExcept ps s (t.setPaused b) :=
  h.update hm fun p hp => by cases p <;> simp_all [Part.Kept]

theorem KeptExcept.setRunState (h : KeptExcept ps s t) (r : RunState)
    (hm : Part.faultState ∈ ps := by simp [writtenParts, Command.writes]) : KeptExcept ps s (t.setRunState r) :=
  h.update hm fun p hp => by cases p <;> simp_all [Part.Kept]

theorem KeptExcept.raise (h : KeptExcept ps s t) (k : FaultKind) (info : Word)
    (hm : Part.faultState ∈ ps := by simp [writtenParts, Command.writes]) : KeptExcept ps s (t.raise k info) :=
  h.update hm fun p hp => by cases p <;> simp_all [Part.Kept]

theorem KeptExcept.push (h : KeptExcept ps s t) (a : Word)
    (hm : Part.stack ∈ ps := by simp [writtenParts, Command.writes]) : KeptExcept ps s (t.push a) :=
  h.update hm fun p hp => by cases p <;> simp_all [Part.Kept]

theorem KeptExcept.pop (h : KeptExcept ps s t)
    (hm : Part.stack ∈ ps := by simp [writtenParts, Command.writes]) : KeptExcept ps s t.pop :=
  h.update hm fun p hp => by cases p <;> simp_all [Part.Kept]

theorem KeptExcept.send (h : KeptExcept ps s t) (rs : List Request)
    (hm : Part.requests ∈ ps := by simp [writtenParts, Command.writes]) : KeptExcept ps s (t.send rs) :=
  h.update hm fun p hp => by cases p <;> simp_all [Part.Kept]

theorem KeptExcept.takeRandom (h : KeptExcept ps s t)
    (hm : Part.answers ∈ ps := by simp [writtenParts, Command.writes]) : KeptExcept ps s t.takeRandom :=
  h.update hm fun p hp => by cases p <;> simp_all [Part.Kept]

theorem KeptExcept.takeKey (h : KeptExcept ps s t)
    (hm : Part.answers ∈ ps := by simp [writtenParts, Command.writes]) : KeptExcept ps s t.takeKey :=
  h.update hm fun p hp => by cases p <;> simp_all [Part.Kept]

theorem KeptExcept.takeCollisions (h : KeptExcept ps s t) (n : Nat)
    (hm : Part.answers ∈ ps := by simp [writtenParts, Command.writes]) : KeptExcept ps s (t.takeCollisions n) :=
  h.update hm fun p hp => by cases p <;> simp_all [Part.Kept]

theorem KeptExcept.writeBytes (h : KeptExcept ps s t) (a : Nat) (bs : List Byte)
    (hm : Part.memory ∈ ps := by simp [writtenParts, Command.writes]) : KeptExcept ps s (t.writeBytes a bs) :=
  h.update hm fun p hp => by cases p <;> simp_all [Part.Kept]

theorem KeptExcept.setReply (h : KeptExcept ps s t) (r : Reply)
    (hm : Part.hostSide ∈ ps := by simp [writtenParts, Command.writes]) : KeptExcept ps s (t.setReply r) :=
  h.update hm fun p hp => by cases p <;> simp_all [Part.Kept]

theorem KeptExcept.setCommands (h : KeptExcept ps s t) (cs : List Command)
    (hm : Part.hostSide ∈ ps := by simp [writtenParts, Command.writes]) : KeptExcept ps s (t.setCommands cs) :=
  h.update hm fun p hp => by cases p <;> simp_all [Part.Kept]

theorem KeptExcept.setRegFlag (h : KeptExcept ps s t) (x : Reg) (b : Byte) (c : Bool)
    (hm : Part.regs ∈ ps := by simp [writtenParts, Command.writes]) : KeptExcept ps s (t.setRegFlag x b c) :=
  (h.setReg x b hm).setReg vF _ hm

theorem KeptExcept.timerUpdate (h : KeptExcept ps s t)
    (hm : [Part.timers, .sound, .requests] ⊆ ps := by simp [Command.writes]) : KeptExcept ps s t.timerUpdate :=
  h.trans fun p hp => by cases p <;> simp_all [Part.Kept]

/-- A part that changed is one the frame lists. -/
theorem KeptExcept.mem_of_not_kept {p : Part} (h : KeptExcept ps s t) (hn : ¬ Part.Kept s t p) : p ∈ ps :=
  by_contra fun hp => hn (h p hp)

end

/-- An instruction writes only the parts listed for it (10_state.md R47). -/
theorem State.after_frame (s : State) (i : Instr) : KeptExcept (writtenParts i) s (s.after i) := by
  have h : ∀ {ps}, KeptExcept ps s s := KeptExcept.refl
  cases i
  case sys => exact h.adv _
  case seXkk | sneXkk | seXy | sneXy => exact h.skipIf _
  case jp | jpV0 => exact h.setPc _
  case call => exact (h.push _).setPc _
  case ret => exact h.pop.setPc _
  case ldXkk | addXkk | ldXy | orXy | andXy | xorXy | ldVxDt => exact (h.setReg _ _).adv _
  case addXy | subXy | shrXy | subnXy | shlXy => exact (h.setRegFlag _ _ _).adv _
  case ldI | addIVx | ldFVx => exact (h.setIndex _).adv _
  case cls => exact ((h.send _).setRepaint _).adv _
  case rnd => exact ((h.send _).takeRandom.setReg _ _).adv _
  case drw => exact ((((h.send _).takeCollisions _).setReg _ _).setRepaint _).adv _
  case skp | sknp => exact (h.send _).takeKey.skipIf _
  case ldVxK => exact h.setKw _
  case ldDtVx => exact (h.setDt _).adv _
  case ldStVx => exact (h.setSt _).adv _
  case ldBVx => exact (h.writeBytes _ _).adv _
  case ldMemVx => exact ((h.writeBytes _ _).advanceIndex _).adv _
  case ldVxMem => exact ((h.setRegsUpTo _ _).advanceIndex _).adv _

/-- A raised AddressOverflow touches the fault record and the run state only (60_exceptions.md R201). -/
theorem State.overflowed_frame (s : State) : KeptExcept [.faultState] s s.overflowed :=
  KeptExcept.refl.raise .addressOverflow 0x1000

/-- The parts that some instruction writes, a raised fault aside. -/
def instructionParts : List Part := [.regs, .index, .memory, .stack, .timers, .repaint, .keyWait, .requests, .answers]

theorem writtenParts_subset (i : Instr) : writtenParts i ⊆ instructionParts := by
  cases i <;> simp [writtenParts, instructionParts]

/-- An instruction writes only the parts listed for it, and the fault record with the run state when it overflows. -/
theorem exec_frame {i : Instr} {s t : State} (h : exec i s = .next t) :
    KeptExcept (.faultState :: writtenParts i) s t := by
  intro p hp
  simp only [List.mem_cons, not_or] at hp
  rcases exec_cases h with ⟨-, rfl⟩ | ⟨-, rfl⟩
  · exact s.overflowed_frame p (by simpa using hp.1)
  · exact s.after_frame i p hp.2

/-- An instruction keeps every part that only a command writes. -/
theorem exec_keeps {i : Instr} {s t : State} (h : exec i s = .next t) {p : Part} (hp : p ∉ .faultState :: instructionParts) :
    Part.Kept s t p :=
  exec_frame h p fun hm => hp (List.cons_subset_cons _ (writtenParts_subset i) hm)

/-- The registers an instruction's effect can write: its destination, and VF for the six flag writers (10_state.md R21). -/
def writtenRegs : Instr → List Reg
  | .ldXkk x _ | .addXkk x _ | .ldXy x _ | .orXy x _ | .andXy x _ | .xorXy x _ | .rnd x _ | .ldVxDt x => [x]
  | .addXy x _ | .subXy x _ | .shrXy x _ | .subnXy x _ | .shlXy x _ => [x, vF]
  | .drw _ _ _ => [vF]
  | .ldVxMem x => (List.finRange 16).filter (· ≤ x)
  | _ => []

/-- An instruction's effect keeps every register outside the list. -/
theorem State.after_regs (s : State) (i : Instr) : RegsKeptExcept (writtenRegs i) s (s.after i) := by
  intro j hj
  cases i
  case ldXkk | addXkk | ldXy | orXy | andXy | xorXy | rnd | ldVxDt =>
    exact State.reg_setReg_of_ne _ _ (by simpa [writtenRegs] using hj)
  case addXy | subXy | shrXy | subnXy | shlXy =>
    simp only [writtenRegs, List.mem_cons, List.not_mem_nil, or_false, not_or] at hj
    simp [State.after, State.reg_setRegFlag, hj]
  case drw => exact State.reg_setReg_of_ne _ _ (by simpa [writtenRegs] using hj)
  case ldVxMem =>
    simp only [writtenRegs, List.mem_filter, List.mem_finRange, decide_eq_true_eq, true_and] at hj
    simp [State.after, State.reg_setRegsUpTo, hj]
  all_goals exact s.after_frame _ .regs (by simp [writtenParts]) j

theorem exec_regs {i : Instr} {s t : State} (h : exec i s = .next t) : RegsKeptExcept (writtenRegs i) s t := by
  rcases exec_cases h with ⟨-, rfl⟩ | ⟨-, rfl⟩
  · exact fun _ _ => rfl
  · exact s.after_regs i

end Sys2Proof.Machine
end

section
/-! What a step can do, said once for the steps that run a cycle (60_exceptions.md R207, R215) and once for the host commands that
run none (R221). -/

namespace Sys2Proof.Machine

/-! ### Predicates a cycle keeps -/

/-- The predicate is kept by everything a step does, host commands that run no cycle aside: by a raised fault and an instruction
(each only from a state with no fault and no key-wait, 60_exceptions.md R207), by the timer update, by the reply and the queue. -/
structure CycleStable (P : State → Prop) : Prop where
  raise : ∀ {s : State} (k : FaultKind) (info : Word), s.fault = none → s.kw = none → P s → P (s.raise k info)
  after : ∀ {s : State} (i : Instr), s.fault = none → s.kw = none → ¬ Overflows s i → P s → P (s.after i)
  timerUpdate : ∀ {s : State}, P s → P s.timerUpdate
  setReply : ∀ {s : State} (r : Reply), P s → P (s.setReply r)
  setCommands : ∀ {s : State} (cs : List Command), P s → P (s.setCommands cs)

theorem CycleStable.reportCycle {P : State → Prop} (hP : CycleStable P) {s : State} (h : P s) : P s.reportCycle := by
  obtain ⟨r, hr⟩ := s.reportCycle_eq
  exact hr ▸ hP.setReply r h

theorem CycleStable.cycle {P : State → Prop} (hP : CycleStable P) {s t : State} (hs : P s) (h : cycle s = .next t) : P t := by
  rcases cycle_cases h with ⟨f, -, rfl⟩ | ⟨-, -, rfl⟩ | ⟨hf, hk, -, rfl⟩ | ⟨hf, hk, -, -, rfl⟩ |
    ⟨i, u, ⟨hf, hk, -, -⟩, hu, rfl⟩
  · exact hP.setReply _ hs
  · exact hP.setReply _ hs
  · exact hP.reportCycle (hP.raise _ _ hf hk hs)
  · exact hP.reportCycle (hP.raise _ _ hf hk hs)
  · rcases exec_cases hu with ⟨-, rfl⟩ | ⟨ho, rfl⟩
    · exact hP.reportCycle (hP.raise .addressOverflow 0x1000 hf hk hs)
    · exact hP.reportCycle (hP.after i hf hk ho hs)

theorem CycleStable.tick {P : State → Prop} (hP : CycleStable P) {s t : State} (hs : P s) (h : tick s = .next t) : P t := by
  rcases tick_cases h with ⟨-, rfl⟩ | ⟨-, -, rfl⟩ | ⟨u, -, -, hu, -, -, rfl⟩ | ⟨u, -, -, hu, -, rfl⟩
  · exact hP.setReply _ hs
  · exact hP.timerUpdate (hP.setReply _ hs)
  · exact hP.cycle hs hu
  · exact hP.timerUpdate (hP.cycle hs hu)

/-! ### The host commands that run no cycle -/

/-- What a reconfiguration does: a reset under the new configuration, or a refusal (60_exceptions.md R205). -/
theorem State.hostConfigure_cases (s : State) (r : ConfigRequest) :
    (∃ c, checkConfig r = .inl c ∧ s.hostConfigure r = ({ s with config := c }.performReset).setReply .done) ∨
    (∃ p, checkConfig r = .inr p ∧ s.hostConfigure r = s.refuse (.unsupportedConfiguration p)) := by
  unfold State.hostConfigure
  cases hr : checkConfig r with
  | inl c => exact .inl ⟨c, rfl, rfl⟩
  | inr p => exact .inr ⟨p, rfl, rfl⟩

/-- What `run()` does (R210). -/
theorem State.hostRun_cases (s : State) :
    (s.fault ≠ none ∧ s.hostRun = s.refuse .faultRecorded) ∨
    (s.fault = none ∧ s.hostRun = (s.setRunState .running).setReply .done) := by
  unfold State.hostRun
  split
  · exact .inl ⟨by simp [*], rfl⟩
  · exact .inr ⟨‹_›, rfl⟩

/-- What `loadToMemory(bytes)` does (70_reset_and_hazards.md R243). -/
theorem State.hostLoad_cases (s : State) (bs : List Byte) :
    (3584 < bs.length ∧ s.hostLoad bs = s.refuse .addressOverflow) ∨
    (bs.length ≤ 3584 ∧ s.hostLoad bs = ((s.writeBytes 0x200 bs).setPc 0x200).setReply .done) := by
  unfold State.hostLoad
  split
  · exact .inl ⟨‹_›, rfl⟩
  · exact .inr ⟨by omega, rfl⟩

/-- What `keyDown(k)` does: the Keyboard hears of it and a pending key-wait is resumed, or it is refused (R191, R222). -/
theorem State.hostKeyDown_cases (s : State) (k : Nat) :
    (∃ (key : Reg) (r : Reg), key.val = k ∧ s.kw = some r ∧ s.hostKeyDown k =
      ((((s.send [.keyDown key]).setReg r (BitVec.ofNat 8 k)).adv 2).setKw none).setReply .done) ∨
    (∃ key : Reg, key.val = k ∧ s.kw = none ∧ s.hostKeyDown k = (s.send [.keyDown key]).setReply .done) ∨
    (16 ≤ k ∧ s.hostKeyDown k = s.refuse .keyOutOfRange) := by
  by_cases hk : k < 16
  · simp only [State.hostKeyDown, dif_pos hk]
    rcases (s.send [.keyDown ⟨k, hk⟩]).resumeKeyWait_cases ⟨k, hk⟩ with ⟨r, hr, h⟩ | ⟨hn, h⟩
    · exact .inl ⟨⟨k, hk⟩, r, rfl, hr, by rw [h]⟩
    · exact .inr (.inl ⟨⟨k, hk⟩, rfl, hn, by rw [h]⟩)
  · exact .inr (.inr ⟨by omega, by rw [State.hostKeyDown, dif_neg hk]⟩)

/-- What `keyUp(k)` does (R223). -/
theorem State.hostKeyUp_cases (s : State) (k : Nat) :
    (∃ key : Reg, key.val = k ∧ s.hostKeyUp k = (s.send [.keyUp key]).setReply .done) ∨
    (16 ≤ k ∧ s.hostKeyUp k = s.refuse .keyOutOfRange) := by
  unfold State.hostKeyUp
  split
  · exact .inl ⟨⟨k, ‹_›⟩, rfl, rfl⟩
  · exact .inr ⟨by omega, rfl⟩

/-- What obeying a command that runs no cycle can leave, as named updates, one constructor per outcome (R221). Tied to `obey` by
`hostStep_of_obey`. -/
inductive HostStep (s : State) : Command → State → Prop
  | refused (c : Command) (e : CommandError) : HostStep s c (s.refuse e)
  | reset : HostStep s .reset (s.performReset.setReply .done)
  | configured {r : ConfigRequest} {d : Configuration} (hd : checkConfig r = .inl d) :
      HostStep s (.configure r) (({ s with config := d } : State).performReset.setReply .done)
  | ran (hf : s.fault = none) : HostStep s .run ((s.setRunState .running).setReply .done)
  | stopped : HostStep s .stop ((s.setRunState .stopped).setReply .done)
  | halted : HostStep s .halt ((s.setPaused true).setReply .done)
  | resumed : HostStep s .resume ((s.setPaused false).setReply .done)
  | loaded {bs : List Byte} (hl : bs.length ≤ 3584) :
      HostStep s (.loadToMemory bs) (((s.writeBytes 0x200 bs).setPc 0x200).setReply .done)
  | updatedTimers : HostStep s .updateTimers (s.timerUpdate.setReply .done)
  | endedWait {r : Reg} (key : Reg) (hk : s.kw = some r) : HostStep s (.keyDown key.val)
      (((((s.send [.keyDown key]).setReg r (BitVec.ofNat 8 key.val)).adv 2).setKw none).setReply .done)
  | pressed (key : Reg) (hk : s.kw = none) : HostStep s (.keyDown key.val) ((s.send [.keyDown key]).setReply .done)
  | released (key : Reg) : HostStep s (.keyUp key.val) ((s.send [.keyUp key]).setReply .done)
  | acknowledged : HostStep s .ackRepaint ((s.setRepaint false).setReply .done)

theorem hostStep_of_obey {c : Command} {s t : State} (hns : c ≠ .step) (hnt : c ≠ .tick) (h : obey c s = .next t) :
    HostStep s c t := by
  cases c
  case step => exact absurd rfl hns
  case tick => exact absurd rfl hnt
  all_goals obtain rfl := Host.Outcome.next.inj h
  case configure r =>
    rcases s.hostConfigure_cases r with ⟨d, hd, e⟩ | ⟨p, -, e⟩
    · exact e ▸ .configured hd
    · exact e ▸ .refused _ _
  case run =>
    rcases s.hostRun_cases with ⟨-, e⟩ | ⟨hf, e⟩
    · exact e ▸ .refused _ _
    · exact e ▸ .ran hf
  case stop => exact .stopped
  case halt => exact .halted
  case resume => exact .resumed
  case reset => exact .reset
  case loadToMemory bs =>
    rcases s.hostLoad_cases bs with ⟨-, e⟩ | ⟨hl, e⟩
    · exact e ▸ .refused _ _
    · exact e ▸ .loaded hl
  case updateTimers => exact .updatedTimers
  case keyDown k =>
    rcases s.hostKeyDown_cases k with ⟨key, r, rfl, hk, e⟩ | ⟨key, rfl, hk, e⟩ | ⟨-, e⟩
    · exact e ▸ .endedWait key hk
    · exact e ▸ .pressed key hk
    · exact e ▸ .refused _ _
  case keyUp k =>
    rcases s.hostKeyUp_cases k with ⟨key, rfl, e⟩ | ⟨-, e⟩
    · exact e ▸ .released key
    · exact e ▸ .refused _ _
  case ackRepaint => exact .acknowledged

/-- A step is a step that keeps what a cycle keeps, or a host command's. -/
theorem CycleStable.step {P : State → Prop} (hP : CycleStable P) {s t : State} (hs : P s) (h : step s = .next t) :
    P t ∨ ∃ c rest, s.commands = c :: rest ∧ P (s.setCommands rest) ∧ HostStep (s.setCommands rest) c t := by
  rcases step_cases h with ⟨-, h⟩ | ⟨rest, -, h⟩ | ⟨rest, -, h⟩ | ⟨c, rest, hc, hns, hnt, h⟩
  · exact .inl (hP.cycle hs h)
  · exact .inl (hP.cycle (hP.setCommands rest hs) h)
  · exact .inl (hP.tick (hP.setCommands rest hs) h)
  · exact .inr ⟨c, rest, hc, hP.setCommands rest hs, hostStep_of_obey hns hnt h⟩

/-- A host command that does not reset writes only the parts listed for it, and the host's side. -/
theorem HostStep.frame {c : Command} {s t : State} (h : HostStep s c t) (hr : c ≠ .reset)
    (hc : ∀ r d, c = .configure r → checkConfig r ≠ .inl d) : KeptExcept (.hostSide :: c.writes) s t := by
  have h0 : ∀ {ps}, KeptExcept ps s s := KeptExcept.refl
  cases h with
  | refused => exact h0.setReply _
  | reset => exact absurd rfl hr
  | configured hd => exact absurd hd (hc _ _ rfl)
  | ran => exact (h0.setRunState _).setReply _
  | stopped => exact (h0.setRunState _).setReply _
  | halted => exact (h0.setPaused _).setReply _
  | resumed => exact (h0.setPaused _).setReply _
  | loaded => exact ((h0.writeBytes _ _).setPc _).setReply _
  | updatedTimers => exact h0.timerUpdate.setReply _
  | endedWait => exact ((((h0.send _).setReg _ _).adv _).setKw _).setReply _
  | pressed => exact (h0.send _).setReply _
  | released => exact (h0.send _).setReply _
  | acknowledged => exact (h0.setRepaint _).setReply _

end Sys2Proof.Machine
end

section
/-! The invariant of 10_state.md R44 holds at reset and is kept by every step; the program counter stays in the 4096 bytes (R24). -/

namespace Sys2Proof.Machine

/-! ### The invariant -/

/-- In a state with the invariant a pending key-wait excludes a recorded fault (R44). -/
theorem State.Inv.fault_eq_none {s : State} (h : s.Inv) {r : Reg} (hk : s.kw = some r) : s.fault = none := by
  by_contra hf
  simpa [hk] using (h.faultStops hf).2

theorem State.Inv.raise {s : State} (h : s.Inv) (k : FaultKind) (info : Word) (hk : s.kw = none) : (s.raise k info).Inv :=
  h.of_parts (.inl rfl) (.inl rfl) rfl rfl rfl rfl fun _ => ⟨rfl, hk⟩

theorem State.Inv.setPc {s : State} (h : s.Inv) (a : Word) : (s.setPc a).Inv :=
  h.of_parts (.inr (maskAddr_lt a)) (.inl rfl) rfl rfl rfl rfl h.faultStops

theorem State.Inv.adv {s : State} (h : s.Inv) (k : Word) : (s.adv k).Inv :=
  h.of_parts (.inr (maskAddr_lt _)) (.inl rfl) rfl rfl rfl rfl h.faultStops

theorem State.Inv.setRegsUpTo {s : State} (h : s.Inv) (x : Reg) (bs : List Byte) : (s.setRegsUpTo x bs).Inv :=
  h.of_parts (.inl (by simp)) (.inl (by simp)) (by simp) (by simp) (by simp) (by simp) (by simpa using h.faultStops)

/-- I after a block transfer is the old one or an address of memory (44_memory_index.md R165, R166). -/
theorem indexAfterBlock_eq_or_lt (keep : Bool) (i : Word) (x : Reg) :
    indexAfterBlock keep i x = i ∨ (indexAfterBlock keep i x).toNat < 0x1000 := by
  cases keep
  · exact .inr (maskAddr_lt _)
  · exact .inl rfl

theorem State.Inv.advanceIndex {s : State} (h : s.Inv) (x : Reg) : (s.advanceIndex x).Inv :=
  h.of_parts (.inl rfl) (indexAfterBlock_eq_or_lt _ _ x) rfl rfl rfl rfl h.faultStops

/-- The stored bytes of an access whose range check passed lie in memory (20_memory.md R56). -/
theorem State.Inv.writeBytes_of_not_overflows {s : State} (h : s.Inv) {i : Instr} (ho : ¬ Overflows s i) {bs : List Byte}
    (hl : bs.length = accessCount i) : (s.writeBytes s.index.toNat bs).Inv := by
  rw [overflows_iff, Bool.not_eq_false, State.inRange_iff, ← hl] at ho
  exact h.writeBytes (ho.imp List.eq_nil_of_length_eq_zero id)

/-- An instruction keeps the invariant. -/
theorem State.Inv.after {s : State} (h : s.Inv) {i : Instr} (hf : s.fault = none) (ho : ¬ Overflows s i) :
    (s.after i).Inv := by
  cases i
  case sys => exact h.adv 2
  case jp | jpV0 => exact h.setPc _
  case call => exact (h.push h.pcRange).setPc _
  case ret => exact h.pop.setPc _
  case ldVxK => exact h.of_parts (.inl rfl) (.inl rfl) rfl rfl rfl rfl fun hn => absurd hf hn
  case ldI | addIVx | ldFVx =>
    exact h.of_parts (.inr (maskAddr_lt _)) (.inr (maskAddr_lt _)) rfl rfl rfl rfl h.faultStops
  case ldBVx => exact (h.writeBytes_of_not_overflows ho rfl).adv _
  case ldMemVx x => exact ((h.writeBytes_of_not_overflows ho (s.regsUpTo_length x)).advanceIndex x).adv _
  case ldVxMem x => exact ((h.setRegsUpTo x _).advanceIndex x).adv _
  all_goals exact h.of_parts (.inr (maskAddr_lt _)) (.inl rfl) rfl rfl rfl rfl h.faultStops

theorem cycleStable_inv : CycleStable State.Inv where
  raise k info _ hk h := h.raise k info hk
  after _ hf _ ho h := h.after hf ho
  timerUpdate h := h.of_parts (.inl rfl) (.inl rfl) rfl rfl rfl rfl h.faultStops
  setReply _ h := h.of_parts (.inl rfl) (.inl rfl) rfl rfl rfl rfl h.faultStops
  setCommands _ h := h.of_parts (.inl rfl) (.inl rfl) rfl rfl rfl rfl h.faultStops

/-- A host command keeps the invariant. -/
theorem HostStep.inv {c : Command} {s t : State} (hs : s.Inv) (h : HostStep s c t) : t.Inv := by
  cases h with
  | reset => exact cycleStable_inv.setReply _ (State.inv_performReset hs.configLegal)
  | configured hd => exact cycleStable_inv.setReply _ (State.inv_performReset (checkConfig_inl hd).1)
  | ran hf => exact hs.of_parts (.inl rfl) (.inl rfl) rfl rfl rfl rfl fun hn => absurd hf hn
  | stopped => exact hs.of_parts (.inl rfl) (.inl rfl) rfl rfl rfl rfl fun hn => ⟨rfl, (hs.faultStops hn).2⟩
  | loaded hl => exact cycleStable_inv.setReply _ ((hs.writeBytes (.inr (by omega))).setPc _)
  | updatedTimers => exact cycleStable_inv.setReply _ (cycleStable_inv.timerUpdate hs)
  | endedWait key hk =>
    exact hs.of_parts (.inr (maskAddr_lt _)) (.inl rfl) rfl rfl rfl rfl fun hn => absurd (hs.fault_eq_none hk) hn
  | refused | halted | resumed | pressed | released | acknowledged =>
    exact hs.of_parts (.inl rfl) (.inl rfl) rfl rfl rfl rfl hs.faultStops

/-- Settles O17: a cycle keeps the invariant part by part, and so does each host command. -/
theorem everyStepKeepsTheInvariant : Obligations.EveryStepKeepsTheInvariant := by
  intro s t hs h
  rcases cycleStable_inv.step hs h with ht | ⟨c, rest, -, hs', hc⟩
  · exact ht
  · exact hc.inv hs'

/-- Settles O16: power-on is a reset under the default configuration, which is legal. -/
theorem resetMeetsTheInvariant : Obligations.ResetMeetsTheInvariant :=
  (State.inv_performReset (s := State.reset) ⟨by decide, by decide⟩).of_parts (.inl rfl) (.inl rfl) rfl rfl rfl rfl
    fun h => absurd rfl h

/-! ### The program counter -/

/-- An instruction leaves pc or masks it (R24). -/
theorem State.after_pc_eq_or_lt (s : State) (i : Instr) : (s.after i).pc = s.pc ∨ (s.after i).pc.toNat < 0x1000 := by
  cases i
  case ldVxK => exact .inl rfl
  all_goals exact .inr (maskAddr_lt _)

theorem exec_pc_eq_or_lt {i : Instr} {s t : State} (h : exec i s = .next t) : t.pc = s.pc ∨ t.pc.toNat < 0x1000 := by
  rcases exec_cases h with ⟨-, rfl⟩ | ⟨-, rfl⟩
  · exact .inl rfl
  · exact s.after_pc_eq_or_lt i

/-- pc lies in memory (R24). -/
def State.PcInMemory (s : State) : Prop := s.pc.toNat < 0x1000

theorem cycleStable_pcInMemory : CycleStable State.PcInMemory where
  raise _ _ _ _ h := h
  after {s} i _ _ _ h := (s.after_pc_eq_or_lt i).elim (fun e => (congrArg BitVec.toNat e).trans_lt h) id
  timerUpdate h := h
  setReply _ h := h
  setCommands _ h := h

theorem HostStep.pcInMemory {c : Command} {s t : State} (hs : s.PcInMemory) (h : HostStep s c t) : t.PcInMemory := by
  cases h with
  | reset | configured => exact (by decide : (0x200 : Word).toNat < 0x1000)
  | loaded | endedWait => exact maskAddr_lt _
  | refused | ran | stopped | halted | resumed | updatedTimers | pressed | released | acknowledged => exact hs

/-- The top four bits of an address are 0 exactly when it lies in memory. -/
theorem top_bits_zero_iff (a : Word) : a.extractLsb 15 12 = 0 ↔ a.toNat < 0x1000 := by
  have := a.isLt
  rw [← BitVec.toNat_inj, BitVec.extractLsb_toNat, Nat.shiftRight_eq_div_pow]
  change _ = 0 ↔ _
  omega

/-- Settles O18: every update of pc masks it, and every step keeps it in memory. -/
theorem programCounterIsAlwaysMasked : Obligations.ProgramCounterIsAlwaysMasked := by
  refine ⟨fun i s t => exec_pc_eq_or_lt, by decide, fun s t hs h => ?_⟩
  have hs : s.PcInMemory := (top_bits_zero_iff s.pc).1 hs
  have ht : t.PcInMemory := by
    rcases cycleStable_pcInMemory.step hs h with ht | ⟨c, rest, -, hs', hc⟩
    · exact ht
    · exact hc.pcInMemory hs'
  exact ⟨Nat.le_of_lt_succ ht, (top_bits_zero_iff t.pc).2 ht⟩

end Sys2Proof.Machine
end

section
/-! Which steps change the quirks, the configuration and the run state, what a pending key-wait keeps, and what reset sets
(10_state.md R34, R36, R38, R46). -/

namespace Sys2Proof.Machine

/-! ### Quirks and configuration -/

/-- The quirks and the configuration are those of an earlier state. -/
def SameSetting (s u : State) : Prop := Part.Kept s u .quirks ∧ Part.Kept s u .config

theorem cycleStable_sameSetting (s : State) : CycleStable (SameSetting s) where
  raise _ _ _ _ h := h
  after {u} i _ _ _ h :=
    ⟨h.1.trans (u.after_frame i .quirks fun hm => absurd (writtenParts_subset i hm) (by decide)),
      h.2.trans (u.after_frame i .config fun hm => absurd (writtenParts_subset i hm) (by decide))⟩
  timerUpdate h := h
  setReply _ h := h
  setCommands _ h := h

/-- Settles O21: no cycle changes the setting, and of the host commands only the two that reset do. -/
theorem onlyResetAndReconfigurationSetTheQuirks : Obligations.OnlyResetAndReconfigurationSetTheQuirks := by
  refine ⟨fun i s t h => ⟨exec_keeps h (by decide), exec_keeps h (by decide)⟩, fun s t h => ?_⟩
  rcases (cycleStable_sameSetting s).step ⟨KeptExcept.refl _ List.not_mem_nil, KeptExcept.refl _ List.not_mem_nil⟩ h with
    ht | ⟨c, rest, hc, -, hs⟩
  · exact .inl ht
  · cases hs with
    | reset => exact .inr (.inl ⟨rest, hc, rfl, rfl, rfl⟩)
    | configured hd => exact .inr (.inr ⟨_, rest, _, hc, hd, rfl, rfl, rfl⟩)
    | refused | ran | stopped | halted | resumed | loaded | updatedTimers | endedWait | pressed | released | acknowledged =>
      exact .inl (by simp [Part.Kept, State.refuse])

/-! ### The run state -/

/-- The fault record and the run state are those of an earlier state, or a fault was raised since and stopped the run. -/
def StoppedOnlyByFault (s u : State) : Prop :=
  Part.Kept s u .faultState ∨ (s.fault = none ∧ u.fault ≠ none ∧ u.runState = .stopped)

theorem cycleStable_stoppedOnlyByFault (s : State) : CycleStable (StoppedOnlyByFault s) where
  raise {u} _ _ hf _ h := by
    rcases h with ⟨he, -⟩ | ⟨-, hn, -⟩
    · exact .inr ⟨he.symm.trans hf, by simp, rfl⟩
    · exact absurd hf hn
  after {u} i hf _ _ h := by
    rcases h with h | ⟨-, hn, -⟩
    · exact .inl (h.trans (u.after_frame i .faultState fun hm => absurd (writtenParts_subset i hm) (by decide)))
    · exact absurd hf hn
  timerUpdate h := h
  setReply _ h := h
  setCommands _ h := h

/-- Settles O22: a cycle changes the run state only by raising a fault, and of the host commands only four change it. -/
theorem runStateChangesOnlyByCommandOrFault : Obligations.RunStateChangesOnlyByCommandOrFault := by
  intro s t h hne
  rcases (cycleStable_stoppedOnlyByFault s).step (.inl ⟨rfl, rfl⟩) h with
    (⟨-, ht⟩ | ⟨hf, hn, hr⟩) | ⟨c, rest, hc, -, hs⟩
  · exact absurd ht hne
  · exact .inr ⟨hr, .inr (.inr (.inr ⟨hf, hn⟩))⟩
  · cases hs with
    | ran hf => exact .inl ⟨rest, hc, rfl, hf⟩
    | stopped => exact .inr ⟨rfl, .inl ⟨rest, hc⟩⟩
    | reset => exact .inr ⟨rfl, .inr (.inl ⟨rest, hc⟩)⟩
    | configured => exact .inr ⟨rfl, .inr (.inr (.inl ⟨_, rest, hc⟩))⟩
    | refused | halted | resumed | loaded | updatedTimers | endedWait | pressed | released | acknowledged =>
      exact absurd (by simp [State.refuse]) hne

/-! ### The key-wait -/

section
variable (c : Command)

/-- The parts no host command writes but by a reset. -/
theorem Command.not_mem_writes {p : Part} (hp : p ∈ [Part.index, .stack, .quirks, .config, .answers]) : p ∉ c.writes := by
  cases c <;> simp only [Command.writes] <;> revert p <;> decide

theorem Command.regs_mem_writes : Part.regs ∈ c.writes ↔ ∃ k, c = .keyDown k := by cases c <;> simp [Command.writes]
theorem Command.keyWait_mem_writes : Part.keyWait ∈ c.writes ↔ ∃ k, c = .keyDown k := by cases c <;> simp [Command.writes]
theorem Command.memory_mem_writes : Part.memory ∈ c.writes ↔ ∃ bs, c = .loadToMemory bs := by
  cases c <;> simp [Command.writes]
theorem Command.repaint_mem_writes : Part.repaint ∈ c.writes ↔ c = .ackRepaint := by cases c <;> simp [Command.writes]
theorem Command.pause_mem_writes : Part.pause ∈ c.writes ↔ c = .halt ∨ c = .resume := by cases c <;> simp [Command.writes]
theorem Command.faultState_mem_writes : Part.faultState ∈ c.writes ↔ c = .run ∨ c = .stop := by
  cases c <;> simp [Command.writes]
theorem Command.timers_mem_writes : Part.timers ∈ c.writes ↔ c = .tick ∨ c = .updateTimers := by
  cases c <;> simp [Command.writes]
theorem Command.sound_mem_writes : Part.sound ∈ c.writes ↔ c = .tick ∨ c = .updateTimers := by
  cases c <;> simp [Command.writes]
theorem Command.requests_mem_writes :
    Part.requests ∈ c.writes ↔ c = .tick ∨ c = .updateTimers ∨ (∃ k, c = .keyDown k) ∨ ∃ k, c = .keyUp k := by
  cases c <;> simp [Command.writes]

end

/-- While a key-wait is pending a step answers Waiting, lets a tick update the timers, or obeys a host command (R36, R215). -/
theorem step_cases_of_wait {s t : State} {r : Reg} (hf : s.fault = none) (hk : s.kw = some r) (h : step s = .next t) :
    (∃ cs a, t = (s.setCommands cs).setReply a) ∨
    (∃ rest a, s.commands = .tick :: rest ∧ t = ((s.setCommands rest).setReply a).timerUpdate) ∨
    (∃ c rest, s.commands = c :: rest ∧ HostStep (s.setCommands rest) c t) := by
  have hw : ∀ {cs u}, cycle (s.setCommands cs) = .next u → u = (s.setCommands cs).setReply .waiting := fun h =>
    Host.Outcome.next.inj (h.symm.trans (cycle_of_wait hf hk))
  rcases step_cases h with ⟨-, h⟩ | ⟨rest, -, h⟩ | ⟨rest, hc, h⟩ | ⟨c, rest, hc, hns, hnt, h⟩
  · exact .inl ⟨s.commands, _, hw h⟩
  · exact .inl ⟨rest, _, hw h⟩
  · rcases tick_cases h with ⟨-, rfl⟩ | ⟨-, -, rfl⟩ | ⟨u, -, -, hu, -, -, rfl⟩ | ⟨u, -, -, hu, -, rfl⟩
    · exact .inl ⟨rest, _, rfl⟩
    · exact .inr (.inl ⟨rest, _, hc, rfl⟩)
    · exact .inl ⟨rest, _, hw hu⟩
    · exact .inr (.inl ⟨rest, _, hc, by rw [hw hu]⟩)
  · exact .inr (.inr ⟨c, rest, hc, hostStep_of_obey hns hnt h⟩)

/-- While a key-wait is pending, and neither a reset nor a key-down comes, no fault is raised, only a load moves pc, and a part
changes only by a command that writes it. -/
theorem step_of_wait {s t : State} {r : Reg} (hf : s.fault = none) (hk : s.kw = some r) (h : step s = .next t)
    (hreset : ∀ rest, s.commands ≠ .reset :: rest)
    (hconf : ∀ q rest d, s.commands = .configure q :: rest → checkConfig q ≠ .inl d)
    (hkey : ∀ k rest, s.commands = .keyDown k :: rest → 16 ≤ k) :
    t.fault = none ∧ ((∀ bs rest, s.commands ≠ .loadToMemory bs :: rest) → t.pc = s.pc) ∧
      ∀ p, p ≠ .hostSide → (∀ c : Command, p ∈ c.writes → (∀ k, c ≠ .keyDown k) → ∀ rest, s.commands ≠ c :: rest) →
        Part.Kept s t p := by
  have hquiet : ∀ cs a, KeptExcept [.hostSide] s ((s.setCommands cs).setReply a) := fun cs a =>
    (KeptExcept.refl.setCommands cs).setReply a
  rcases step_cases_of_wait hf hk h with ⟨cs, a, rfl⟩ | ⟨rest, a, hc, rfl⟩ | ⟨c, rest, hc, hs⟩
  · exact ⟨hf, fun _ => rfl, fun p hp _ => hquiet cs a p (by simpa using hp)⟩
  · refine ⟨by simpa using hf, fun _ => by simp, fun p hp hw => ?_⟩
    have hframe : KeptExcept (.hostSide :: Command.tick.writes) s _ :=
      ((KeptExcept.refl.setCommands rest).setReply a).timerUpdate
    exact hframe p fun hm => (List.mem_cons.1 hm).elim hp fun hm => hw _ hm (by simp) rest hc
  · have hframe := ((KeptExcept.refl (ps := .hostSide :: c.writes)).setCommands rest).trans
      (hs.frame (fun e => hreset rest (e ▸ hc)) fun q d e => hconf q rest d (e ▸ hc))
    have hkept : (∀ k, c ≠ .keyDown k) → ∀ p, p ≠ .hostSide →
        (∀ c : Command, p ∈ c.writes → (∀ k, c ≠ .keyDown k) → ∀ rest, s.commands ≠ c :: rest) →
        Part.Kept s t p :=
      fun hd p hp hw => hframe p fun hm => (List.mem_cons.1 hm).elim hp fun hm => hw c hm hd rest hc
    cases hs with
    | refused _ e => exact ⟨hf, fun _ => rfl, fun p hp _ => hquiet rest _ p (by simpa using hp)⟩
    | reset => exact absurd hc (hreset rest)
    | configured hd => exact absurd hd (hconf _ rest _ hc)
    | endedWait key | pressed key => exact absurd key.isLt (Nat.not_lt.2 (hkey _ rest hc))
    | loaded => exact ⟨hf, fun hn => absurd hc (hn _ rest), hkept (by simp)⟩
    | ran | stopped | halted | resumed | updatedTimers | released | acknowledged =>
      exact ⟨by simpa using hf, fun _ => by simp, hkept (by simp)⟩

/-- Settles O20: no cycle runs in a key-wait, so each part is kept unless the command that comes is one that writes it. -/
theorem keyWaitEndsOnlyByKeyDownOrReset : Obligations.KeyWaitEndsOnlyByKeyDownOrReset := by
  intro s t r hs hk h hreset hconf hkey
  obtain ⟨hfault, hpc, hkept⟩ := step_of_wait (hs.fault_eq_none hk) hk h hreset hconf hkey
  have hfree : ∀ p, p ∈ [Part.index, .stack, .quirks, .config, .answers] → Part.Kept s t p := fun p hp =>
    hkept p (by rintro rfl; simp at hp) fun c hm => absurd hm (c.not_mem_writes hp)
  have hwait : Part.Kept s t .keyWait := hkept _ nofun fun c hm hd => ((c.keyWait_mem_writes.1 hm).elim hd).elim
  refine ⟨Eq.trans hwait hk, hfault, ?_, hfree _ (by decide), hfree _ (by decide), hfree _ (by decide), hfree _ (by decide),
    hfree _ (by decide), fun hload => ⟨hpc hload, ?_⟩, fun hack => ?_, fun hhalt hresume => ?_, fun hrun hstop => ?_,
    fun hupdate htick => ⟨?_, ?_, fun hkeyUp => ?_⟩⟩
  · exact hkept _ nofun fun c hm hd => ((c.regs_mem_writes.1 hm).elim hd).elim
  · exact hkept _ nofun fun c hm _ => by obtain ⟨bs, rfl⟩ := c.memory_mem_writes.1 hm; exact hload bs
  · exact hkept _ nofun fun c hm _ => c.repaint_mem_writes.1 hm ▸ hack
  · exact hkept _ nofun fun c hm _ => (c.pause_mem_writes.1 hm).elim (· ▸ hhalt) (· ▸ hresume)
  · exact (hkept .faultState nofun fun c hm _ => (c.faultState_mem_writes.1 hm).elim (· ▸ hrun) (· ▸ hstop)).2
  · exact hkept _ nofun fun c hm _ => (c.timers_mem_writes.1 hm).elim (· ▸ htick) (· ▸ hupdate)
  · exact hkept _ nofun fun c hm _ => (c.sound_mem_writes.1 hm).elim (· ▸ htick) (· ▸ hupdate)
  · refine hkept _ nofun fun c hm hd => ?_
    rcases c.requests_mem_writes.1 hm with rfl | rfl | ⟨k, rfl⟩ | ⟨k, rfl⟩
    · exact htick
    · exact hupdate
    · exact absurd rfl (hd k)
    · exact hkeyUp k

/-! ### Reset -/

@[simp] theorem State.reg_performReset (s : State) (j : Reg) : s.performReset.reg j = 0 := by simp [State.reg]

@[simp] theorem State.slot_performReset (s : State) (j : Nat) : s.performReset.slot j = 0 := by
  by_cases hj : j < s.config.stackCap <;> simp [State.slot, hj]

/-- After a reset memory holds FONT from 0x000 and 0x00 elsewhere (R45, R46). -/
theorem State.readByte_performReset (s : State) (a : Nat) :
    s.performReset.readByte a = if a < 80 then s.config.font.getD a 0 else 0 := rfl

/-- Settles O53: `reset()` sets each element of R46 under the configuration the machine has. -/
theorem resetGivesTheResetValues : Obligations.ResetGivesTheResetValues := by
  intro s rest hc
  have hlow : ∀ a, a < 80 → (s.setCommands rest).hostReset.readByte a = s.config.font.getD a 0 := fun a ha =>
    ((s.setCommands rest).readByte_performReset a).trans (if_pos ha)
  have hhigh : ∀ a, 80 ≤ a → (s.setCommands rest).hostReset.readByte a = 0 := fun a ha =>
    ((s.setCommands rest).readByte_performReset a).trans (if_neg (Nat.not_lt.2 ha))
  exact ⟨_, step_of_command hc, (s.setCommands rest).reg_performReset, rfl, rfl, rfl, List.length_replicate,
    (s.setCommands rest).slot_performReset, rfl, rfl, hlow, hhigh, rfl, rfl, rfl, rfl, rfl, rfl, rfl, rfl, rfl, rfl, rfl⟩

end Sys2Proof.Machine
end

section
/-! The return-address ring (10_state.md R31, R32). -/

namespace Sys2Proof.Machine

/-- Two positions of the ring less than a turn away from the same slot are different. -/
theorem ring_position_ne {cap i j : Nat} (base : Nat) (hi : i < cap) (hj : j < cap) (h : i ≠ j) :
    (base + i) % cap ≠ (base + j) % cap := fun e =>
  h (Nat.ModEq.eq_of_lt_of_lt (Nat.ModEq.add_left_cancel' base e) hi hj)

/-- Pushes, one after another. -/
abbrev State.pushAll (s : State) (as : List Word) : State := as.foldl State.push s

theorem State.pushAll_concat (s : State) (as : List Word) (a : Word) : s.pushAll (as ++ [a]) = (s.pushAll as).push a := by
  simp

theorem State.pushAll_config (s : State) (as : List Word) : (s.pushAll as).config = s.config := by
  induction as generalizing s with
  | nil => rfl
  | cons a as ih => exact ih (s.push a)

theorem State.pushAll_stack_length (s : State) (as : List Word) : (s.pushAll as).stack.length = s.stack.length := by
  induction as generalizing s with
  | nil => rfl
  | cons a as ih => exact (ih (s.push a)).trans (by simp)

/-- Pushes move sp on around the ring, one slot each. -/
theorem State.pushAll_sp {s : State} (hs : s.Inv) (as : List Word) :
    (s.pushAll as).sp = (s.sp + as.length) % s.config.stackCap := by
  induction as using List.reverseRecOn with
  | nil => exact (Nat.mod_eq_of_lt hs.spRange).symm
  | append_singleton as a ih =>
    have hcap : isPowerOfTwo (s.pushAll as).config.stackCap = true := by rw [s.pushAll_config]; exact hs.configLegal.1
    rw [State.pushAll_concat, State.push_sp, State.spUp_eq hcap, ih, s.pushAll_config, Nat.mod_add_mod, List.length_append,
      List.length_singleton, Nat.add_assoc]

/-- A push after others writes the slot they moved sp to. -/
theorem State.slot_push_pushAll {s : State} (hs : s.Inv) (as : List Word) (a : Word) :
    ((s.pushAll as).push a).slot ((s.sp + as.length) % s.config.stackCap) = a := by
  rw [← State.pushAll_sp hs]
  refine State.slot_push_self a ?_
  rw [State.pushAll_sp hs, s.pushAll_stack_length, hs.stackLength]
  exact Nat.mod_lt _ (cap_pos hs.configLegal.1)

/-- While the ring is not full, each slot pushed to holds what was pushed there. -/
theorem State.slot_pushAll {s : State} (hs : s.Inv) {as : List Word} (hl : as.length ≤ s.config.stackCap) {k : Nat}
    (hk : k < as.length) : (s.pushAll as).slot ((s.sp + k) % s.config.stackCap) = as.getD k 0 := by
  induction as using List.reverseRecOn with
  | nil => exact absurd hk (Nat.not_lt_zero k)
  | append_singleton as a ih =>
    rw [List.length_append, List.length_singleton] at hl hk
    rw [State.pushAll_concat]
    rcases Nat.lt_succ_iff_lt_or_eq.1 hk with hk | rfl
    · have hne : (s.sp + k) % s.config.stackCap ≠ (s.pushAll as).sp := by
        rw [State.pushAll_sp hs]
        exact ring_position_ne s.sp (by omega) (by omega) (by omega)
      rw [State.slot_push_of_ne _ _ hne, ih (by omega) hk, List.getD_append _ _ _ _ hk]
    · rw [State.slot_push_pushAll hs]
      simp

/-- The mask of a sum, as a number. -/
theorem maskAddr_add_toNat (a b : Word) : (maskAddr (a + b)).toNat = (a.toNat + b.toNat) % 0x1000 := by
  rw [maskAddr_toNat, BitVec.toNat_add]
  omega

/-- RET goes past the address in the slot below sp (40_control_flow.md R107). -/
theorem State.after_ret_pc_toNat {s : State} (hs : s.Inv) : (s.after .ret).pc.toNat =
    ((s.slot ((s.sp + s.config.stackCap - 1) % s.config.stackCap)).toNat + 2) % 0x1000 := by
  rw [← State.spDown_eq hs.configLegal.1]
  exact maskAddr_add_toNat _ 2

/-- Settles O28: pushes write the slots of the ring in turn, and neither CALL nor RET overflows. -/
theorem stackRingWrapsWithoutFault : Obligations.StackRingWrapsWithoutFault := by
  intro s hs
  refine ⟨fun as hl => ?_, fun nnn => ⟨_, exec_of_not_overflows id, rfl, rfl, rfl⟩, _, exec_of_not_overflows id, rfl,
    State.after_ret_pc_toNat hs⟩
  have hturn : (s.sp + as.length) % s.config.stackCap = s.sp := by
    rw [hl, Nat.add_mod_right, Nat.mod_eq_of_lt hs.spRange]
  have hsp : (s.pushAll as).sp = s.sp := (State.pushAll_sp hs as).trans hturn
  have hslot : ∀ k, k < s.config.stackCap → (s.pushAll as).slot ((s.sp + k) % s.config.stackCap) = as.getD k 0 :=
    fun k hk => State.slot_pushAll hs hl.le (hl ▸ hk)
  refine ⟨hsp, hslot, fun a => ⟨?_, fun k h0 hk => ?_⟩⟩
  · have h := State.slot_push_pushAll hs as a
    rwa [hturn] at h
  · have hne := ring_position_ne s.sp hk (cap_pos hs.configLegal.1) h0.ne'
    rw [Nat.add_zero, Nat.mod_eq_of_lt hs.spRange] at hne
    rw [State.slot_push_of_ne _ a (by rwa [hsp]), hslot k hk]

end Sys2Proof.Machine
end

section
/-! Rules over all instructions: how each changes pc, which write VF, which write each element of the state, and what no instruction
reads (10_state.md R21, R26, R47). -/

namespace Sys2Proof.Machine

/-! ### The program counter -/

theorem maskAddr_addrOfNNN_toNat (nnn : Addr12) : (maskAddr (addrOfNNN nnn)).toNat = nnn.toNat := by
  rw [maskAddr_toNat, addrOfNNN_toNat, Nat.mod_eq_of_lt nnn.isLt]

/-- A state whose pc is the advanced one has advanced. -/
theorem advancesBy_of_pc {s t : State} {k : Word} (h : t.pc = (s.adv k).pc) : AdvancesBy k.toNat s t := by
  rw [AdvancesBy, h]
  exact maskAddr_add_toNat s.pc k

/-- The skip rule: pc moves by 4 if the condition holds, by 2 if not (40_control_flow.md R100). -/
theorem advancesBy_of_skipIf {s t : State} {c : Bool} {p : Prop} (hp : p ↔ c = true) (h : t.pc = (s.skipIf c).pc) :
    (p → AdvancesBy 4 s t) ∧ (¬ p → AdvancesBy 2 s t) := by
  constructor
  · intro hc
    rw [hp.1 hc] at h
    exact advancesBy_of_pc h
  · intro hc
    rw [Bool.eq_false_iff.2 (mt hp.2 hc)] at h
    exact advancesBy_of_pc h

/-- Settles O57: an overflow leaves pc, and each other effect sets it as the table says. -/
theorem pcAfterEachInstruction : Obligations.PcAfterEachInstruction := by
  refine ⟨fun i s t hs h => ?_, fun s t r k rest hk hc h => ?_⟩
  · rcases exec_cases h with ⟨ho, rfl⟩ | ⟨ho, rfl⟩
    · exact ⟨fun _ => rfl, fun hn => absurd ho hn⟩
    · refine ⟨fun hn => absurd hn ho, fun _ => ?_⟩
      cases i
      case jp | call => exact maskAddr_addrOfNNN_toNat _
      case jpV0 =>
        refine (maskAddr_add_toNat _ _).trans ?_
        rw [addrOfNNN_toNat, wordOfByte_toNat]
      case ret => exact State.after_ret_pc_toNat hs
      case ldVxK => rfl
      case seXkk | seXy => exact advancesBy_of_skipIf beq_iff_eq.symm rfl
      case sneXkk | sneXy => exact advancesBy_of_skipIf bne_iff_ne.symm rfl
      case skp => exact advancesBy_of_skipIf Iff.rfl rfl
      case sknp => exact advancesBy_of_skipIf (by simp [Skips]) rfl
      case ldVxMem => exact advancesBy_of_pc (k := 2) (by simp [State.after])
      all_goals exact advancesBy_of_pc rfl
  · obtain rfl : (s.setCommands rest).hostKeyDown k.val = t := Host.Outcome.next.inj ((step_of_command hc).symm.trans h)
    rcases (s.setCommands rest).hostKeyDown_cases k.val with ⟨key, r', -, -, e⟩ | ⟨key, -, hn, -⟩ | ⟨hge, -⟩
    · exact advancesBy_of_pc (k := 2) (by simp [e])
    · exact absurd (hk.symm.trans hn) (Option.some_ne_none r)
    · exact absurd k.isLt (Nat.not_lt.2 hge)

/-! ### VF -/

/-- Settles O58: an instruction that does not list VF among the registers it writes keeps it. -/
theorem onlySixInstructionsWriteVFAsAFlag : Obligations.OnlySixInstructionsWriteVFAsAFlag := by
  intro i s t h hne
  have hm : vF ∈ writtenRegs i := by_contra fun hm => hne (exec_regs h vF hm)
  cases i
  case addXy | subXy | subnXy | shrXy | shlXy | drw => trivial
  case ldXkk | addXkk | ldXy | orXy | andXy | xorXy | rnd | ldVxDt => exact (List.mem_singleton.1 hm).symm
  case ldVxMem x =>
    have hle : vF ≤ x := by simpa [writtenRegs] using hm
    exact le_antisymm (Fin.le_last x) hle
  all_goals exact List.not_mem_nil hm

/-! ### The other elements -/

/-- A block transfer moves I only without quirk `loadStore` (44_memory_index.md R165, R166). -/
theorem quirkLoadStore_of_index_ne {s : State} {x : Reg} (h : indexAfterBlock s.quirkLoadStore s.index x ≠ s.index) :
    s.quirkLoadStore = false := by
  by_contra hq
  rw [Bool.not_eq_false] at hq
  exact h (by rw [hq]; rfl)

/-- Settles O59: an overflow writes none of the elements; of an effect, an element that changed is one the instruction lists, and
the two timers, the two block transfers and repaint are told apart by what they write. -/
theorem eachElementIsWrittenOnlyByItsInstructions : Obligations.EachElementIsWrittenOnlyByItsInstructions := by
  intro i s t h
  have hwrites : ∀ p, p ≠ .faultState → ¬ Part.Kept s t p → p ∈ writtenParts i := fun p hp hn =>
    List.mem_of_ne_of_mem hp ((exec_frame h).mem_of_not_kept hn)
  have hafter : ∀ p, p ≠ .faultState → ¬ Part.Kept s t p → t = s.after i := fun p hp hn =>
    (exec_cases h).elim (fun ⟨_, e⟩ => absurd (e ▸ s.overflowed_frame p (by simpa using hp)) hn) And.right
  refine ⟨fun hne => ?_, fun hne => ?_, fun hne => ?_, fun hne => ?_, fun hne => ?_, fun hne => ?_, fun hne => ?_,
    exec_keeps h (by decide), exec_keeps h (by decide), exec_keeps h (by decide)⟩
  · have hm := hwrites .index nofun hne
    obtain rfl := hafter .index nofun hne
    cases i
    case ldI | addIVx | ldFVx => trivial
    case ldMemVx x | ldVxMem x => exact quirkLoadStore_of_index_ne (x := x) (by simpa [State.after] using hne)
    all_goals simp [writtenParts] at hm
  · have hm := hwrites .stack nofun hne
    cases i
    case call | ret => trivial
    all_goals simp [writtenParts] at hm
  · have hm := hwrites .timers nofun fun hk => hne hk.1
    obtain rfl := hafter .timers nofun fun hk => hne hk.1
    cases i
    case ldDtVx x => exact ⟨x, rfl⟩
    case ldStVx => exact absurd rfl hne
    all_goals simp [writtenParts] at hm
  · have hm := hwrites .timers nofun fun hk => hne hk.2
    obtain rfl := hafter .timers nofun fun hk => hne hk.2
    cases i
    case ldStVx x => exact ⟨x, rfl⟩
    case ldDtVx => exact absurd rfl hne
    all_goals simp [writtenParts] at hm
  · have hm := hwrites .memory nofun hne
    cases i
    case ldBVx | ldMemVx => trivial
    all_goals simp [writtenParts] at hm
  · have hm := hwrites .repaint nofun hne
    obtain rfl := hafter .repaint nofun hne
    cases i
    case cls => exact ⟨rfl, .inl rfl⟩
    case drw x y n => exact ⟨rfl, .inr ⟨x, y, n, rfl⟩⟩
    all_goals simp [writtenParts] at hm
  · have hm := hwrites .keyWait nofun hne
    cases i
    case ldVxK x => exact ⟨x, rfl⟩
    all_goals simp [writtenParts] at hm

/-! ### What no instruction reads -/

/-- The state with all that no instruction reads set to one value: two states agree on what instructions read exactly when these
are equal (`sameProgramView_iff`). -/
def State.programView (s : State) : State :=
  { s with
    st := 0
    repaint := false
    kw := none
    paused := false
    runState := .stopped
    fault := none
    soundOn := false
    commands := []
    reply := .done
    requests := [] }

theorem sameProgramView_iff (s s' : State) : SameProgramView s s' ↔ s'.programView = s.programView := by
  simp only [SameProgramView, State.programView, State.mk.injEq]
  tauto

/-- An instruction's effect on what instructions read is that of the instruction run on what they read. -/
theorem State.programView_after (s : State) (i : Instr) : (s.programView.after i).programView = (s.after i).programView := by
  cases i <;> rfl

theorem overflows_programView (s : State) (i : Instr) : Overflows s.programView i ↔ Overflows s i := by
  rw [overflows_iff, overflows_iff]
  rfl

/-- Settles O60: both states overflow or neither does, and the effect is that of their common view. -/
theorem instructionsDoNotReadTheControlState : Obligations.InstructionsDoNotReadTheControlState := by
  intro i s s' t hv h
  have hview := (sameProgramView_iff s s').1 hv
  have ho : Overflows s' i ↔ Overflows s i := by rw [← overflows_programView s', hview, overflows_programView]
  rcases exec_cases h with ⟨hov, rfl⟩ | ⟨hno, rfl⟩
  · exact ⟨_, exec_of_overflows (ho.2 hov), hv⟩
  · refine ⟨_, exec_of_not_overflows (mt ho.1 hno), (sameProgramView_iff _ _).2 ?_⟩
    rw [← s'.programView_after, hview, s.programView_after]

end Sys2Proof.Machine
end

section
/-! Instruction fetch, and what it and a block load find where an instruction stored (20_memory.md R53, R62, R66). -/

namespace Sys2Proof.Machine

/-! ### The fetched word (R53) -/

@[simp] theorem State.fetchWord_hi (s : State) : s.fetchWord.extractLsb 15 8 = s.readByte s.pc.toNat := wordOfBytes_hi _ _

@[simp] theorem State.fetchWord_lo (s : State) : s.fetchWord.extractLsb 7 0 = s.readByte (s.pc.toNat + 1) := wordOfBytes_lo _ _

/-- Settles O9: the word is made of its two bytes, high byte first. -/
theorem fetchIsBigEndian : Obligations.FetchIsBigEndian := fun s => ⟨s.fetchWord_hi, s.fetchWord_lo⟩

/-! ### Memory after the two storing instructions (44_memory_index.md R164, R165) -/

section
variable {s : State} (h : s.Inv)
include h

/-- A byte inside a store is the one stored there. -/
theorem State.Inv.readByte_writeBytes_add (a : Nat) {bs : List Byte} {k : Nat} (hk : k < bs.length) :
    (s.writeBytes a bs).readByte (a + k) = bs.getD k 0 := by
  rw [State.readByte_writeBytes s a _ bs h.memCanonical.1, if_pos (by omega), Nat.add_sub_cancel_left]

theorem State.Inv.writeBytes_keeps_outside (a : Nat) (bs : List Byte) :
    MemoryKeptOutside a bs.length s (s.writeBytes a bs) := by
  intro k hk
  rw [State.readByte_writeBytes s a k bs h.memCanonical.1, if_neg (by omega)]

theorem State.Inv.readByte_after_ldMemVx {x j : Reg} (hj : j ≤ x) :
    (s.after (.ldMemVx x)).readByte (s.index.toNat + j.val) = s.reg j := by
  have hj : j.val ≤ x.val := hj
  have hlen : j.val < (s.regsUpTo x).length := by rw [s.regsUpTo_length x]; omega
  exact (h.readByte_writeBytes_add _ hlen).trans (s.regsUpTo_getD x hj j.isLt)

theorem State.Inv.after_ldMemVx_keeps_outside (x : Reg) :
    MemoryKeptOutside s.index.toNat (x.val + 1) s (s.after (.ldMemVx x)) := by
  rw [← s.regsUpTo_length x]
  exact h.writeBytes_keeps_outside _ _

theorem State.Inv.readByte_after_ldBVx (x : Reg) {j : Nat} (hj : j < 3) :
    ((s.after (.ldBVx x)).readByte (s.index.toNat + j)).toNat = decimalDigit (s.reg x).toNat j :=
  (congrArg BitVec.toNat (h.readByte_writeBytes_add _ hj)).trans (bcdDigits_getD _ hj)

theorem State.Inv.after_ldBVx_keeps_outside (x : Reg) : MemoryKeptOutside s.index.toNat 3 s (s.after (.ldBVx x)) :=
  h.writeBytes_keeps_outside _ (bcdDigits (s.reg x))

end

/-! ### The next fetch and the later load -/

/-- Settles O45: pc after either store is the advanced one, and each byte of the word fetched there lies inside the store or
outside it. -/
theorem storeIsSeenByTheNextFetch : Obligations.StoreIsSeenByTheNextFetch := by
  intro x s hs
  constructor
  · intro hr
    refine ⟨_, exec_of_not_overflows (Nat.not_lt.2 hr), maskAddr_add_toNat s.pc 2, ?_⟩
    simp only [State.fetchWord_hi, State.fetchWord_lo]
    exact ⟨fun j hj e => e ▸ hs.readByte_after_ldMemVx hj, fun j hj e => e ▸ hs.readByte_after_ldMemVx hj,
      fun ho => hs.after_ldMemVx_keeps_outside x _ ho, fun ho => hs.after_ldMemVx_keeps_outside x _ ho⟩
  · intro hr
    refine ⟨_, exec_of_not_overflows (Nat.not_lt.2 hr), maskAddr_add_toNat s.pc 2, ?_⟩
    simp only [State.fetchWord_hi, State.fetchWord_lo]
    exact ⟨fun j hj e => e ▸ hs.readByte_after_ldBVx x hj, fun j hj e => e ▸ hs.readByte_after_ldBVx x hj,
      fun ho => hs.after_ldBVx_keeps_outside x _ ho, fun ho => hs.after_ldBVx_keeps_outside x _ ho⟩

/-- A block load writes each register up to Vx with the byte at its place from I (44_memory_index.md R166). -/
theorem State.reg_after_ldVxMem (s : State) {x j : Reg} (hj : j ≤ x) :
    (s.after (.ldVxMem x)).reg j = s.readByte (s.index.toNat + j.val) := by
  have hlt : j.val < x.val + 1 := Nat.lt_succ_of_le hj
  simp only [State.after, State.reg_adv, State.reg_advanceIndex, State.reg_setRegsUpTo, if_pos hj, s.readBytes_getD _ hlt]

/-- Settles O44: the load reads, at the same I, the bytes the store wrote. -/
theorem blockLoadGivesBackWhatWasStored : Obligations.BlockLoadGivesBackWhatWasStored := by
  intro x s t u hs hr ht hi hu
  have hfits : ¬ Overflows s (.ldMemVx x) := Nat.not_lt.2 hr
  obtain rfl : t = s.after (.ldMemVx x) := Host.Outcome.next.inj (ht.symm.trans (exec_of_not_overflows hfits))
  have hload : ¬ Overflows u (.ldVxMem x) := by
    rw [Overflows, hi]
    exact hfits
  have hmem : ∀ a, u.readByte a = (s.after (.ldMemVx x)).readByte a := hu .memory (by simp)
  refine ⟨_, exec_of_not_overflows hload, fun j hj => ?_⟩
  rw [u.reg_after_ldVxMem hj, hi, hmem, hs.readByte_after_ldMemVx hj]

end Sys2Proof.Machine
end

section
/-! The fields of a word determine it (spec/30_encoding.md R71, R72), and decoding inverts encoding (R88, R76, R81). -/

namespace Sys2Proof

/-! ### A word from its fields -/

theorem wordNNN_of_fields {w : Word} {f : BitVec 4} (hf : (fieldFamily w).toNat = f.toNat) : wordNNN f (fieldNNN w) = w :=
  word_ext_fields ((fieldFamily_wordNNN _ _).trans (BitVec.eq_of_toNat_eq hf.symm)) (fieldNNN_wordNNN _ _)

theorem wordXKK_of_fields {w : Word} {f : BitVec 4} {kk : Byte} (hf : (fieldFamily w).toNat = f.toNat)
    (hk : (fieldKK w).toNat = kk.toNat) : wordXKK f (fieldX w) kk = w := by
  apply BitVec.eq_of_toNat_eq
  rw [wordXKK_toNat, ← hf, ← hk, fieldFamily_toNat, fieldX_val, fieldKK_toNat]; omega

theorem wordXYN_of_fields {w : Word} {f : BitVec 4} {n : Fin 16} (hf : (fieldFamily w).toNat = f.toNat)
    (hn : (fieldN w).val = n.val) : wordXYN f (fieldX w) (fieldY w) n = w := by
  apply BitVec.eq_of_toNat_eq
  rw [wordXYN_toNat, ← hf, ← hn, fieldFamily_toNat, fieldX_val, fieldY_val, fieldN_val]; omega

@[simp] theorem fieldKK_wordNNN (f : BitVec 4) (nnn : Addr12) : fieldKK (wordNNN f nnn) = nnn.setWidth 8 := by
  apply BitVec.eq_of_toNat_eq; rw [fieldKK_toNat, wordNNN_toNat, BitVec.toNat_setWidth]; omega

theorem setWidth_fieldNNN (w : Word) : (fieldNNN w).setWidth 8 = fieldKK w := by
  apply BitVec.eq_of_toNat_eq; rw [BitVec.toNat_setWidth, fieldNNN_toNat, fieldKK_toNat]; omega

theorem wordNNN_inj (f : BitVec 4) {a b : Addr12} : wordNNN f a = wordNNN f b ↔ a = b :=
  ⟨fun h => by simpa using congrArg fieldNNN h, fun h => h ▸ rfl⟩

/-! ### Decoding an encoding -/

theorem decodeDoc_encode {i : Instr} (h : i.wellFormed .doc = true) : decodeDoc (encode i) = some i := by
  cases i
  case sys nnn =>
    have hnnn : nnn.setWidth 8 ≠ 0xE0#8 ∧ nnn.setWidth 8 ≠ 0xEE#8 := by simpa [Instr.wellFormed, sysTaken] using h
    simp [encode, decodeDoc, hnnn]
  case cls | ret => rfl
  all_goals simp [encode, decodeDoc, decodeFamily8, decodeFamilyF, fieldN_wordXKK]

theorem decodeCanonical_encode {i : Instr} (h : i.wellFormed .canonical = true) : decodeCanonical (encode i) = some i := by
  cases i
  case sys nnn =>
    have hnnn : nnn ≠ 0x0E0#12 ∧ nnn ≠ 0x0EE#12 := by simpa [Instr.wellFormed, sysTaken] using h
    have hcls : wordNNN 0#4 nnn ≠ 0x00E0#16 := fun e => hnnn.1 ((wordNNN_inj 0).1 e)
    have hret : wordNNN 0#4 nnn ≠ 0x00EE#16 := fun e => hnnn.2 ((wordNNN_inj 0).1 e)
    simp [encode, decodeCanonical, hcls, hret]
  case cls | ret => rfl
  case seXy | sneXy | skp | sknp => simp [encode, decodeCanonical]
  -- in the other families the canonical decoder is the doc one
  all_goals exact (by simp [encode, decodeCanonical] : _ = decodeDoc _).trans (decodeDoc_encode rfl)

/-- Settles O1: per mode, by cases on the instruction; only SYS needs its well-formedness. -/
theorem decodingAnEncodedInstructionGivesItBack : Obligations.DecodingAnEncodedInstructionGivesItBack := by
  intro m i h
  cases m
  · exact decodeDoc_encode h
  · exact decodeCanonical_encode h

/-! ### The one spelling of a decoded instruction -/

theorem encode_of_decodeFamily8 {w : Word} {i : Instr} (hf : (fieldFamily w).toNat = 0x8) (h : decodeFamily8 w = some i) :
    encode i = w := by
  unfold decodeFamily8 at h
  split at h
  case h_10 => cases h
  all_goals
    obtain rfl := Option.some.inj h
    exact wordXYN_of_fields hf ‹_›

theorem encode_of_decodeFamilyF {w : Word} {i : Instr} (hf : (fieldFamily w).toNat = 0xF) (h : decodeFamilyF w = some i) :
    encode i = w := by
  unfold decodeFamilyF at h
  split at h
  case h_10 => cases h
  all_goals
    obtain rfl := Option.some.inj h
    exact wordXKK_of_fields hf ‹_›

/-- Outside the families where the two decoders differ, every field of a word is used (R76). -/
theorem encode_of_decodeDoc {w : Word} {i : Instr} (h : decodeDoc w = some i)
    (hf : (fieldFamily w).toNat ∉ [0x0, 0x5, 0x9, 0xE]) : encode i = w := by
  simp only [decodeDoc] at h
  split at h
  case h_1 hw | h_6 hw | h_10 hw | h_15 hw => simp [hw] at hf
  case h_2 hw | h_3 hw | h_11 hw | h_12 hw =>
    obtain rfl := Option.some.inj h
    exact wordNNN_of_fields hw
  case h_4 hw | h_5 hw | h_7 hw | h_8 hw | h_13 hw =>
    obtain rfl := Option.some.inj h
    exact wordXKK_of_fields hw rfl
  case h_9 hw => exact encode_of_decodeFamily8 hw h
  case h_14 hw =>
    obtain rfl := Option.some.inj h
    exact wordXYN_of_fields hw rfl
  case h_16 =>
    have hw : (fieldFamily w).toNat = 0xF := by have := (fieldFamily w).isLt; grind
    exact encode_of_decodeFamilyF hw h

theorem encode_of_decodeCanonical {w : Word} {i : Instr} (h : decodeCanonical w = some i) : encode i = w := by
  unfold decodeCanonical at h
  split at h
  case h_1 hf =>
    split at h
    · obtain rfl := Option.some.inj h
      exact (‹w = 0x00E0›).symm
    · split at h
      · obtain rfl := Option.some.inj h
        exact (‹w = 0x00EE›).symm
      · obtain rfl := Option.some.inj h
        exact wordNNN_of_fields hf
  case h_2 hf | h_3 hf =>
    obtain ⟨hn, hi⟩ := Option.ite_none_right_eq_some.1 h
    obtain rfl := Option.some.inj hi
    exact wordXYN_of_fields hf (congrArg Fin.val hn)
  case h_4 hf =>
    split at h
    · obtain rfl := Option.some.inj h
      exact wordXKK_of_fields hf (congrArg BitVec.toNat ‹_›)
    · obtain ⟨hk, hi⟩ := Option.ite_none_right_eq_some.1 h
      obtain rfl := Option.some.inj hi
      exact wordXKK_of_fields hf (congrArg BitVec.toNat hk)
  case h_5 h0 h5 h9 hE => exact encode_of_decodeDoc h (by simpa using ⟨h0, h5, h9, hE⟩)

/-! ### Decoded instructions are well-formed -/

theorem fieldFamily_of_decodeDoc_sys {w : Word} {nnn : Addr12} (h : decodeDoc w = some (.sys nnn)) :
    (fieldFamily w).toNat = 0 := by
  by_cases hf : (fieldFamily w).toNat ∈ [0x5, 0x9, 0xE]
  · simp only [List.mem_cons, List.not_mem_nil, or_false] at hf
    rcases hf with hf | hf | hf <;> simp only [decodeDoc, hf] at h
    · cases h
    · cases h
    · split at h <;> cases h
  · by_contra h0
    rw [← encode_of_decodeDoc h (List.not_mem_cons_of_ne_of_not_mem h0 hf)] at h0
    simp [encode] at h0

theorem wellFormed_of_decodeDoc {w : Word} {i : Instr} (h : decodeDoc w = some i) : i.wellFormed .doc = true := by
  cases i
  case sys nnn =>
    simp only [decodeDoc, fieldFamily_of_decodeDoc_sys h] at h
    split at h
    · cases h
    · split at h
      · cases h
      · obtain rfl := Instr.sys.inj (Option.some.inj h)
        simp_all [Instr.wellFormed, sysTaken, setWidth_fieldNNN]
  all_goals rfl

/-- A SYS that canonical mode refuses is spelled like CLS or RET and decodes to that. -/
theorem wellFormed_of_decodeCanonical {w : Word} {i : Instr} (h : decodeCanonical w = some i) :
    i.wellFormed .canonical = true := by
  cases i
  case sys nnn =>
    obtain rfl := encode_of_decodeCanonical h
    by_contra hwf
    have hnnn : nnn = 0x0E0#12 ∨ nnn = 0x0EE#12 := by simpa [Instr.wellFormed, sysTaken, or_iff_not_imp_left] using hwf
    rcases hnnn with rfl | rfl
    · exact absurd h (by decide)
    · exact absurd h (by decide)
  all_goals rfl

/-- Settles O2: in canonical mode every bit of a word that decodes is an operand or fixed by the instruction. -/
theorem canonicalWordIsTheSpellingOfItsInstruction : Obligations.CanonicalWordIsTheSpellingOfItsInstruction :=
  fun _ _ h => ⟨encode_of_decodeCanonical h, wellFormed_of_decodeCanonical h⟩

/-- Settles O3: only SYS has a check, and family 0 comes to SYS after CLS and RET. -/
theorem decodedInstructionsAreWellFormed : Obligations.DecodedInstructionsAreWellFormed := by
  intro m w i h
  cases m
  · exact wellFormed_of_decodeDoc h
  · exact wellFormed_of_decodeCanonical h

end Sys2Proof
end

section
/-! What each decoder answers: its INVALID words, where the two differ, and the opcode table's index of a word
(spec/30_encoding.md R80, R82; 90_conflicts.md C10). -/

namespace Sys2Proof

/-! ### Fields as numbers, as the decoders compare them -/

theorem fieldFamily_eq_iff (w : Word) (f : BitVec 4) : fieldFamily w = f ↔ (fieldFamily w).toNat = f.toNat :=
  BitVec.toNat_inj.symm

theorem fieldKK_eq_iff (w : Word) (kk : Byte) : fieldKK w = kk ↔ (fieldKK w).toNat = kk.toNat :=
  BitVec.toNat_inj.symm

theorem fieldN_val_eq_fieldKK_mod (w : Word) : (fieldN w).val = (fieldKK w).toNat % 16 := by
  rw [fieldN_val, fieldKK_toNat]; omega

theorem word_eq_iff_fields (w p : Word) : w = p ↔ (fieldFamily w).toNat = p.toNat / 0x1000 ∧
    (fieldX w).val = p.toNat / 0x100 % 16 ∧ (fieldKK w).toNat = p.toNat % 0x100 := by
  rw [← BitVec.toNat_inj, fieldFamily_toNat, fieldX_val, fieldKK_toNat]; omega

/-! ### INVALID words (R82) -/

theorem decodeFamily8_eq_none_iff (w : Word) :
    decodeFamily8 w = none ↔ (fieldN w).val ∉ [0x0, 0x1, 0x2, 0x3, 0x4, 0x5, 0x6, 0x7, 0xE] := by
  unfold decodeFamily8
  split <;> simp_all

theorem decodeFamilyF_eq_none_iff (w : Word) :
    decodeFamilyF w = none ↔ (fieldKK w).toNat ∉ [0x07, 0x0A, 0x15, 0x18, 0x1E, 0x29, 0x33, 0x55, 0x65] := by
  unfold decodeFamilyF
  split <;> simp_all

theorem decodeDoc_eq_none_iff (w : Word) : decodeDoc w = none ↔
    (fieldFamily w = 0x8 ∧ (fieldN w).val ∉ [0x0, 0x1, 0x2, 0x3, 0x4, 0x5, 0x6, 0x7, 0xE]) ∨
    (fieldFamily w = 0xE ∧ (fieldN w).val ∉ [0xE, 0x1]) ∨
    (fieldFamily w = 0xF ∧ (fieldKK w).toNat ∉ [0x07, 0x0A, 0x15, 0x18, 0x1E, 0x29, 0x33, 0x55, 0x65]) := by
  rw [← decodeFamily8_eq_none_iff, ← decodeFamilyF_eq_none_iff]
  simp only [fieldFamily_eq_iff]
  simp only [decodeDoc]
  split
  case h_1 hf => split_ifs <;> simp [hf]
  case h_15 hf => split <;> simp_all
  case h_16 =>
    have hf : (fieldFamily w).toNat = 0xF := by have := (fieldFamily w).isLt; grind
    simp [hf]
  all_goals simp_all

theorem decodeCanonical_eq_none_iff (w : Word) : decodeCanonical w = none ↔
    (fieldFamily w = 0x8 ∧ (fieldN w).val ∉ [0x0, 0x1, 0x2, 0x3, 0x4, 0x5, 0x6, 0x7, 0xE]) ∨
    ((fieldFamily w = 0x5 ∨ fieldFamily w = 0x9) ∧ (fieldN w).val ≠ 0) ∨
    (fieldFamily w = 0xE ∧ (fieldKK w).toNat ∉ [0x9E, 0xA1]) ∨
    (fieldFamily w = 0xF ∧ (fieldKK w).toNat ∉ [0x07, 0x0A, 0x15, 0x18, 0x1E, 0x29, 0x33, 0x55, 0x65]) := by
  unfold decodeCanonical
  split
  case h_1 hf => split_ifs <;> simp [fieldFamily_eq_iff, hf]
  case h_2 hf | h_3 hf => simp [fieldFamily_eq_iff, hf]
  case h_4 hf => simp only [fieldFamily_eq_iff, fieldKK_eq_iff, hf]; split_ifs <;> simp_all
  case h_5 h5 h9 hE =>
    simp only [decodeDoc_eq_none_iff, fieldFamily_eq_iff, BitVec.ofNat_eq_ofNat, BitVec.reduceToNat]
    tauto

/-- Settles O5: family by family; outside 0, 5, 9 and E the canonical decoder is the doc one. -/
theorem invalidWordsOfEachMode : Obligations.InvalidWordsOfEachMode := fun w =>
  ⟨decodeDoc_eq_none_iff w, decodeCanonical_eq_none_iff w⟩

/-! ### Where the two decoders differ (conflict C10) -/

/-- Settles O6: by the four families the canonical decoder reads for itself; in family E the bytes 9E and A1 it asks for end in
the nibbles E and 1 of mode doc. -/
theorem modesDisagreeExactlyOnTheWordsOfConflictC10 : Obligations.ModesDisagreeExactlyOnTheWordsOfConflictC10 := by
  intro w
  simp only [decodeWord, decodeCanonical, fieldFamily_eq_iff]
  split
  case h_1 hf =>
    simp only [decodeDoc, word_eq_iff_fields w, fieldKK_eq_iff, hf]
    by_cases hcls : (fieldKK w).toNat = 0xE0
    · simp [hcls]
    · by_cases hret : (fieldKK w).toNat = 0xEE
      · simp [hret]
      · simp [hcls, hret]
  case h_2 hf | h_3 hf => simp [decodeDoc, hf]
  case h_4 hf =>
    have hn := fieldN_val_eq_fieldKK_mod w
    simp only [decodeDoc, fieldKK_eq_iff, hf]
    by_cases hskp : (fieldKK w).toNat = 0x9E
    · simp [hn, hskp]
    · by_cases hsknp : (fieldKK w).toNat = 0xA1
      · simp [hn, hsknp]
      · split <;> simp_all
  case h_5 h0 h5 h9 hE =>
    simp only [BitVec.ofNat_eq_ofNat, BitVec.reduceToNat, ne_eq, not_true_eq_false]
    tauto

/-! ### The dispatch index -/

theorem Instr.dispatchIndex_le (i : Instr) : i.dispatchIndex.toNat ≤ 34 := by
  cases i <;> simp [Instr.dispatchIndex]

theorem dispatchIndexOf_eq (m : DecodeMode) (w : Word) :
    dispatchIndexOf m w = (decodeWord m w).elim 63 Instr.dispatchIndex := by
  unfold dispatchIndexOf; cases decodeWord m w <;> rfl

/-- Settles O7: an instruction's index is at most 34, and an INVALID word has none. -/
theorem dispatchIndexNamesAnInstructionOrInvalid : Obligations.DispatchIndexNamesAnInstructionOrInvalid := by
  intro m w
  rw [dispatchIndexOf_eq]
  cases decodeWord m w with
  | none => exact .inr ⟨rfl, rfl⟩
  | some i => exact .inl ⟨i.dispatchIndex_le, Option.some_ne_none i⟩

end Sys2Proof
end

section
/-! The opcode table read as the decoders read a word: by family, then by function nibble or byte (spec/30_encoding.md R80;
opcode_table.json). -/

namespace Sys2Proof

/-! ### Patterns under each of the table's masks -/

@[simp] theorem and_F000_eq_iff (w p : Word) :
    w &&& 0xF000#16 = p ↔ (fieldFamily w).toNat = p.toNat / 0x1000 ∧ p.toNat % 0x1000 = 0 := by
  rw [← BitVec.toNat_inj, word_and_toNat w (k := 0) (.inl rfl), fieldFamily_toNat]; omega

@[simp] theorem and_F00F_eq_iff (w p : Word) :
    w &&& 0xF00F#16 = p ↔ (fieldFamily w).toNat = p.toNat / 0x1000 ∧ (fieldN w).val = p.toNat % 0x1000 := by
  rw [← BitVec.toNat_inj, word_and_toNat w (k := 4) (.inr (.inl rfl)), fieldFamily_toNat, fieldN_val]; omega

@[simp] theorem and_F0FF_eq_iff (w p : Word) :
    w &&& 0xF0FF#16 = p ↔ (fieldFamily w).toNat = p.toNat / 0x1000 ∧ (fieldKK w).toNat = p.toNat % 0x1000 := by
  rw [← BitVec.toNat_inj, word_and_toNat w (k := 8) (.inr (.inr rfl)), fieldFamily_toNat, fieldKK_toNat]; omega

@[simp] theorem and_FFFF_eq_iff (w p : Word) :
    w &&& 0xFFFF#16 = p ↔ (fieldFamily w).toNat = p.toNat / 0x1000 ∧ w = p := by
  rw [show w &&& 0xFFFF#16 = w from BitVec.and_allOnes, ← fieldFamily_toNat]
  exact ⟨fun h => ⟨h ▸ rfl, h⟩, And.right⟩

/-! ### The first row that covers a word -/

@[simp] theorem OpcodeRow.covers_same (m : DecodeMode) (idx : BitVec 6) (pat mask w : Word) :
    (OpcodeRow.same idx pat mask).covers m w = (w &&& mask == pat) := by cases m <;> rfl

@[simp] theorem OpcodeRow.covers_doc (r : OpcodeRow) (w : Word) : r.covers .doc w = (w &&& r.maskDoc == r.matchDoc) := rfl

@[simp] theorem OpcodeRow.covers_canonical (r : OpcodeRow) (w : Word) :
    r.covers .canonical w = (w &&& r.maskCanonical == r.matchCanonical) := rfl

@[simp] theorem OpcodeRow.same_idx (idx : BitVec 6) (pat mask : Word) : (OpcodeRow.same idx pat mask).idx = idx := rfl

/-- The index of the first of some rows that covers a word, 63 if none does. -/
def firstIndex (m : DecodeMode) (w : Word) : List OpcodeRow → BitVec 6
  | [] => 63
  | r :: rows => if r.covers m w then r.idx else firstIndex m w rows

theorem tableIndexOf_eq (m : DecodeMode) (w : Word) : tableIndexOf m w = firstIndex m w opcodeTable := by
  unfold tableIndexOf
  generalize opcodeTable = rows
  induction rows with
  | nil => rfl
  | cons r rows ih =>
    by_cases hr : r.covers m w = true
    · simp only [List.find?_cons, firstIndex, hr, if_true]
    · simpa [List.find?_cons, firstIndex, hr] using ih

/-! ### The decoders' index and the table's -/

theorem dispatchIndexOf_doc (w : Word) : dispatchIndexOf .doc w = tableIndexOf .doc w := by
  rw [dispatchIndexOf_eq, decodeWord, decodeDoc]
  split
  all_goals
    simp only [tableIndexOf_eq, opcodeTable, opcodeRowsA, opcodeRowsB, opcodeRowsC, List.cons_append, List.nil_append,
      firstIndex]
  case h_1 hf =>
    simp only [fieldKK_eq_iff]
    by_cases hcls : (fieldKK w).toNat = 0xE0
    · simp [hf, hcls, Instr.dispatchIndex]
    · by_cases hret : (fieldKK w).toNat = 0xEE
      · simp [hf, hret, Instr.dispatchIndex]
      · simp [hf, hcls, hret, Instr.dispatchIndex]
  case h_9 hf =>
    unfold decodeFamily8
    split <;> simp_all [Instr.dispatchIndex, -Fin.val_eq_zero_iff]
  case h_15 hf => split <;> simp_all [Instr.dispatchIndex]
  case h_16 =>
    have hf : (fieldFamily w).toNat = 0xF := by have := (fieldFamily w).isLt; grind
    unfold decodeFamilyF
    split <;> simp_all [Instr.dispatchIndex]
  all_goals
    rename_i hf
    simp [hf, Instr.dispatchIndex]

/-- Only rows of the families 0, 5, 9 and E have a pattern for each mode. -/
theorem tableIndexOf_canonical_eq_doc {w : Word} (h0 : (fieldFamily w).toNat ≠ 0x0) (h5 : (fieldFamily w).toNat ≠ 0x5)
    (h9 : (fieldFamily w).toNat ≠ 0x9) (hE : (fieldFamily w).toNat ≠ 0xE) :
    tableIndexOf .canonical w = tableIndexOf .doc w := by
  simp [tableIndexOf_eq, opcodeTable, opcodeRowsA, opcodeRowsB, opcodeRowsC, firstIndex, h0, h5, h9, hE]

theorem dispatchIndexOf_canonical (w : Word) : dispatchIndexOf .canonical w = tableIndexOf .canonical w := by
  rw [dispatchIndexOf_eq, decodeWord, decodeCanonical]
  split
  case h_5 h0 h5 h9 hE =>
    rw [tableIndexOf_canonical_eq_doc h0 h5 h9 hE, ← dispatchIndexOf_doc, dispatchIndexOf_eq, decodeWord]
  all_goals
    simp only [tableIndexOf_eq, opcodeTable, opcodeRowsA, opcodeRowsB, opcodeRowsC, List.cons_append, List.nil_append,
      firstIndex]
  case h_1 hf =>
    by_cases hcls : w = 0x00E0#16
    · subst hcls; rfl
    · by_cases hret : w = 0x00EE#16
      · subst hret; rfl
      · simp [hf, hcls, hret, Instr.dispatchIndex]
  case h_2 hf | h_3 hf =>
    by_cases hn : fieldN w = 0
    · simp [hf, hn, Instr.dispatchIndex]
    · simp [hf, hn]
  case h_4 hf =>
    simp only [fieldKK_eq_iff]
    by_cases hskp : (fieldKK w).toNat = 0x9E
    · simp [hf, hskp, Instr.dispatchIndex]
    · by_cases hsknp : (fieldKK w).toNat = 0xA1
      · simp [hf, hsknp, Instr.dispatchIndex]
      · simp [hf, hskp, hsknp]

/-- Settles O4: within a family both sides compare the same function nibble or byte. -/
theorem decodersAgreeWithTheOpcodeTable : Obligations.DecodersAgreeWithTheOpcodeTable := by
  intro m w
  cases m
  · exact dispatchIndexOf_doc w
  · exact dispatchIndexOf_canonical w

end Sys2Proof
end

section
/-! Words the spec writes out, the step as the decoded instruction, and a placed word (spec/30_encoding.md R88, R90, R91). -/

namespace Sys2Proof.Machine

/-- Settles O8: each word is evaluated. -/
theorem wordsTheSpecWritesOutDecode : Obligations.WordsTheSpecWritesOutDecode := by
  refine ⟨?_, ?_, ?_, ?_, ?_, ?_, ?_, ?_⟩ <;> rfl

/-- Settles O10: the cycle of a ready state, which the step is with no command queued and with a queued `step()`; the report of
the cycle is by whether it left a fault. -/
theorem stepRunsTheDecodedInstruction : Obligations.StepRunsTheDecodedInstruction := by
  intro s i
  constructor
  · intro t hq hr he
    rw [step_of_no_command hq, cycle_of_ready hr he, State.reportCycle]
    cases t.fault <;> rfl
  · intro rest t hq hr he
    rw [step_of_command hq, obey, cycle_of_ready hr he, State.reportCycle]
    cases t.fault <;> rfl

theorem State.fetchAddr_le (s : State) : s.fetchAddr.toNat ≤ 0xFFE := by
  unfold State.fetchAddr
  split
  · decide
  · omega

/-- The cycle fetches a placed word: its two bytes stand at the fetch address. -/
theorem State.Inv.fetchWord_placeWord {s : State} (h : s.Inv) (w : Word) : (s.placeWord w).fetchWord = w := by
  have hhi := h.readByte_writeBytes_add s.fetchAddr.toNat (bs := bytesOfWord w) (k := 0) (Nat.succ_pos 1)
  have hlo := h.readByte_writeBytes_add s.fetchAddr.toNat (bs := bytesOfWord w) (k := 1) (Nat.lt_succ_self 1)
  calc (s.placeWord w).fetchWord = wordOfBytes ((bytesOfWord w).getD 0 0) ((bytesOfWord w).getD 1 0) :=
        congrArg₂ wordOfBytes hhi hlo
    _ = w := wordOfBytes_of_word w

/-- Settles O11: the placed word is fetched, and placing clears what would hold the cycle back. -/
theorem placedWordIsTheNextInstruction : Obligations.PlacedWordIsTheNextInstruction := by
  intro s w i hs hw hd
  rw [State.withFetchWord, Nat.mod_eq_of_lt (b := 2 ^ 16) hw]
  refine ⟨⟨rfl, rfl, s.fetchAddr_le, ?_⟩, rfl, rfl, rfl⟩
  rw [hs.fetchWord_placeWord]
  exact hd

end Sys2Proof.Machine
end

section
/-! Control flow (40_control_flow.md): SYS, the jumps, the six skips, CALL and RET, and calls nested up to STACK_CAP deep. -/

namespace Sys2Proof.Machine

/-! ### SYS and the jumps (R102 to R104) -/

/-- Settles O23: the effect is an advance by 2, and the instruction writes no part. -/
theorem sysOnlyAdvances : Obligations.SysOnlyAdvances := fun nnn s =>
  ⟨_, exec_of_not_overflows id, advancesBy_of_pc (k := 2) rfl, s.after_frame (.sys nnn)⟩

/-- JP V0,nnn goes to the sum modulo 4096 (R104). -/
theorem State.after_jpV0_pc_toNat (s : State) (nnn : Addr12) :
    (s.after (.jpV0 nnn)).pc.toNat = (nnn.toNat + (s.reg 0).toNat) % 0x1000 := by
  refine (maskAddr_add_toNat _ _).trans ?_
  rw [addrOfNNN_toNat, wordOfByte_toNat]

/-- Settles O24: each jump sets pc to its masked target, and writes no part. -/
theorem jumpsSetOnlyThePc : Obligations.JumpsSetOnlyThePc := fun nnn s =>
  ⟨⟨_, exec_of_not_overflows id, maskAddr_addrOfNNN_toNat nnn, s.after_frame (.jp nnn)⟩,
    ⟨_, exec_of_not_overflows id, s.after_jpV0_pc_toNat nnn, s.after_frame (.jpV0 nnn)⟩⟩

/-! ### The skips (R100) -/

/-- pc cannot have moved by 2 and by 4 at once. -/
theorem not_advancesBy_four_of_two {s t : State} (h : AdvancesBy 2 s t) : ¬ AdvancesBy 4 s t := by
  unfold AdvancesBy at *
  omega

section
variable {i : Instr} (h : isSkip i = true) (s : State)
include h

/-- No skip accesses memory from I, so none overflows (60_exceptions.md R202). -/
theorem exec_of_isSkip : exec i s = .next (s.after i) := by
  cases i
  case seXkk | sneXkk | seXy | sneXy | skp | sknp => rfl
  all_goals exact absurd h Bool.false_ne_true

/-- Each of the six skips by its own condition. -/
theorem advancesBy_of_isSkip :
    (Skips s i → AdvancesBy 4 s (s.after i)) ∧ (¬ Skips s i → AdvancesBy 2 s (s.after i)) := by
  cases i
  case seXkk | seXy => exact advancesBy_of_skipIf beq_iff_eq.symm rfl
  case sneXkk | sneXy => exact advancesBy_of_skipIf bne_iff_ne.symm rfl
  case skp => exact advancesBy_of_skipIf Iff.rfl rfl
  case sknp => exact advancesBy_of_skipIf (by simp [Skips]) rfl
  all_goals exact absurd h Bool.false_ne_true

theorem advancesBy_four_iff_skips : AdvancesBy 4 s (s.after i) ↔ Skips s i := by
  obtain ⟨hskip, hpass⟩ := advancesBy_of_isSkip h s
  exact ⟨fun h4 => by_contra fun hn => not_advancesBy_four_of_two (hpass hn) h4, hskip⟩

theorem advancesBy_two_iff_not_skips : AdvancesBy 2 s (s.after i) ↔ ¬ Skips s i := by
  obtain ⟨hskip, hpass⟩ := advancesBy_of_isSkip h s
  exact ⟨fun h2 hc => not_advancesBy_four_of_two h2 (hskip hc), hpass⟩

/-- No skip reads memory, the skipped word included. -/
theorem State.after_isSkip_of_mem (m : List Host.Cell) :
    ({ s with mem := m } : State).after i = { s.after i with mem := m } := by
  cases i
  case seXkk | sneXkk | seXy | sneXy | skp | sknp => rfl
  all_goals exact absurd h Bool.false_ne_true

end

/-- Settles O29: the effect skips by the condition, and it commutes with a change of memory. -/
theorem skipAdvancesByFourOrTwo : Obligations.SkipAdvancesByFourOrTwo := by
  intro i s h
  have hkept : Part.Kept s (s.after i) .faultState :=
    s.after_frame i .faultState fun hm => absurd (writtenParts_subset i hm) (by decide)
  refine ⟨_, exec_of_isSkip h s, hkept.1, (advancesBy_four_iff_skips h s).2, (advancesBy_two_iff_not_skips h s).2, fun m => ?_⟩
  rw [exec_of_isSkip h, State.after_isSkip_of_mem h]

/-- The compare skips are skips that write no part. -/
theorem isSkip_of_compare {x y : Reg} {kk : Byte} {i : Instr}
    (hi : i ∈ [Instr.seXkk x kk, .sneXkk x kk, .seXy x y, .sneXy x y]) : isSkip i = true ∧ writtenParts i = [] := by
  simp only [List.mem_cons, List.not_mem_nil, or_false] at hi
  rcases hi with rfl | rfl | rfl | rfl <;> exact ⟨rfl, rfl⟩

/-- Settles O30: a compare skip is a skip and writes no part. -/
theorem compareSkipsChangeOnlyThePc : Obligations.CompareSkipsChangeOnlyThePc := by
  intro x y kk s i hi
  obtain ⟨hskip, hparts⟩ := isSkip_of_compare hi
  exact ⟨_, exec_of_isSkip hskip s, advancesBy_four_iff_skips hskip s, advancesBy_two_iff_not_skips hskip s,
    hparts ▸ s.after_frame i⟩

/-! ### CALL and RET (R105 to R107) -/

/-- Settles O25: CALL is a push of pc and a jump. -/
theorem callPushesTheCallSite : Obligations.CallPushesTheCallSite := by
  intro nnn s hs
  have hslot : s.sp < s.stack.length := hs.stackLength ▸ hs.spRange
  exact ⟨_, exec_of_not_overflows id, maskAddr_addrOfNNN_toNat nnn, State.slot_push_self s.pc hslot,
    fun _ hj => s.slot_push_of_ne s.pc hj, State.spUp_eq hs.configLegal.1, List.length_set, s.after_frame (.call nnn)⟩

/-- Settles O26: RET moves sp back around the ring and jumps past the slot there. -/
theorem returnGoesPastTheCallSite : Obligations.ReturnGoesPastTheCallSite := by
  intro s hs
  exact ⟨_, exec_of_not_overflows id, State.spDown_eq hs.configLegal.1, maskAddr_add_toNat _ 2, rfl, s.after_frame .ret⟩

/-! ### Nested calls (R110) -/

theorem execAll_cons {i : Instr} {s t : State} (h : exec i s = .next t) (is : List Instr) :
    execAll (i :: is) s = execAll is t := by
  simp only [execAll, h]

theorem execAll_append {is : List Instr} {s t : State} (h : execAll is s = .next t) (js : List Instr) :
    execAll (is ++ js) s = execAll js t := by
  induction is generalizing s with
  | nil => exact congrArg (execAll js) (Host.Outcome.next.inj h)
  | cons i is ih =>
    rw [execAll_cons (exec_eq i s)] at h
    rw [List.cons_append, execAll_cons (exec_eq i s), ih h]

/-- A run of calls pushes one call site for each, and ends at the last target. -/
theorem execAll_calls (targets : List Addr12) (s : State) (a : Word) : ∃ sites b, sites.length = targets.length ∧
    execAll (targets.map .call) (s.setPc a) = .next ((s.pushAll sites).setPc b) := by
  induction targets generalizing s a with
  | nil => exact ⟨[], a, rfl, rfl⟩
  | cons target targets ih =>
    obtain ⟨sites, b, hl, h⟩ := ih (s.push (maskAddr a)) (addrOfNNN target)
    exact ⟨maskAddr a :: sites, b, congrArg Nat.succ hl, h⟩

/-- A run of returns pops one slot for each, and ends past the address in the last. -/
theorem execAll_returns (n : Nat) (s : State) (a : Word) : execAll (List.replicate (n + 1) .ret) (s.setPc a) =
    .next ((State.pop^[n + 1] s).setPc ((State.pop^[n + 1] s).slot (State.pop^[n + 1] s).sp + 2)) := by
  induction n generalizing s a with
  | zero => rfl
  | succ n ih => exact ih s.pop _

/-- As many pops as pushes give sp back; the slots keep what was pushed (10_state.md R31, R32). -/
theorem State.pop_iterate_pushAll {s : State} (hc : isPowerOfTwo s.config.stackCap = true) (hsp : s.sp < s.config.stackCap)
    (as : List Word) : State.pop^[as.length] (s.pushAll as) = { s with stack := (s.pushAll as).stack } := by
  induction as generalizing s with
  | nil => rfl
  | cons a as ih =>
    have hpops : State.pop^[as.length] ((s.push a).pushAll as) = { s.push a with stack := ((s.push a).pushAll as).stack } :=
      ih hc (State.spUp_lt hc)
    rw [List.length_cons, Function.iterate_succ_apply', State.pushAll, List.foldl_cons, hpops, State.pop]
    congr 1
    exact State.spDown_push a hc hsp

theorem KeptExcept.of_stack (s : State) (as : List Word) : KeptExcept [.stack] s { s with stack := as } :=
  fun p hp => by cases p <;> simp_all [Part.Kept, State.reg, State.readByte]

/-- Settles O27: the calls push their sites, the first of them in the slot sp named; as many returns bring sp back there. -/
theorem nestedCallsReturnBehindTheFirst : Obligations.NestedCallsReturnBehindTheFirst := by
  intro s targets hs hne hl
  obtain ⟨target, targets, rfl⟩ := List.exists_cons_of_ne_nil hne
  obtain ⟨sites, b, hlen, hcalls⟩ := execAll_calls targets (s.push s.pc) (addrOfNNN target)
  have hpops : State.pop^[sites.length + 1] ((s.push s.pc).pushAll sites) =
      { s with stack := (s.pushAll (s.pc :: sites)).stack } :=
    State.pop_iterate_pushAll hs.configLegal.1 hs.spRange (s.pc :: sites)
  have hfirst : (s.pushAll (s.pc :: sites)).stack.getD s.sp 0 = s.pc := by
    have h := State.slot_pushAll hs (as := s.pc :: sites) (by simpa [hlen] using hl) (Nat.succ_pos _)
    rwa [Nat.add_zero, Nat.mod_eq_of_lt hs.spRange] at h
  have hrun : execAll ((target :: targets).map .call ++ List.replicate (target :: targets).length .ret) s =
      .next (({ s with stack := (s.pushAll (s.pc :: sites)).stack } : State).setPc (s.pc + 2)) := by
    rw [execAll_append (s := s) hcalls, List.length_cons, ← hlen, execAll_returns, hpops, State.slot, hfirst]
  exact ⟨_, hrun, maskAddr_add_toNat s.pc 2, rfl, (KeptExcept.of_stack s _).setPc _⟩

end Sys2Proof.Machine
end

section
/-! Display (41_display.md): CLS, and the toggles, the flag and the frame of DRW. -/

namespace Sys2Proof.Machine

/-- Settles O32: the effect is one request, the repaint mark and an advance by 2. -/
theorem clearRequestsTheScreenOnce : Obligations.ClearRequestsTheScreenOnce := fun s =>
  ⟨_, exec_of_not_overflows id, rfl, rfl, advancesBy_of_pc (k := 2) rfl, s.after_frame .cls⟩

/-- DRW toggles the pixels of the set bits of the `n` bytes from I (R121, R122). -/
theorem State.mem_drawPixels (s : State) (x y : Reg) (n px py : Nat) :
    (px, py) ∈ s.drawPixels x y n ↔
      ∃ r c, r < n ∧ c < 8 ∧ (s.readByte (s.index.toNat + r)).getLsbD (7 - c) = true ∧
        px = (s.reg x).toNat + c ∧ py = (s.reg y).toNat + r := by
  rw [State.drawPixels, mem_spritePixels, State.readBytes_length]
  refine exists_congr fun r => exists_congr fun c => and_congr_right fun hr => ?_
  rw [s.readBytes_getD _ hr]

theorem State.anyCollision_eq_true_iff (s : State) (count : Nat) :
    s.anyCollision count = true ↔ ∃ k, k < count ∧ s.collisionAnswer k = true := by
  simp [State.anyCollision]

theorem State.anyCollision_eq_false_iff (s : State) (count : Nat) :
    s.anyCollision count = false ↔ ∀ k, k < count → s.collisionAnswer k = false := by
  simp [State.anyCollision]

/-- DRW leaves in VF the OR of the answers to its toggles, whatever x and y are (R121, R123). -/
theorem State.draw_reg_vF {s : State} {x y : Reg} {n : Nat} {c : Bool}
    (h : s.anyCollision (s.drawPixels x y n).length = c) : (s.draw x y n).reg vF = flagByte c :=
  (State.reg_setReg_self _ vF _).trans (congrArg flagByte h)

/-- Settles O33: the sprite fits, so the effect is the draw; its pixels are those of the set bits, in order, and VF is the OR of
the answers. -/
theorem drawTogglesEachSetBitOnce : Obligations.DrawTogglesEachSetBitOnce := by
  intro x y n s hfit
  have hno : ¬ Overflows s (.drw x y n) := by
    rintro ⟨hpos, hover⟩
    omega
  exact ⟨_, s.drawPixels x y n, exec_of_not_overflows hno, rfl, s.mem_drawPixels x y n, spritePixels_ordered _ _ _,
    fun _ _ => State.collisionAnswer_of_queued, fun h => State.draw_reg_vF ((s.anyCollision_eq_true_iff _).2 h),
    fun h => State.draw_reg_vF ((s.anyCollision_eq_false_iff _).2 h), rfl, rfl, rfl, rfl, rfl, advancesBy_of_pc (k := 2) rfl,
    s.after_regs (.drw x y n), s.after_frame (.drw x y n)⟩

end Sys2Proof.Machine
end

section
/-! Register-register arithmetic and logic (42_alu.md): the copy and the bitwise operations, which write no flag, and the addition,
the subtractions and the shifts, which write theirs to VF after the result. -/

namespace Sys2Proof.Machine

/-! ### Frames of a register result -/

/-- A result written to Vx, and no flag. -/
theorem State.setReg_adv_frame (s : State) (x : Reg) (b : Byte) :
    AdvancesBy 2 s ((s.setReg x b).adv 2) ∧ RegsKeptExcept [x] s ((s.setReg x b).adv 2) ∧
      KeptExcept [.regs] s ((s.setReg x b).adv 2) :=
  ⟨advancesBy_of_pc (k := 2) rfl, fun _ hj => s.reg_setReg_of_ne b (mt List.mem_singleton.2 hj), (KeptExcept.refl.setReg x b).adv 2⟩

/-- A result written to Vx and then a flag to VF (10_state.md R42). -/
theorem State.setRegFlag_adv_frame (s : State) (x : Reg) (b : Byte) (c : Bool) :
    AdvancesBy 2 s ((s.setRegFlag x b c).adv 2) ∧ RegsKeptExcept [x, vF] s ((s.setRegFlag x b c).adv 2) ∧
      KeptExcept [.regs] s ((s.setRegFlag x b c).adv 2) := by
  refine ⟨advancesBy_of_pc (k := 2) rfl, fun j hj => ?_, (KeptExcept.refl.setRegFlag x b c).adv 2⟩
  obtain ⟨hx, hF⟩ : j ≠ x ∧ j ≠ vF := by simpa using hj
  rw [State.reg_adv, State.reg_setRegFlag, if_neg hF, if_neg hx]

/-- The flag does not overwrite the result unless x = F (10_state.md R42). -/
theorem State.reg_setRegFlag_self_toNat {s : State} {x : Reg} {b : Byte} {c : Bool} {n : Nat} (hb : b.toNat = n) (hx : x ≠ vF) :
    ((s.setRegFlag x b c).reg x).toNat = n := by
  rw [State.reg_setRegFlag, if_neg hx, if_pos rfl, hb]

/-! ### The results and the flags as numbers -/

theorem flagByte_decide (p : Prop) [Decidable p] : flagByte (decide p) = if p then 1 else 0 := by
  simp [flagByte]

theorem flagByte_toNat (c : Bool) : (flagByte c).toNat = c.toNat := by cases c <;> rfl

/-- A difference of bytes borrows from 256 (R136, R138). -/
theorem byte_sub_toNat (a b : Byte) : (a - b).toNat = (a.toNat + 256 - b.toNat) % 256 := by
  bv_omega

theorem byte_shiftLeft_one_toNat (a : Byte) : (a <<< 1).toNat = a.toNat * 2 % 256 := by
  rw [BitVec.toNat_shiftLeft, Nat.shiftLeft_eq]

/-- The bit SHR shifts out is the remainder of the halving (R137). -/
theorem flagByte_shiftedOutRight_toNat (a : Byte) : (flagByte (shiftedOutRight a)).toNat = a.toNat % 2 := by
  rw [flagByte_toNat, shiftedOutRight, BitVec.getLsbD, Nat.toNat_testBit, pow_zero, Nat.div_one]

/-- The bit SHL shifts out is the high bit (R139). -/
theorem flagByte_shiftedOutLeft_toNat (a : Byte) : (flagByte (shiftedOutLeft a)).toNat = a.toNat / 128 := by
  have ha : a.toNat < 256 := a.isLt
  rw [flagByte_toNat, shiftedOutLeft, BitVec.getLsbD, Nat.toNat_testBit]
  omega

theorem State.shiftSource_toNat (s : State) (x y : Reg) :
    (s.shiftSource x y).toNat = if s.quirkShift = true then (s.reg x).toNat else (s.reg y).toNat :=
  apply_ite BitVec.toNat _ _ _

/-- What SUB and SUBN leave: the difference of `a` and `b` in Vx, its not-borrow in VF (R136, R138). -/
theorem State.setRegFlag_difference (s : State) (x : Reg) (a b : Byte) :
    (x ≠ vF → (((s.setRegFlag x (a - b) (notBorrow a b)).adv 2).reg x).toNat = (a.toNat + 256 - b.toNat) % 256) ∧
      ((s.setRegFlag x (a - b) (notBorrow a b)).adv 2).reg vF = if a.toNat ≥ b.toNat then 1 else 0 :=
  ⟨State.reg_setRegFlag_self_toNat (byte_sub_toNat a b), (s.reg_setRegFlag_vF x _ _).trans (flagByte_decide _)⟩

/-! ### The obligations -/

/-- Settles O34: each effect is one register write, and the bits of the result are those of the operation. -/
theorem copyAndLogicWriteOnlyVx : Obligations.CopyAndLogicWriteOnlyVx := by
  intro x y s
  refine ⟨⟨_, exec_of_not_overflows id, s.reg_setReg_self x _, s.setReg_adv_frame x _⟩,
    ⟨_, exec_of_not_overflows id, fun k => ?_, s.setReg_adv_frame x _⟩,
    ⟨_, exec_of_not_overflows id, fun k => ?_, s.setReg_adv_frame x _⟩,
    ⟨_, exec_of_not_overflows id, fun k => ?_, s.setReg_adv_frame x _⟩⟩
  · exact (congrArg (BitVec.getLsbD · k) (s.reg_setReg_self x _)).trans BitVec.getLsbD_or
  · exact (congrArg (BitVec.getLsbD · k) (s.reg_setReg_self x _)).trans BitVec.getLsbD_and
  · exact (congrArg (BitVec.getLsbD · k) (s.reg_setReg_self x _)).trans BitVec.getLsbD_xor

/-- Settles O35: the sum is written to Vx and then the carry to VF. -/
theorem addSetsCarry : Obligations.AddSetsCarry := fun x _ s =>
  ⟨_, exec_of_not_overflows id, State.reg_setRegFlag_self_toNat (BitVec.toNat_add _ _),
    (s.reg_setRegFlag_vF x _ _).trans (flagByte_decide _), s.setRegFlag_adv_frame x _ _⟩

/-- Settles O36: each writes a difference to Vx and then its not-borrow to VF; SUBN subtracts the other way round. -/
theorem subtractSetsNotBorrow : Obligations.SubtractSetsNotBorrow := by
  intro x y s
  obtain ⟨hsub, hsubFlag⟩ := s.setRegFlag_difference x (s.reg x) (s.reg y)
  obtain ⟨hsubn, hsubnFlag⟩ := s.setRegFlag_difference x (s.reg y) (s.reg x)
  exact ⟨⟨_, exec_of_not_overflows id, hsub, hsubFlag, s.setRegFlag_adv_frame x _ _⟩,
    ⟨_, exec_of_not_overflows id, hsubn, hsubnFlag, s.setRegFlag_adv_frame x _ _⟩⟩

/-- Settles O37: the shifted source is written to Vx and then the bit shifted out to VF. -/
theorem shiftsMoveTheBitOutIntoVF : Obligations.ShiftsMoveTheBitOutIntoVF := by
  intro x y s src hsrc
  obtain rfl : src = (s.shiftSource x y).toNat := hsrc.trans (s.shiftSource_toNat x y).symm
  have hflag : ∀ b c, (((s.setRegFlag x b c).adv 2).reg vF).toNat = (flagByte c).toNat :=
    fun b c => congrArg BitVec.toNat (s.reg_setRegFlag_vF x b c)
  exact ⟨⟨_, exec_of_not_overflows id, State.reg_setRegFlag_self_toNat (BitVec.toNat_ushiftRight _ _),
      (hflag _ _).trans (flagByte_shiftedOutRight_toNat _), s.setRegFlag_adv_frame x _ _⟩,
    ⟨_, exec_of_not_overflows id, State.reg_setRegFlag_self_toNat (byte_shiftLeft_one_toNat _),
      (hflag _ _).trans (flagByte_shiftedOutLeft_toNat _), s.setRegFlag_adv_frame x _ _⟩⟩

end Sys2Proof.Machine
end

section
/-! Immediate operations (43_immediate.md): the load and the addition, which write no flag, and the masked random byte. -/

namespace Sys2Proof.Machine

/-- A queued byte is the answer of the random source (60_exceptions.md R229). -/
theorem State.randomAnswer_of_queued {s : State} {b : Byte} {bs : List Byte} (h : s.randomBytes = b :: bs) :
    s.randomAnswer = b := by
  rw [State.randomAnswer, h, List.head?_cons, Option.getD_some]

/-- RND leaves in Vx the bits of the answer that the immediate lets through (R154). -/
theorem State.after_rnd_getLsbD (s : State) (x : Reg) (kk : Byte) (k : Nat) :
    ((s.after (.rnd x kk)).reg x).getLsbD k = (s.randomAnswer.getLsbD k && kk.getLsbD k) :=
  (congrArg (BitVec.getLsbD · k) (State.reg_setReg_self _ x _)).trans BitVec.getLsbD_and

/-- Settles O38: each effect is one register write, of the immediate or of a sum of bytes. -/
theorem immediatesWriteOnlyVx : Obligations.ImmediatesWriteOnlyVx := fun x kk s =>
  ⟨⟨_, exec_of_not_overflows id, s.reg_setReg_self x kk, s.setReg_adv_frame x kk⟩,
    ⟨_, exec_of_not_overflows id, (congrArg BitVec.toNat (s.reg_setReg_self x _)).trans (BitVec.toNat_add _ _),
      s.setReg_adv_frame x _⟩⟩

/-- Settles O39: the effect takes one answer of the random source, whose masked bits are those of Vx, and sends one request. -/
theorem randomByteIsMaskedByTheImmediate : Obligations.RandomByteIsMaskedByTheImmediate := by
  intro x kk s
  have hqueued : ∀ b bs, s.randomBytes = b :: bs →
      s.randomAnswer = b ∧ (s.after (.rnd x kk)).randomBytes = bs :=
    fun b bs h => ⟨State.randomAnswer_of_queued h, congrArg List.tail h⟩
  exact ⟨_, exec_of_not_overflows id, s.after_rnd_getLsbD x kk, hqueued, rfl, rfl, rfl, rfl, advancesBy_of_pc (k := 2) rfl,
    s.after_regs (.rnd x kk), s.after_frame (.rnd x kk)⟩

end Sys2Proof.Machine
end

section
/-! Memory and index instructions (44_memory_index.md): the writes of I, the decimal digits of a register, and the block transfers
of V0..Vx. -/

namespace Sys2Proof.Machine

/-! ### The index register (R161 to R163) -/

/-- A glyph address lies in memory (R163; D41). -/
theorem maskAddr_glyphAddr_toNat (b : Byte) : (maskAddr (glyphAddr b)).toNat = 5 * b.toNat := by
  have hb : b.toNat < 256 := b.isLt
  rw [maskAddr_toNat, glyphAddr, BitVec.toNat_mul, wordOfByte_toNat]
  change b.toNat * 5 % 2 ^ 16 % 0x1000 = 5 * b.toNat
  omega

/-- ADD I,Vx adds Vx to I modulo 4096 (R162). -/
theorem State.after_addIVx_index_toNat (s : State) (x : Reg) :
    (s.after (.addIVx x)).index.toNat = (s.index.toNat + (s.reg x).toNat) % 0x1000 := by
  refine (maskAddr_add_toNat _ _).trans ?_
  rw [wordOfByte_toNat]

/-- Settles O40: each effect is one masked write of I, and an advance by 2. -/
theorem indexWritesKeepAllElse : Obligations.IndexWritesKeepAllElse := fun nnn x s =>
  ⟨⟨_, exec_of_not_overflows id, maskAddr_addrOfNNN_toNat nnn, advancesBy_of_pc (k := 2) rfl, s.after_frame (.ldI nnn)⟩,
    ⟨_, exec_of_not_overflows id, s.after_addIVx_index_toNat x, advancesBy_of_pc (k := 2) rfl, s.after_frame (.addIVx x)⟩,
    ⟨_, exec_of_not_overflows id, maskAddr_glyphAddr_toNat _, advancesBy_of_pc (k := 2) rfl, s.after_frame (.ldFVx x)⟩⟩

/-! ### The decimal digits (R164) -/

theorem decimalDigit_hundreds {v : Nat} (hv : v < 1000) : decimalDigit v 0 = v / 100 :=
  Nat.mod_eq_of_lt (Nat.div_lt_of_lt_mul hv)

theorem decimalDigit_units (v : Nat) : decimalDigit v 2 = v % 10 :=
  congrArg (· % 10) (Nat.div_one v)

/-- Settles O41: the three bytes stored are the decimal digits of Vx, and a byte has no more than three. -/
theorem bcdStoresThreeDigits : Obligations.BcdStoresThreeDigits := by
  intro x s hs hr
  have hv : (s.reg x).toNat < 1000 := (s.reg x).isLt.trans (by decide)
  exact ⟨_, exec_of_not_overflows (Nat.not_lt.2 hr),
    (hs.readByte_after_ldBVx x (j := 0) (by decide)).trans (decimalDigit_hundreds hv),
    hs.readByte_after_ldBVx x (j := 1) (by decide), (hs.readByte_after_ldBVx x (j := 2) (by decide)).trans (decimalDigit_units _),
    hs.after_ldBVx_keeps_outside x, advancesBy_of_pc (k := 2) rfl, s.after_frame (.ldBVx x)⟩

/-! ### The block transfers (R165, R166) -/

/-- Settles O42: the store writes the registers up to Vx from I, and then I moves on by the quirk. -/
theorem blockStoreWritesRegistersUpToVx : Obligations.BlockStoreWritesRegistersUpToVx := fun x s hs hr =>
  ⟨_, exec_of_not_overflows (Nat.not_lt.2 hr), fun _ => hs.readByte_after_ldMemVx, hs.after_ldMemVx_keeps_outside x,
    indexAfterBlock_toNat s.quirkLoadStore s.index x, advancesBy_of_pc (k := 2) rfl, s.after_frame (.ldMemVx x)⟩

/-- A block load keeps the registers above Vx (R166). -/
theorem State.reg_after_ldVxMem_of_lt (s : State) {x j : Reg} (hj : x < j) : (s.after (.ldVxMem x)).reg j = s.reg j :=
  s.after_regs (.ldVxMem x) j (by simpa [writtenRegs] using hj)

/-- A block load moves I on by x+1 modulo 4096, or leaves it under quirk `loadStore` (R166). -/
theorem State.after_ldVxMem_index_toNat (s : State) (x : Reg) : (s.after (.ldVxMem x)).index.toNat =
    if s.quirkLoadStore = true then s.index.toNat else (s.index.toNat + x.val + 1) % 0x1000 := by
  simp [State.after, indexAfterBlock_toNat]

/-- Settles O43: the load writes the registers up to Vx from the bytes at I, and then I moves on by the quirk. -/
theorem blockLoadReadsRegistersUpToVx : Obligations.BlockLoadReadsRegistersUpToVx := fun x s hr =>
  ⟨_, exec_of_not_overflows (Nat.not_lt.2 hr), fun _ => s.reg_after_ldVxMem, fun _ => s.reg_after_ldVxMem_of_lt,
    s.after_ldVxMem_index_toNat x, advancesBy_of_pc (k := 2) (by simp [State.after]), s.after_frame (.ldVxMem x)⟩

end Sys2Proof.Machine
end

section
/-! Timers (45_timers.md): the three moves between the timers and a register, and when a cycle reads a delay written before
(60_exceptions.md R215, R216). -/

namespace Sys2Proof.Machine

/-- Settles O46: each effect is one write, of a register or of a timer, and an advance by 2. -/
theorem timerMovesKeepAllElse : Obligations.TimerMovesKeepAllElse := fun x s =>
  ⟨⟨_, exec_of_not_overflows id, s.reg_setReg_self x s.dt, s.setReg_adv_frame x s.dt⟩,
    ⟨_, exec_of_not_overflows id, rfl, rfl, advancesBy_of_pc (k := 2) rfl, s.after_frame (.ldDtVx x)⟩,
    ⟨_, exec_of_not_overflows id, rfl, rfl, advancesBy_of_pc (k := 2) rfl, s.after_frame (.ldStVx x)⟩⟩

/-! ### A queued `step()` and a tick of a ready state -/

section
variable {s t : State} {rest : List Command} {i : Instr}

/-- A queued `step()` runs the ready instruction (R216). -/
theorem step_of_queued_step (hq : s.commands = .step :: rest) (hr : s.Ready i) (he : exec i (s.setCommands rest) = .next t) :
    step s = .next t.reportCycle :=
  (step_of_command hq).trans (cycle_of_ready hr he)

/-- A tick whose cycle left no fault is that cycle and then the timer update (R215). -/
theorem tick_of_cycle (hrun : s.runState = .running) (hp : s.paused = false) (hu : cycle s = .next t) (hf : t.fault = none) :
    tick s = .next t.timerUpdate := by
  simp [tick, hrun, hp, hu, mapNext, State.finishTick, hf]

/-- A tick runs the ready instruction and, when that raised no fault, the timer update (R215). -/
theorem step_of_queued_tick (hq : s.commands = .tick :: rest) (hrun : s.runState = .running) (hp : s.paused = false)
    (hr : s.Ready i) (he : exec i (s.setCommands rest) = .next t) (hf : t.fault = none) :
    step s = .next t.reportCycle.timerUpdate :=
  (step_of_command hq).trans
    (tick_of_cycle hrun hp (cycle_of_ready hr he) ((State.reportCycle_fault t).trans hf))

/-- The timer update plays no part in whether an instruction is ready. -/
theorem State.ready_timerUpdate : s.timerUpdate.Ready i ↔ s.Ready i := Iff.rfl

/-- A report touches the host's side only. -/
theorem KeptExcept.reportCycle {ps : List Part} (h : KeptExcept ps s t) (hm : Part.hostSide ∈ ps) :
    KeptExcept ps s t.reportCycle := by
  obtain ⟨r, hr⟩ := t.reportCycle_eq
  exact hr ▸ h.setReply r hm

/-- A report touches no register. -/
@[simp] theorem State.reg_reportCycle (s : State) (j : Reg) : s.reportCycle.reg j = s.reg j :=
  congrArg (·[j]) s.reportCycle_v

/-- Two bytes on, the next word is ready if what a fetch, its decoding and the checks before them look at was kept. -/
theorem State.Ready.of_advancesBy_two {j : Instr} {ps : List Part} (h : s.Ready i) (hpc : s.pc.toNat ≤ 0xFFC)
    (hd : decodeWord s.config.decodeMode
      (wordOfBytes (s.readByte (s.pc.toNat + 2)) (s.readByte (s.pc.toNat + 3))) = some j)
    (ha : AdvancesBy 2 s t) (hk : KeptExcept ps s t)
    (hps : ∀ p ∈ [Part.memory, .config, .keyWait, .faultState], p ∉ ps) : t.Ready j := by
  simp only [List.forall_mem_cons] at hps
  obtain ⟨hmem, hconfig, hkw, hfault, -⟩ := hps
  have hbyte := hk .memory hmem
  have htpc : t.pc.toNat = s.pc.toNat + 2 := ha.trans (Nat.mod_eq_of_lt (by omega))
  obtain ⟨hf, hwait, -, -⟩ := h
  refine ⟨(hk .faultState hfault).1.trans hf, Eq.trans (hk .keyWait hkw) hwait, by omega, ?_⟩
  rw [State.fetchWord, htpc, hbyte, hbyte, hk .config hconfig]
  exact hd

end

/-! ### The written delay -/

/-- LD Vx,DT leaves in Vx the delay it reads (R180). -/
theorem State.reg_after_ldVxDt (s : State) (x : Reg) : (s.after (.ldVxDt x)).reg x = s.dt := s.reg_setReg_self x s.dt

/-- LD DT,Vx leaves in dt the register it reads (R181). -/
theorem State.dt_after_ldDtVx (s : State) (x : Reg) : (s.after (.ldDtVx x)).dt = s.reg x := rfl

theorem State.config_after_ldDtVx (s : State) (x : Reg) : (s.after (.ldDtVx x)).config = s.config := rfl

/-- What the cycle of LD DT,Vx can touch, the command it was taken from included. -/
theorem State.reportCycle_after_ldDtVx_frame (s : State) (rest : List Command) (x : Reg) :
    KeptExcept [.timers, .hostSide] s ((s.setCommands rest).after (.ldDtVx x)).reportCycle :=
  (((KeptExcept.refl.setCommands rest).setDt (s.reg x)).adv 2).reportCycle (by decide)

/-- Settles O49: the cycle of the first instruction leaves the second ready; between the two a tick runs the timer update, and a
`step()` runs nothing. -/
theorem delayWrittenInATickIsReadDecremented : Obligations.DelayWrittenInATickIsReadDecremented := by
  intro x y s _ hr hpc hd
  have hready (rest : List Command) : ((s.setCommands rest).after (.ldDtVx x)).reportCycle.Ready (.ldVxDt y) :=
    hr.of_advancesBy_two hpc hd (advancesBy_of_pc (k := 2) (by simp [State.after]))
      (s.reportCycle_after_ldDtVx_frame rest x) (by decide)
  constructor
  · intro hrun hpaused hq
    have hfirst := step_of_queued_tick hq hrun hpaused hr (exec_of_not_overflows id) hr.1
    have hsecond := step_of_queued_tick (rest := []) (by simp [State.after]) (by simpa [State.after] using hrun)
      (by simpa [State.after] using hpaused) (State.ready_timerUpdate.2 (hready [.tick])) (exec_of_not_overflows id) (hready _).1
    exact ⟨_, _, hfirst, hsecond, by simp [State.reg_after_ldVxDt, State.dt_after_ldDtVx, State.config_after_ldDtVx]⟩
  · intro hq
    have hfirst := step_of_queued_step hq hr (exec_of_not_overflows id)
    have hsecond := step_of_queued_step (rest := []) (by simp [State.after]) (hready [.step]) (exec_of_not_overflows id)
    exact ⟨_, _, hfirst, hsecond, by simp [State.reg_after_ldVxDt, State.dt_after_ldDtVx]⟩

end Sys2Proof.Machine
end

section
/-! Input (46_input.md): the skips by the Keyboard's answer, the entry into the key-wait, and the key-down that resumes it. -/

namespace Sys2Proof.Machine

/-! ### SKP and SKNP (R192 to R194) -/

/-- A queued answer is the Keyboard's answer (R192; log 3). -/
theorem State.keyAnswer_of_queued {s : State} {b : Bool} {bs : List Bool} (h : s.keyAnswers = b :: bs) : s.keyAnswer = b := by
  rw [State.keyAnswer, h, List.head?_cons, Option.getD_some]

/-- Apart from its pc a key skip leaves the state of one question to the Keyboard and one answer taken. -/
theorem State.after_key_skip {x : Reg} {i : Instr} (hi : i ∈ [Instr.skp x, .sknp x]) (s : State) :
    isSkip i = true ∧ ∃ c, s.after i = ((s.send [.isKeyPressed (s.reg x)]).takeKey).skipIf c := by
  simp only [List.mem_cons, List.not_mem_nil, or_false] at hi
  rcases hi with rfl | rfl <;> exact ⟨rfl, _, rfl⟩

/-- SKP skips by the answer "pressed", SKNP by the other. -/
theorem skips_iff_keyAnswer {x : Reg} {i : Instr} (hi : i ∈ [Instr.skp x, .sknp x]) (s : State) :
    Skips s i ↔ (s.keyAnswer = true ↔ i = .skp x) := by
  simp only [List.mem_cons, List.not_mem_nil, or_false] at hi
  rcases hi with rfl | rfl
  · simp [Skips]
  · simp [Skips]

/-- Settles O31: both are skips, whose effect but for pc is one question and one answer taken. -/
theorem keySkipsFollowTheKeyboardsAnswer : Obligations.KeySkipsFollowTheKeyboardsAnswer := by
  intro x s i hi
  obtain ⟨hskip, c, hafter⟩ := s.after_key_skip hi
  obtain ⟨hfour, htwo⟩ := advancesBy_of_isSkip hskip s
  have hqueued : ∀ b bs, s.keyAnswers = b :: bs →
      (s.after i).keyAnswers = bs ∧ (AdvancesBy 4 s (s.after i) ↔ (b = true ↔ i = .skp x)) := by
    intro b bs h
    rw [advancesBy_four_iff_skips hskip, skips_iff_keyAnswer hi, State.keyAnswer_of_queued h]
    exact ⟨by simp [hafter, h], Iff.rfl⟩
  refine ⟨_, exec_of_isSkip hskip s, hfour, htwo, hqueued, ?_⟩
  rw [hafter]
  exact ⟨rfl, rfl, rfl, rfl, ((KeptExcept.refl.send _).takeKey).skipIf c⟩

/-! ### The key-wait (R190, R191, R222) -/

/-- Settles O50: the effect is one write of the key-wait. -/
theorem keyWaitIsEnteredInPlace : Obligations.KeyWaitIsEnteredInPlace := fun x s =>
  ⟨_, exec_of_not_overflows id, rfl, rfl, s.after_frame (.ldVxK x)⟩

section
variable {s : State} {rest : List Command}

/-- A key-down in a key-wait passes the press on, gives Vr the key, moves pc past LD Vr,K and ends the wait (R191). -/
theorem step_of_keyDown_in_wait {r key : Reg} (hc : s.commands = .keyDown key.val :: rest) (hk : s.kw = some r) :
    step s = .next ((((((s.setCommands rest).send [.keyDown key]).setReg r (BitVec.ofNat 8 key.val)).adv 2).setKw
      none).setReply .done) := by
  rw [step_of_command hc, obey, State.hostKeyDown, dif_pos key.isLt, State.resumeKeyWait]
  simp [hk]

/-- With no wait pending only the Keyboard hears of the press (R222; D37). -/
theorem step_of_keyDown_of_no_wait {key : Reg} (hc : s.commands = .keyDown key.val :: rest) (hk : s.kw = none) :
    step s = .next (((s.setCommands rest).send [.keyDown key]).setReply .done) := by
  rw [step_of_command hc, obey, State.hostKeyDown, dif_pos key.isLt, State.resumeKeyWait]
  simp [hk]

/-- A key above 15 is refused (R222; D17). -/
theorem step_of_keyDown_out_of_range {k : Nat} (hc : s.commands = .keyDown k :: rest) (hk : 16 ≤ k) :
    step s = .next ((s.setCommands rest).refuse .keyOutOfRange) := by
  rw [step_of_command hc, obey, State.hostKeyDown, dif_neg (Nat.not_lt.2 hk)]

end

/-- A key's number fits the byte that receives it. -/
theorem byte_of_key_toNat (key : Reg) : (BitVec.ofNat 8 key.val : Byte).toNat = key.val :=
  (BitVec.toNat_ofNat _ _).trans (Nat.mod_eq_of_lt (key.isLt.trans (by decide)))

/-- Settles O51: the step is known in each of the three cases, and each update in it touches one part. -/
theorem keyDownResumesAPendingWait : Obligations.KeyDownResumesAPendingWait := by
  intro s k rest hc
  refine ⟨?_, ?_, fun hk => ?_⟩
  · rintro r key hk rfl
    exact ⟨_, step_of_keyDown_in_wait hc hk, (congrArg BitVec.toNat (State.reg_setReg_self _ r _)).trans (byte_of_key_toNat key),
      advancesBy_of_pc (k := 2) rfl, rfl, rfl, rfl, fun j hj => State.reg_setReg_of_ne _ _ (mt List.mem_singleton.2 hj),
      (((((KeptExcept.refl.setCommands rest).send _).setReg r _).adv 2).setKw none).setReply .done⟩
  · rintro key hk rfl
    exact ⟨_, step_of_keyDown_of_no_wait hc hk, rfl, rfl, ((KeptExcept.refl.setCommands rest).send _).setReply .done⟩
  · exact ⟨_, step_of_keyDown_out_of_range hc hk, rfl, rfl, (KeptExcept.refl.setCommands rest).setReply _⟩

end Sys2Proof.Machine
end

section
/-! Faults and the host's commands (60_exceptions.md R200 to R224; 70_reset_and_hazards.md R242): the checks of a cycle, what a recorded
fault keeps, the tick and the timer update, the run switches and the reconfiguration. -/

namespace Sys2Proof.Machine

/-! ### The checks of a cycle (R207) -/

/-- A fetch past 0xFFE faults (R54; D4). -/
theorem cycle_of_fetch_overflow {s : State} (hf : s.fault = none) (hk : s.kw = none) (hp : s.pc.toNat > 0xFFE) :
    cycle s = .next s.raiseAddressOverflow.reportCycle := by
  simp [cycle, hf, hk, hp]

/-- An INVALID word faults (R203). -/
theorem cycle_of_invalid {s : State} (hf : s.fault = none) (hk : s.kw = none) (hp : s.pc.toNat ≤ 0xFFE)
    (hd : decodeWord s.config.decodeMode s.fetchWord = none) :
    cycle s = .next (s.raise .invalidOpcode s.fetchWord).reportCycle := by
  simp [cycle, hf, hk, Nat.not_lt.2 hp, hd]

/-- Settles O12: one lemma per check, each with the state its premises leave. -/
theorem cycleChecksInOrder : Obligations.CycleChecksInOrder := by
  refine fun s => ⟨fun f hf => cycle_of_fault hf, fun hf hk => ?_, cycle_of_fetch_overflow, cycle_of_invalid⟩
  obtain ⟨r, hr⟩ := Option.ne_none_iff_exists'.1 hk
  exact cycle_of_wait hf hr

/-- Settles O13: the step is the cycle that raises the fault, and raising touches the fault record and the run state only. -/
theorem invalidWordRaisesInvalidOpcode : Obligations.InvalidWordRaisesInvalidOpcode := fun s hc hf hk hp hd =>
  ⟨_, (step_of_no_command hc).trans (cycle_of_invalid hf hk hp hd), rfl, rfl, rfl,
    (KeptExcept.refl.raise .invalidOpcode s.fetchWord).reportCycle (by decide)⟩

/-! ### Instructions that fault, and that every step answers (R202, R206) -/

/-- Settles O14: an instruction overflows, or its effect keeps the fault record and the run state. -/
theorem instructionsFaultExactlyWhereTheTableSays : Obligations.InstructionsFaultExactlyWhereTheTableSays := by
  refine fun i s => ⟨exec_of_overflows, fun ho => ⟨_, exec_of_not_overflows ho, ?_⟩⟩
  exact s.after_frame i .faultState fun hm => absurd (writtenParts_subset i hm) (by decide)

/-- Whatever a cycle's checks find, it answers a next state. -/
theorem exists_cycle_eq_next (s : State) : ∃ t, cycle s = .next t := by
  rcases hf : s.fault with _ | f
  · rcases hk : s.kw with _ | r
    · rcases Nat.lt_or_ge 0xFFE s.pc.toNat with hp | hp
      · exact ⟨_, cycle_of_fetch_overflow hf hk hp⟩
      · rcases hd : decodeWord s.config.decodeMode s.fetchWord with _ | i
        · exact ⟨_, cycle_of_invalid hf hk hp hd⟩
        · exact ⟨_, cycle_of_ready ⟨hf, hk, hp, hd⟩ (exec_eq i s)⟩
    · exact ⟨_, cycle_of_wait hf hk⟩
  · exact ⟨_, cycle_of_fault hf⟩

/-- A tick while Stopped is dropped (R215, R221; log 2). -/
theorem tick_of_stopped {s : State} (hr : s.runState = .stopped) : tick s = .next (s.refuse .notRunning) := by
  rw [tick, hr]

/-- A tick while paused runs the timer update only (R215; D14). -/
theorem tick_of_paused {s : State} (hr : s.runState = .running) (hp : s.paused = true) :
    tick s = .next (s.setReply .skipped).timerUpdate := by
  simp [tick, hr, hp]

/-- A tick that runs a cycle ends as `finishTick` says (R215). -/
theorem tick_eq_finishTick {s u : State} (hr : s.runState = .running) (hp : s.paused = false) (hu : cycle s = .next u) :
    tick s = .next (s.finishTick u) := by
  simp [tick, hr, hp, hu, mapNext]

theorem exists_tick_eq_next (s : State) : ∃ t, tick s = .next t := by
  rcases hr : s.runState
  · exact ⟨_, tick_of_stopped hr⟩
  · rcases hp : s.paused
    · obtain ⟨u, hu⟩ := exists_cycle_eq_next s
      exact ⟨_, tick_eq_finishTick hr hp hu⟩
    · exact ⟨_, tick_of_paused hr hp⟩

theorem exists_obey_eq_next (c : Command) (s : State) : ∃ t, obey c s = .next t := by
  cases c
  case step => exact exists_cycle_eq_next s
  case tick => exact exists_tick_eq_next s
  all_goals exact ⟨_, rfl⟩

/-- Settles O15: an instruction is its range check and two states; a step is a cycle or a command obeyed. -/
theorem everyStepAnswersANextState : Obligations.EveryStepAnswersANextState := by
  refine ⟨fun i s => ⟨_, exec_eq i s⟩, fun s => ?_⟩
  rcases hc : s.commands with _ | ⟨c, rest⟩
  · rw [step_of_no_command hc]; exact exists_cycle_eq_next s
  · rw [step_of_command hc]; exact exists_obey_eq_next c _

/-! ### The timer update and the tick (R215, R217 to R219) -/

/-- The values a timer update leaves, in the spec's arithmetic (R217, R218). -/
theorem State.timerUpdate_values (s : State) :
    s.timerUpdate.dt.toNat = decremented s.config.timerAtZero s.dt.toNat ∧
      s.timerUpdate.st.toNat = decremented s.config.timerAtZero s.st.toNat ∧
      s.timerUpdate.soundOn = decide (0 < s.st.toNat) ∧
      s.timerUpdate.requests = s.requests ++ [if 0 < s.st.toNat then .audioPlay else .audioStop] :=
  ⟨decTimer_toNat _ _, decTimer_toNat _ _, rfl, rfl⟩

/-- Settles O47: the step is the timer update and a reply. -/
theorem timerUpdateDecrementsBothAndDrivesTheSound : Obligations.TimerUpdateDecrementsBothAndDrivesTheSound := by
  intro s rest hc
  obtain ⟨hdt, hst, hsound, hrequests⟩ := (s.setCommands rest).timerUpdate_values
  exact ⟨_, step_of_command hc, hdt, hst, hsound, hrequests, rfl, rfl,
    (KeptExcept.refl.setCommands rest).timerUpdate.setReply .done⟩

/-- A cycle that raised a fault ends its tick with no timer update (R215; D27). -/
theorem tick_of_raised {s u : State} (hr : s.runState = .running) (hp : s.paused = false) (hu : cycle s = .next u)
    (hs : s.fault = none) (hraised : u.fault ≠ none) : tick s = .next u := by
  simp [tick_eq_finishTick hr hp hu, State.finishTick, hs, Option.isSome_iff_ne_none.2 hraised]

/-- A tick while paused or in a key-wait runs the timer update only, and says which of the two kept the cycle (R215; log 5). -/
theorem tick_of_paused_or_wait {s : State} (hr : s.runState = .running) (hf : s.fault = none)
    (h : s.paused = true ∨ s.kw ≠ none) :
    tick s = .next (s.setReply (if s.paused = true then .skipped else .waiting)).timerUpdate := by
  rcases hp : s.paused
  · obtain ⟨r, hk⟩ := Option.ne_none_iff_exists'.1 (h.resolve_left (by simp [hp]))
    exact tick_of_cycle hr hp (cycle_of_wait hf hk) hf
  · exact tick_of_paused hr hp

/-- Settles O48: the tick's three cases, with the values of its timer update. -/
theorem tickRunsOneCycleThenTheTimers : Obligations.TickRunsOneCycleThenTheTimers := by
  intro s rest hc
  have hstep := step_of_command hc
  refine ⟨fun hr hp u hu => ⟨fun hf hraised => ?_, fun hf => ?_⟩, fun hr hf h => ?_, fun hr => ?_⟩
  · exact hstep.trans (tick_of_raised hr hp hu hf hraised)
  · exact hstep.trans (tick_of_cycle hr hp hu hf)
  · obtain ⟨hdt, hst, hsound, hrequests⟩ := (s.setCommands rest).timerUpdate_values
    exact ⟨_, hstep.trans (tick_of_paused_or_wait hr hf h), hdt, hst, hsound, hrequests, rfl, rfl, rfl,
      ((KeptExcept.refl.setCommands rest).setReply _).timerUpdate⟩
  · exact ⟨_, hstep.trans (tick_of_stopped hr), rfl, (KeptExcept.refl.setCommands rest).setReply _⟩

/-! ### A recorded fault (R201, R210, R241) -/

/-- In a stopped state with a recorded fault a step answers with a reply only, or obeys a host command that runs no cycle. -/
theorem step_cases_of_fault {s t : State} {f : FaultRecord} (hf : s.fault = some f) (hr : s.runState = .stopped)
    (h : step s = .next t) :
    (∃ cs a, t = (s.setCommands cs).setReply a) ∨
    (∃ c rest, s.commands = c :: rest ∧ c ≠ .tick ∧ HostStep (s.setCommands rest) c t) := by
  have hcycle : ∀ {cs u}, cycle (s.setCommands cs) = .next u → u = (s.setCommands cs).setReply (.faulted f) := fun h =>
    Host.Outcome.next.inj (h.symm.trans (cycle_of_fault hf))
  rcases step_cases h with ⟨-, h⟩ | ⟨rest, -, h⟩ | ⟨rest, -, h⟩ | ⟨c, rest, hc, hns, hnt, h⟩
  · exact .inl ⟨s.commands, _, hcycle h⟩
  · exact .inl ⟨rest, _, hcycle h⟩
  · exact .inl ⟨rest, _, Host.Outcome.next.inj (h.symm.trans (tick_of_stopped hr))⟩
  · exact .inr ⟨c, rest, hc, hnt, hostStep_of_obey hns hnt h⟩

/-- The parts that a recorded fault locks though a host command can write them in other states: `run()` is refused, `stop()` finds
the machine Stopped, and a key-down finds no wait to end. -/
def faultLockedParts : List Part := [.regs, .keyWait, .faultState]

/-- In a stopped state with a recorded fault and no key-wait a host command that does not reset keeps the locked parts, and only a
load moves pc. -/
theorem HostStep.keeps_of_fault {c : Command} {s t : State} (h : HostStep s c t) (hreset : c ≠ .reset)
    (hconf : ∀ q d, c = .configure q → checkConfig q ≠ .inl d) (hf : s.fault ≠ none) (hr : s.runState = .stopped)
    (hk : s.kw = none) : (∀ p ∈ faultLockedParts, Part.Kept s t p) ∧ ((∀ bs, c ≠ .loadToMemory bs) → t.pc = s.pc) := by
  cases h with
  | reset => exact absurd rfl hreset
  | configured hd => exact absurd hd (hconf _ _ rfl)
  | ran hn => exact absurd hn hf
  | endedWait _ hw => exact absurd (hk.symm.trans hw) nofun
  | loaded => exact ⟨by simp [faultLockedParts, Part.Kept], fun hn => absurd rfl (hn _)⟩
  | stopped => exact ⟨by simp [faultLockedParts, Part.Kept, hr], fun _ => rfl⟩
  | refused | halted | resumed | updatedTimers | pressed | released | acknowledged =>
    exact ⟨by simp [faultLockedParts, Part.Kept, State.refuse], fun _ => rfl⟩

/-- While a fault is recorded and no reset comes, only a load moves pc, and a part changes only by a command that writes it and that
the fault does not keep from it. -/
theorem step_of_fault {s t : State} {f : FaultRecord} (hf : s.fault = some f) (hr : s.runState = .stopped) (hk : s.kw = none)
    (h : step s = .next t) (hreset : ∀ rest, s.commands ≠ .reset :: rest)
    (hconf : ∀ q rest d, s.commands = .configure q :: rest → checkConfig q ≠ .inl d) :
    ((∀ bs rest, s.commands ≠ .loadToMemory bs :: rest) → t.pc = s.pc) ∧
      ∀ p, p ≠ .hostSide →
        (p ∉ faultLockedParts → ∀ c : Command, p ∈ c.writes → c ≠ .tick → ∀ rest, s.commands ≠ c :: rest) → Part.Kept s t p := by
  have hquiet : ∀ cs, KeptExcept [.hostSide] s (s.setCommands cs) := fun cs => KeptExcept.refl.setCommands cs
  rcases step_cases_of_fault hf hr h with ⟨cs, a, rfl⟩ | ⟨c, rest, hc, hnt, hs⟩
  · have hframe : KeptExcept [.hostSide] s ((s.setCommands cs).setReply a) := (hquiet cs).setReply a
    exact ⟨fun _ => rfl, fun p hp _ => hframe p (mt List.mem_singleton.1 hp)⟩
  · have hnr : c ≠ .reset := fun e => hreset rest (e ▸ hc)
    have hnc : ∀ q d, c = .configure q → checkConfig q ≠ .inl d := fun q d e => hconf q rest d (e ▸ hc)
    obtain ⟨hlocked, hpc⟩ := hs.keeps_of_fault hnr hnc (by simp [hf]) hr hk
    refine ⟨fun hload => hpc fun bs e => hload bs rest (e ▸ hc), fun p hp hw => ?_⟩
    refine (hquiet rest p (mt List.mem_singleton.1 hp)).trans ?_
    by_cases hl : p ∈ faultLockedParts
    · exact hlocked p hl
    · exact hs.frame hnr hnc p fun hm => (List.mem_cons.1 hm).elim hp fun hm => hw hl c hm hnt rest hc

/-- Settles O19: no cycle runs, so each part is kept unless the command that comes is one that writes it. -/
theorem faultIsStickyUntilReset : Obligations.FaultIsStickyUntilReset := by
  intro s t f hs hf h hreset hconf
  obtain ⟨hr, hk⟩ := hs.faultStops (by simp [hf])
  obtain ⟨hpc, hkept⟩ := step_of_fault hf hr hk h hreset hconf
  have hfree : ∀ p, p ∈ [Part.index, .stack, .quirks, .config, .answers] → Part.Kept s t p := fun p hp =>
    hkept p (by rintro rfl; simp at hp) fun _ c hm => absurd hm (c.not_mem_writes hp)
  have hlocked : ∀ p, p ∈ faultLockedParts → Part.Kept s t p := fun p hp =>
    hkept p (by rintro rfl; simp [faultLockedParts] at hp) fun hn => absurd hp hn
  obtain ⟨hfault, hrun⟩ := hlocked .faultState (by decide)
  have hwait : Part.Kept s t .keyWait := hlocked _ (by decide)
  refine ⟨hfault.trans hf, hrun.trans hr, Eq.trans hwait hk, hlocked _ (by decide), hfree _ (by decide), hfree _ (by decide),
    hfree _ (by decide), hfree _ (by decide), hfree _ (by decide), fun hload => ⟨hpc hload, ?_⟩, fun hack => ?_,
    fun hhalt hresume => ?_, fun hupdate => ⟨?_, ?_, fun hkeyDown hkeyUp => ?_⟩⟩
  · exact hkept _ nofun fun _ c hm _ => by obtain ⟨bs, rfl⟩ := c.memory_mem_writes.1 hm; exact hload bs
  · exact hkept _ nofun fun _ c hm _ => c.repaint_mem_writes.1 hm ▸ hack
  · exact hkept _ nofun fun _ c hm _ => (c.pause_mem_writes.1 hm).elim (· ▸ hhalt) (· ▸ hresume)
  · exact hkept _ nofun fun _ c hm hnt => (c.timers_mem_writes.1 hm).resolve_left hnt ▸ hupdate
  · exact hkept _ nofun fun _ c hm hnt => (c.sound_mem_writes.1 hm).resolve_left hnt ▸ hupdate
  · refine hkept _ nofun fun _ c hm hnt => ?_
    rcases (c.requests_mem_writes.1 hm).resolve_left hnt with rfl | ⟨k, rfl⟩ | ⟨k, rfl⟩
    · exact hupdate
    · exact hkeyDown k
    · exact hkeyUp k

/-! ### The host's switches, the acknowledgement and the key release (R210 to R213, R223, R224) -/

section
variable {s : State} {rest : List Command}

/-- `run()` starts the engine when no fault is recorded (R210). -/
theorem step_of_run (hc : s.commands = .run :: rest) (hf : s.fault = none) :
    step s = .next (((s.setCommands rest).setRunState .running).setReply .done) := by
  rw [step_of_command hc, obey, State.hostRun, State.setCommands_fault, hf]

/-- `run()` is refused while a fault is recorded (R210). -/
theorem step_of_run_of_fault (hc : s.commands = .run :: rest) {f : FaultRecord} (hf : s.fault = some f) :
    step s = .next ((s.setCommands rest).refuse .faultRecorded) := by
  rw [step_of_command hc, obey, State.hostRun, State.setCommands_fault, hf]

/-- A key's release goes to the Keyboard (R223). -/
theorem step_of_keyUp {key : Reg} (hc : s.commands = .keyUp key.val :: rest) :
    step s = .next (((s.setCommands rest).send [.keyUp key]).setReply .done) := by
  rw [step_of_command hc, obey, State.hostKeyUp, dif_pos key.isLt]

/-- The release of a key above 15 is refused (R223; D17). -/
theorem step_of_keyUp_out_of_range {k : Nat} (hc : s.commands = .keyUp k :: rest) (hk : 16 ≤ k) :
    step s = .next ((s.setCommands rest).refuse .keyOutOfRange) := by
  rw [step_of_command hc, obey, State.hostKeyUp, dif_neg (Nat.not_lt.2 hk)]

end

/-- Settles O52: `run()` by whether a fault is recorded; each of the others is one write. -/
theorem runStopHaltAndResumeTouchOneSwitch : Obligations.RunStopHaltAndResumeTouchOneSwitch := by
  intro s rest
  refine ⟨fun hc => ?_, fun hc => ?_, fun hc => ?_, fun hc => ?_⟩
  · rcases hf : s.fault with _ | f
    · exact ⟨_, step_of_run hc hf, rfl, hf, fun _ => rfl, fun hn => absurd rfl hn,
        ((KeptExcept.refl.setCommands rest).setRunState _).setReply _⟩
    · exact ⟨_, step_of_run_of_fault hc hf, rfl, hf, nofun, fun _ => ⟨rfl, rfl⟩, (KeptExcept.refl.setCommands rest).setReply _⟩
  · exact ⟨_, step_of_command hc, rfl, rfl, rfl, ((KeptExcept.refl.setCommands rest).setRunState _).setReply _⟩
  · exact ⟨_, step_of_command hc, rfl, rfl, ((KeptExcept.refl.setCommands rest).setPaused _).setReply _⟩
  · exact ⟨_, step_of_command hc, rfl, rfl, ((KeptExcept.refl.setCommands rest).setPaused _).setReply _⟩

/-- Settles O56: an acknowledgement is one write, a release one request, or nothing above 15. -/
theorem acknowledgeAndKeyUpChangeOneThing : Obligations.AcknowledgeAndKeyUpChangeOneThing := fun s rest =>
  ⟨fun hc => ⟨_, step_of_command hc, rfl, rfl, ((KeptExcept.refl.setCommands rest).setRepaint false).setReply .done⟩,
    fun key hc => ⟨_, step_of_keyUp hc, rfl, rfl, ((KeptExcept.refl.setCommands rest).send _).setReply .done⟩,
    fun _ hk hc => ⟨_, step_of_keyUp_out_of_range hc hk, rfl, rfl, (KeptExcept.refl.setCommands rest).setReply _⟩⟩

/-! ### The reconfiguration (R205, R242) -/

/-- A legal request passes the check with the configuration it asks for (R205). -/
theorem checkConfig_of_legal {r : ConfigRequest} {k : Nat} {z : TimerAtZero} {d : DecodeMode} (hcap : r.stackCap = 2 ^ k)
    (hfont : r.font.length = 80) (hz : r.timerAtZero = some z) (hd : r.decodeMode = some d) :
    checkConfig r = .inl ⟨r.stackCap, r.quirkShiftDefault, r.quirkLoadStoreDefault, r.font, z, d⟩ := by
  simp [checkConfig, isPowerOfTwo_iff.2 ⟨k, hcap⟩, hfont, hz, hd]

/-- A request with an illegal parameter does not pass the check (R205; D25). -/
theorem checkConfig_ne_inl {r : ConfigRequest}
    (h : (∀ k, r.stackCap ≠ 2 ^ k) ∨ r.font.length ≠ 80 ∨ r.timerAtZero = none ∨ r.decodeMode = none) (c : Configuration) :
    checkConfig r ≠ .inl c := by
  intro hc
  obtain ⟨⟨hlegal, hlength⟩, hcap, -, -, hfont, hz, hd⟩ := checkConfig_inl hc
  rcases h with h | h | h | h
  · obtain ⟨k, hk⟩ := isPowerOfTwo_iff.1 hlegal
    exact h k (hcap.symm.trans hk)
  · exact h (hfont ▸ hlength)
  · exact absurd (hz.trans h) nofun
  · exact absurd (hd.trans h) nofun

/-- Settles O54: the check decides, and an accepted configuration is stored and reset under. -/
theorem configureValidatesThenResets : Obligations.ConfigureValidatesThenResets := by
  intro s r rest hc
  rcases (s.setCommands rest).hostConfigure_cases r with ⟨c, hcheck, he⟩ | ⟨p, hcheck, he⟩
  · refine ⟨fun k z d hcap hfont hz hd => ?_, fun h => absurd hcheck (checkConfig_ne_inl h c)⟩
    obtain rfl := Sum.inl.inj (hcheck.symm.trans (checkConfig_of_legal hcap hfont hz hd))
    refine ⟨_, (step_of_command hc).trans (congrArg Host.Outcome.next he), rfl, fun j => ?_, rfl, rfl, rfl, rfl, rfl, rfl, rfl,
      fun a ha => ?_, fun a ha => ?_, rfl, rfl, rfl, rfl, rfl, rfl, rfl, rfl, rfl, ⟨rfl, rfl, rfl, rfl⟩, rfl, rfl⟩
    · exact (State.reg_setReply _ _ j).trans (State.reg_performReset _ j)
    · exact (State.readByte_performReset _ a).trans (if_pos ha)
    · exact (State.readByte_performReset _ a).trans (if_neg (Nat.not_lt.2 ha))
  · refine ⟨fun k z d hcap hfont hz hd => ?_, fun _ => ?_⟩
    · exact absurd (hcheck.symm.trans (checkConfig_of_legal hcap hfont hz hd)) nofun
    · exact ⟨_, p, (step_of_command hc).trans (congrArg Host.Outcome.next he), rfl, rfl, (KeptExcept.refl.setCommands rest).setReply _⟩

end Sys2Proof.Machine
end

section
/-! The program load (70_reset_and_hazards.md R243). -/

namespace Sys2Proof.Machine

section
variable {s : State} {bs : List Byte} {rest : List Command}

/-- A program of at most 3584 bytes is written from 0x200, where pc is then set (R243). -/
theorem step_of_loadToMemory (hc : s.commands = .loadToMemory bs :: rest) (hl : bs.length ≤ 3584) :
    step s = .next ((((s.setCommands rest).writeBytes 0x200 bs).setPc 0x200).setReply .done) := by
  rw [step_of_command hc, obey, State.hostLoad, if_neg (Nat.not_lt.2 hl)]

/-- A longer program is refused (R243; D23). -/
theorem step_of_loadToMemory_too_long (hc : s.commands = .loadToMemory bs :: rest) (hl : 3584 < bs.length) :
    step s = .next ((s.setCommands rest).refuse .addressOverflow) := by
  rw [step_of_command hc, obey, State.hostLoad, if_pos hl]

end

/-- Settles O55: a load that fits is one write of bytes and one of pc; one that does not is a reply. -/
theorem loadWritesTheProgramAndSetsThePc : Obligations.LoadWritesTheProgramAndSetsThePc := by
  intro s bs rest hs hc
  have hq : (s.setCommands rest).Inv := cycleStable_inv.setCommands rest hs
  refine ⟨fun hl => ?_, fun hl => ?_⟩
  · exact ⟨_, step_of_loadToMemory hc hl, fun _ => hq.readByte_writeBytes_add 0x200, hq.writeBytes_keeps_outside 0x200 bs, rfl,
      (((KeptExcept.refl.setCommands rest).writeBytes 0x200 bs).setPc 0x200).setReply .done⟩
  · exact ⟨_, step_of_loadToMemory_too_long hc hl, rfl, rfl, (KeptExcept.refl.setCommands rest).setReply _⟩

end Sys2Proof.Machine
end
